-- ==== Sys2Proof/Word.lean ====
section
/-! DEFINITION. The widths of the controller's registers and fields (00_scope.md R6 and R7), as names for
bit vectors. A value is a bit vector here exactly where the spec treats it as bits; counts that no register
holds are natural numbers, and the calibration arithmetic is exact integer arithmetic (R7, R123). -/

namespace Sys2Proof

/-- The host word, 32 bits (R6): every host access moves exactly one (R49). -/
abbrev Word := BitVec 32

/-- A 64-bit result register: RH_C, RH_NUM (R34, R35). -/
abbrev Wide := BitVec 64

/-- A raw measurement word, 16 bits unsigned (R6). -/
abbrev Raw := BitVec 16

/-- A wire command code or the ARG8 field of a command word, 8 bits (R6, R65). -/
abbrev Code := BitVec 8

/-- A byte offset in the 64-byte host register window: the controller's whole address space (R47, R48). -/
abbrev Offset := BitVec 6

/-- The lifecycle register LIFE, 2 bits (R18). -/
abbrev LifeCode := BitVec 2

/-- The error register ERR, 4 bits (R21). -/
abbrev ErrCode := BitVec 4

end Sys2Proof
end

