-- ==== Sys2Proof/Syntax.lean ====
section
/-! DEFINITION. The command set "SHT1x-PSM host command set, version 1" (R1, 30_encoding.md) and what the outside world
can present to the controller: host accesses (R8, R49) and the reset input (R174). -/

namespace Sys2Proof

/-- The twelve legal commands (R67). Every constructor carries the ARG8 field of its command word (R65): ENG_SEND's wire
code; for every other command the eight bits are ignored whatever their value (R66), and they are kept because CMD_LAST
stores the whole written word (R27). -/
inductive Instr where
  /-- OPEN, OP 0x1 (R138). -/
  | openCmd (arg8 : Code)
  /-- CLOSE, OP 0x2 (R140). -/
  | closeCmd (arg8 : Code)
  /-- RESET, OP 0x3: the connection reset on the wire (R101). -/
  | resetCmd (arg8 : Code)
  /-- READ_T, OP 0x4 (R144). -/
  | readT (arg8 : Code)
  /-- READ_RH, OP 0x5 (R146). -/
  | readRH (arg8 : Code)
  /-- READ_TRH, OP 0x6 (R145). -/
  | readTRH (arg8 : Code)
  /-- ENG_SEND c, OP 0x8 (R107). -/
  | engSend (c : Code)
  /-- ENG_WAIT, OP 0x9 (R110). -/
  | engWait (arg8 : Code)
  /-- ENG_GET16, OP 0xA (R115). -/
  | engGet16 (arg8 : Code)
  /-- ENG_SKIPCRC, OP 0xB (R117). -/
  | engSkipCrc (arg8 : Code)
  /-- CAL_T, OP 0xC (R131). -/
  | calT (arg8 : Code)
  /-- CAL_RH, OP 0xD (R132). -/
  | calRH (arg8 : Code)
  deriving DecidableEq, Repr

/-- One access of the host port (R8): `width` is its width in bits, so that an access the model refuses (R49) can be
written down. A write carries one host word; of a refused width no value is carried. -/
inductive HostAccess where
  | read (width : Nat) (off : Offset)
  | write (width : Nat) (off : Offset) (v : Word)
  deriving DecidableEq, Repr

/-- What the outside world does at one point of the total order of R59. -/
inductive Input where
  /-- The host performs one access. -/
  | access (a : HostAccess)
  /-- The reset input `rst` is asserted and released (R174). -/
  | rst
  /-- The outside world does nothing here. -/
  | quiet
  deriving DecidableEq, Repr

/-- One turn of the schedule: an input, and how many sequencer steps fall between it and the next input. "A host access
may fall between any two sequencer steps" (R82); every interleaving of R59 is a list of turns (log entry 1). -/
structure Turn where
  input : Input
  window : Nat
  deriving DecidableEq, Repr

end Sys2Proof
end

