-- ==== Sys2Proof/Decode.lean ====
section
/-! DEFINITION. The decoder of the command word (R65, R70), total on every 32-bit word, and after it the encoder (R73),
written from the field table of R65 and the opcode map of R67. The word is one host word: it has no byte order of its own
(R54). -/

namespace Sys2Proof

/-- Why a word is illegal (R69). Both give the same error code; the name is for the reader. -/
inductive Illegal where
  /-- A bit of RSV0 (`v[7:4]`) or RSV1 (`v[31:16]`) is set. -/
  | reservedBits
  /-- OP is 0x0, 0x7, 0xE or 0xF. -/
  | unassignedOp
  deriving DecidableEq, Repr

/-- OP, bits [3:0] (R65). -/
def fieldOp (v : Word) : BitVec 4 := v.extractLsb' 0 4
/-- RSV0, bits [7:4] (R65). -/
def fieldRsv0 (v : Word) : BitVec 4 := v.extractLsb' 4 4
/-- ARG8, bits [15:8] (R65). -/
def fieldArg8 (v : Word) : Code := v.extractLsb' 8 8
/-- RSV1, bits [31:16] (R65). -/
def fieldRsv1 (v : Word) : BitVec 16 := v.extractLsb' 16 16

/-- The command of an opcode with its ARG8 (the `case` of R70, by the opcode map of R67). -/
def decodeOp (op : Nat) (arg8 : Code) : Except Illegal Instr :=
  match op with
  | 0x1 => .ok (.openCmd arg8)
  | 0x2 => .ok (.closeCmd arg8)
  | 0x3 => .ok (.resetCmd arg8)
  | 0x4 => .ok (.readT arg8)
  | 0x5 => .ok (.readRH arg8)
  | 0x6 => .ok (.readTRH arg8)
  | 0x8 => .ok (.engSend arg8)
  | 0x9 => .ok (.engWait arg8)
  | 0xA => .ok (.engGet16 arg8)
  | 0xB => .ok (.engSkipCrc arg8)
  | 0xC => .ok (.calT arg8)
  | 0xD => .ok (.calRH arg8)
  | _ => .error .unassignedOp

/-- `Decode` of R70, total on every word. -/
def decode (v : Word) : Except Illegal Instr :=
  if fieldRsv1 v ≠ 0#16 ∨ fieldRsv0 v ≠ 0#4 then .error .reservedBits
  else decodeOp (fieldOp v).toNat (fieldArg8 v)

/-- The instruction the decoder reads from a row of spec/opcode_table.json: one word of 32 bits, every bit above `nbits`
zero. -/
def decodeTableWord (nbits w : Nat) : Option Instr :=
  if w % 2 ^ nbits < 2 ^ 32 then (decode (BitVec.ofNat 32 (w % 2 ^ nbits))).toOption else none

/-- The opcode of a command (R67). -/
def Instr.opcode : Instr → BitVec 4
  | .openCmd _ => 0x1#4
  | .closeCmd _ => 0x2#4
  | .resetCmd _ => 0x3#4
  | .readT _ => 0x4#4
  | .readRH _ => 0x5#4
  | .readTRH _ => 0x6#4
  | .engSend _ => 0x8#4
  | .engWait _ => 0x9#4
  | .engGet16 _ => 0xA#4
  | .engSkipCrc _ => 0xB#4
  | .calT _ => 0xC#4
  | .calRH _ => 0xD#4

/-- The ARG8 field of a command. -/
def Instr.arg8 : Instr → Code
  | .openCmd a => a
  | .closeCmd a => a
  | .resetCmd a => a
  | .readT a => a
  | .readRH a => a
  | .readTRH a => a
  | .engSend c => c
  | .engWait a => a
  | .engGet16 a => a
  | .engSkipCrc a => a
  | .calT a => a
  | .calRH a => a

/-- The word of a command: RSV1 = 0, ARG8, RSV0 = 0, OP, from high to low (R65, R68: `0x0000_AA0O`). -/
def encode (i : Instr) : Word :=
  0#16 ++ i.arg8 ++ 0#4 ++ i.opcode

end Sys2Proof
end

