-- ==== Sys2Proof/Config.lean ====
section
/-! DEFINITION. What is fixed for one controller: the source's constants (R6, R71), the coefficients of the
calibration unit (R121), the parameters the spec leaves open (R6, 92_eei_decisions.md), and the one free value of the
model, the environment's answer to a draw (R170). The open ones are opaque constants without a body. -/

namespace Sys2Proof.Config

/-- `RESET_PULSES`: SCK pulses of the connection reset (R6, R100). -/
def resetPulses : Nat := 10

/-- `POLL_MAX`: the most DATA samples one ready-poll takes (R6, R108). -/
def pollMax : BitVec 7 := 100#7

/-- The longest command's micro-operations, READ_TRH with two polls of 100 samples (R17, R191). -/
def maxMicroOps : Nat := 716

/-- `CMD_TEMP`: the wire code of the temperature measurement (R71). -/
def cmdTemp : Code := 0b00000011#8

/-- `CMD_HUMI`: the wire code of the humidity measurement (R71). -/
def cmdHumi : Code := 0b00000101#8

/-! The coefficients of R121, each as the integer at the scale its table gives. -/

/-- D1 at 10^-2 °C. -/
def coeffD1 : Int := -4010
/-- D2 at 10^-2 °C per count. -/
def coeffD2 : Int := 1
/-- C1 at 10^-10 %RH. -/
def coeffC1 : Int := -20468000000
/-- C2 at 10^-10 %RH per count. -/
def coeffC2 : Int := 367000000
/-- C3 at 10^-10 %RH per count squared. -/
def coeffC3 : Int := -15955
/-- T1 at 10^-10 %RH per °C. -/
def coeffT1 : Int := 100000000
/-- T2 at 10^-10 %RH per °C per count. -/
def coeffT2 : Int := 800000

/-! The environment. -/

/-- FREE VALUE (log entry 2). The environment's answer to draw number n of a run (`SAMPLE` or `GRANT`, R170), where the
state lists no answer for it. The spec gives the draws no law: "Its rules hold for every sequence of draws". -/
opaque draw : Nat → Bool

/-! Open parameters (R6; 92_eei_decisions.md "Open parameters"; log entry 10). None decides what a command does: the cycle
parameters are read only by the count of clk cycles that R99 and R191 give, the last two by nothing. -/

/-- `P_SETTLE_CYCLES` as a positive number. -/
opaque settleCyclesPos : ℕ+
/-- `P_SETTLE_CYCLES`: the clk cycles of one settle delay. -/
def settleCycles : Nat := settleCyclesPos

/-- `P_POLL_CYCLES` as a positive number. -/
opaque pollCyclesPos : ℕ+
/-- `P_POLL_CYCLES`: the clk cycles of one poll delay. -/
def pollCycles : Nat := pollCyclesPos

/-- `P_CAL_CYCLES` as a positive number. -/
opaque calCyclesPos : ℕ+
/-- `P_CAL_CYCLES`: the clk cycles of one calibration computation. -/
def calCycles : Nat := calCyclesPos

opaque clkHzRaw : Nat
/-- `P_CLK_HZ`: any positive frequency at which `P_POLL_CYCLES` covers `T_POLL`, 10 ms. -/
def clkHz : Nat := 1 + clkHzRaw % (100 * pollCycles)

opaque settleMargin : Nat
/-- `T_SETTLE_MIN`, in picoseconds: any time that `P_SETTLE_CYCLES` covers at `P_CLK_HZ` (the reference value, 100 ns, is
100000 here). -/
def settleMinPs : Nat := settleCycles * 10 ^ 12 / clkHz - settleMargin

/-- `P_BASE`: where the window sits in the host's address map; no rule reads it (R48). -/
opaque base : Nat

/-- `P_HOST_ENDIAN`: which byte lane of a word each of its four host byte addresses carries, lane 0 being bits [7:0]; no rule
reads it (R54). That the lanes are a permutation of the addresses is the model's form (DESIGN CHOICE, log entry 10). -/
opaque hostByteLane : Equiv.Perm (Fin 4)

end Sys2Proof.Config
end

