-- ==== Sys2Proof/Machine/Micro.lean ====
section
/-! DEFINITION. The vocabulary of the sequencer (40_sequencer.md): the two pins, the seven micro-operations (R84), the
register writes and decisions that a routine's pseudocode makes between them, which belong to the step of the
micro-operation before them (R84), and the events of the wire trace (R98). The micro-programs themselves are fixed logic
(R62); they stand with the commands, in Protocol.lean, Calibration.lean and Facade.lean. -/

namespace Sys2Proof.Machine

/-- The two pins: DATA and SCK (R13). -/
inductive Pin where
  | data
  | sck
  deriving DecidableEq, Repr

/-- A pin's direction: drive or sense (R13). -/
inductive PinDir where
  | out
  | inp
  deriving DecidableEq, Repr

/-- OUT = 1 and IN = 0 (R36, R85). -/
def PinDir.bit : PinDir → Bool
  | .out => true
  | .inp => false

/-- Which computation a `CALC` performs and commits (R130, R131, R132, R143). -/
inductive CalcKind where
  /-- CAL_T: the temperature of LA[15:0]. -/
  | calT
  /-- CAL_RH: the humidity of LA[15:0] at the temperature LB. -/
  | calRH
  /-- COMMIT_T of a read command: the temperature of the word just shifted in. -/
  | stageT
  /-- COMMIT_H of a read command: the humidity of the word just shifted in at TEMP_C. -/
  | stageH
  deriving DecidableEq, Repr

/-- The seven micro-operations (R84). -/
inductive MicroOp where
  | dir (p : Pin) (m : PinDir)
  | drv (p : Pin) (v : Bool)
  | settle
  | pollDly
  | sample
  | grant (p : Pin)
  | calc (k : CalcKind)
  deriving DecidableEq, Repr

/-- What the pseudocode does after a micro-operation and before the next one (R84). -/
inductive Post where
  /-- Nothing. -/
  | none
  /-- CNT starts a loop at 0. -/
  | clearCnt
  /-- CNT counts one more pass of a loop. -/
  | countUp
  /-- `SH <- 0`: SHIFT_IN8 begins (R111). CNT starts at 0 in the same step, which is the model's choice (DESIGN CHOICE, log
  entry 8). -/
  | clearShift
  /-- `SH <- 2 * SH + b` (R111). -/
  | shiftBit
  /-- `W <- msb * 256`: the first SHIFT_IN8 has returned (R112). -/
  | takeMsb
  /-- `W <- W OR lsb`, and the DATA16 commit (R112, R114). -/
  | takeLsb
  /-- `A1 <- b; ACK1 <- A1` (R104). -/
  | ack1
  /-- `A2 <- b; ACK2 <- A2`, then the handshake check (R104, R105). -/
  | ack2
  /-- `CNT <- CNT + 1; POLLS <- CNT`, then return, raise or poll again (R108). -/
  | poll
  /-- OPEN has DATA's grant and asks for SCK's next (R138). -/
  | grantData
  /-- OPEN has both grants, DATA's being `gd`: go on, or raise PIN_ACQ (R138). -/
  | grantSck (gd : Bool)
  /-- `LIFE <- READY` (R138). -/
  | lifeReady
  /-- `LIFE <- CLOSED` (R140). -/
  | lifeClosed
  /-- A two-stage read goes from stage T to stage H (R39, R145). -/
  | enterStageH
  deriving DecidableEq, Repr

/-- One step of a micro-program: a micro-operation and what belongs to its step. -/
structure MicroInstr where
  op : MicroOp
  post : Post
  deriving DecidableEq, Repr

/-- The stage of a read command (R39). -/
inductive Stage where
  | temperature
  | humidity
  deriving DecidableEq, Repr

/-- CUR while a command runs: the command, and for READ_T, READ_RH and READ_TRH the stage (R39). -/
structure Running where
  cmd : Instr
  stage : Option Stage
  deriving DecidableEq, Repr

/-- The events of the wire trace (R98). -/
inductive WireEvent where
  | dir (p : Pin) (m : PinDir)
  | drv (p : Pin) (v : Bool)
  | settle
  | pollDly
  | sample (b : Bool)
  | grant (p : Pin) (g : Bool)
  deriving DecidableEq, Repr

/-- How a step's pseudocode goes on: to the micro-operations that are still to come, or to a raise (R10, R156). -/
inductive Flow where
  | go (rest : List MicroInstr)
  | raise (e : ErrCode)
  deriving DecidableEq, Repr

end Sys2Proof.Machine
end

