-- ==== Sys2Proof/Machine/State.lean ====
section
/-! DEFINITION. The machine's state as plain data, the reasons it can stop, and the state after hardware reset. The
fields follow 10_state.md's five classes (R15); the last group is the model's own: what the environment and the host have
still to do, and what an observer has seen. -/

namespace Sys2Proof.Machine

/-- LIFE codes (R18). Value 3 never occurs. -/
def lifeUninit : LifeCode := 0#2
def lifeReady : LifeCode := 1#2
def lifeClosed : LifeCode := 2#2

/-- Error codes (R21, R149). Codes 6 to 15 are reserved and never written. -/
def errNone : ErrCode := 0#4
def errPinAcq : ErrCode := 1#4
def errHandshake : ErrCode := 2#4
def errReadyTimeout : ErrCode := 3#4
def errLifecycle : ErrCode := 4#4
def errIllegalOp : ErrCode := 5#4

/-- The state of the controller and of what surrounds it. -/
structure State where
  -- 1. Lifecycle.
  /-- R18: 2 bits, STATUS[3:2]. -/
  life : LifeCode
  -- 2. Command and status.
  /-- R19: STATUS[0]. -/
  busy : Bool
  /-- R20: STATUS[1]. -/
  done : Bool
  /-- R21: 4 bits, STATUS[11:8]. -/
  err : ErrCode
  /-- R22: STATUS[17]. -/
  reject : Bool
  /-- R23: STATUS[12]. -/
  ack1 : Bool
  /-- R23: STATUS[13]. -/
  ack2 : Bool
  /-- R24: 7 bits, STATUS[24:18]. -/
  polls : BitVec 7
  /-- R25: STATUS[14]. -/
  tValid : Bool
  /-- R25: STATUS[15]. -/
  rhValid : Bool
  /-- R25: STATUS[16]. -/
  d16Valid : Bool
  /-- R27: the last accepted word. -/
  cmdLast : Word
  -- 3. Operands and results.
  /-- R28. -/
  opa : Word
  /-- R29. -/
  opb : Word
  /-- R30. -/
  rawT : Raw
  /-- R31. -/
  rawH : Raw
  /-- R32. -/
  data16 : Raw
  /-- R33: two's complement, 0.01 °C. -/
  tempC : Word
  /-- R34: two's complement, 0.01 %RH. -/
  rhC : Wide
  /-- R35: two's complement, 10^-10 %RH. -/
  rhNum : Wide
  -- 4. Pins.
  /-- R36: DATA direction, true = OUT. -/
  ddir : Bool
  /-- R36: DATA output latch. -/
  dout : Bool
  /-- R36: SCK direction, true = OUT. -/
  cdir : Bool
  /-- R36: SCK output latch. -/
  cout : Bool
  -- 5. Sequencer internals, which the host cannot read.
  /-- R39: the running command and its stage; none while idle. -/
  cur : Option Running
  /-- R17: the micro-operations the command has executed. -/
  upc : BitVec 10
  /-- R41: latched operand A. -/
  la : Word
  /-- R41: latched operand B. -/
  lb : Word
  /-- R40: the shift accumulator. -/
  sh : Raw
  /-- R40: the word being assembled. -/
  w : Raw
  /-- R40: the loop counter. -/
  cnt : BitVec 7
  /-- R40: the down-counter of the current delay. -/
  tmr : Nat
  /-- R40: acknowledgement sample 1 before the check. -/
  a1 : Bool
  /-- R40: acknowledgement sample 2 before the check. -/
  a2 : Bool
  /-- The model's form of R82's "next micro-operation": what the running routine has still to perform, as the draws taken
  so far leave it (log entry 3). Empty while idle. -/
  rest : List MicroInstr
  -- 6. The model's own: the environment, the host, and the observer.
  /-- The environment's answers to the next draws, in order (R170, log entry 2). -/
  draws : List Bool
  /-- How many draws have been taken since the run began: the index of the free value `Config.draw`. -/
  drawCount : Nat
  /-- What the outside world has still to do, in order (R59, log entry 1). -/
  host : List Turn
  /-- The sequencer steps that fall before the next input, of the turn being taken (log entry 1). -/
  window : Nat
  /-- The word the last host read returned (R8, log entry 4). -/
  rdata : Word
  /-- The wire trace of the command that started last, newest event first (R98, log entry 5). -/
  trace : List WireEvent
  /-- The clk cycles of the command that started last (R99, log entry 6). -/
  cycles : Nat
  deriving DecidableEq, Repr

/-- Why the machine stops with a fault. All five are states the controller never reaches (R97, 93_implementation_defined.md
X3): reaching one shows an error in the model or in the spec. Each is safe: nothing can be proved past it. -/
inductive Fault where
  /-- MF1: `DRV` on a pin whose direction is IN (R86). Raised by the sequencer's step. Safe. -/
  | driveWhileInput
  /-- MF2: `SAMPLE` with DATA OUT (R89). Raised by the sequencer's step. Safe. -/
  | sampleWhileOutput
  /-- MF3: `LIFE = 3` (R18). Raised by every step but hardware reset. Safe. -/
  | lifeThree
  /-- MF4: a sequencer step with `BUSY = 1` and no next micro-operation. Raised by the sequencer's step. Safe. -/
  | noNextMicroOp
  /-- A reserved code in ERR (R21, 93 X3: "a model that sees one has a fault"). Raised by every step but hardware reset.
  Safe. -/
  | reservedErrCode
  deriving DecidableEq, Repr

/-- Why the machine refuses. -/
inductive Refusal where
  /-- The instruction has no meaning in the model: raised by an arm of exec only. Safe. -/
  | notModelled (mnemonic : String)
  /-- R49, Y1: a host access narrower or wider than 32 bits. Raised by the host port. Safe. -/
  | accessWidth
  /-- R50, Y2: a host access at an offset that is no multiple of 4. Raised by the host port. Safe. -/
  | misalignedAccess
  deriving DecidableEq, Repr

/-- The state after hardware reset (R45, R174). UPC, LA, LB, SH, W, CNT, TMR, A1 and A2 are unspecified there; the model
gives them zero (log entry 7). The model's own fields start empty: nothing listed for host or environment. -/
def State.reset : State where
  life := lifeUninit
  busy := false
  done := false
  err := errNone
  reject := false
  ack1 := false
  ack2 := false
  polls := 0#7
  tValid := false
  rhValid := false
  d16Valid := false
  cmdLast := 0#32
  opa := 0#32
  opb := 0#32
  rawT := 0#16
  rawH := 0#16
  data16 := 0#16
  tempC := 0#32
  rhC := 0#64
  rhNum := 0#64
  ddir := false
  dout := true
  cdir := false
  cout := false
  cur := none
  upc := 0#10
  la := 0#32
  lb := 0#32
  sh := 0#16
  w := 0#16
  cnt := 0#7
  tmr := 0
  a1 := false
  a2 := false
  rest := []
  draws := []
  drawCount := 0
  host := []
  window := 0
  rdata := 0#32
  trace := []
  cycles := 0

end Sys2Proof.Machine
end

