-- ==== Sys2Proof/Machine/Arith.lean ====
section
/-! DEFINITION. The datapaths of the calibration unit (42_calibration.md): exact integer arithmetic, narrowed to a
register's width at the commit (R123 to R129). They are total and test no value (R133, R134). -/

namespace Sys2Proof.Machine

/-- `CalTemp(r) = (zext_32(r) − 4010) mod 2^32` (R124). -/
def calTemp (r : Raw) : Word := BitVec.ofInt 32 (Config.coeffD2 * r.toNat + Config.coeffD1)

/-- `HumNum(r, t)`: the humidity numerator at 10^-10 %RH, for a raw word r and a temperature t in hundredths (R125). -/
def humNum (r : Raw) (t : Int) : Int :=
  Config.coeffC1 + Config.coeffC2 * r.toNat + Config.coeffC3 * (r.toNat * r.toNat)
    + 1000 * (t - 2500) * (1000 + 8 * r.toNat)

/-- `RoundHum(N) = floor_div(N + 50000000, 100000000)`: to the nearest hundredth, ties upward (R127). -/
def roundHum (n : Int) : Int := (n + 50000000).fdiv 100000000

/-- The atomic commit of the temperature group (R58, R131, R143). -/
def commitT (r : Raw) (s : State) : State :=
  { s with rawT := r, tempC := calTemp r, tValid := true }

/-- The atomic commit of the humidity group (R58, R132, R143). -/
def commitRH (r : Raw) (t : Int) (s : State) : State :=
  { s with
    rawH := r
    rhNum := BitVec.ofInt 64 (humNum r t)
    rhC := BitVec.ofInt 64 (roundHum (humNum r t))
    rhValid := true }

/-- The atomic commit of DATA16 (R58, R114). -/
def commitData16 (v : Raw) (s : State) : State :=
  { s with data16 := v, d16Valid := true }

end Sys2Proof.Machine
end

