-- ==== Sys2Proof/Machine/Flags.lean ====
section
/-! DEFINITION. The status flags (R25, R26, R44): the STATUS and PINS words the host reads, and the flag writes that a
command's start, its acknowledgement samples and its polls make. -/

namespace Sys2Proof.Machine

/-- A flag as one bit of a word. -/
def flagBit (b : Bool) : BitVec 1 := BitVec.ofBool b

/-- The STATUS word (R26): from bit 31 down, reserved [31:25], POLLS, REJECT, D16_VALID, RH_VALID, T_VALID, ACK2, ACK1,
ERR, reserved [7:4], LIFE, DONE, BUSY. -/
def statusWord (s : State) : Word :=
  0#7 ++ s.polls ++ flagBit s.reject ++ flagBit s.d16Valid ++ flagBit s.rhValid ++ flagBit s.tValid
    ++ flagBit s.ack2 ++ flagBit s.ack1 ++ s.err ++ 0#4 ++ s.life ++ flagBit s.done ++ flagBit s.busy

/-- The PINS word (R38): `zext_32({COUT, CDIR, DOUT, DDIR})`. -/
def pinsWord (s : State) : Word :=
  0#28 ++ flagBit s.cout ++ flagBit s.cdir ++ flagBit s.dout ++ flagBit s.ddir

/-! Flags cleared when a command starts (R67 column "clears at start", R81). -/

/-- CAL_T clears T_VALID. -/
def clearT (s : State) : State := { s with tValid := false }

/-- CAL_RH clears RH_VALID. -/
def clearRH (s : State) : State := { s with rhValid := false }

/-- ENG_GET16 clears D16_VALID. -/
def clearD16 (s : State) : State := { s with d16Valid := false }

/-- READ_T clears T_VALID and D16_VALID. -/
def clearTD16 (s : State) : State := { s with tValid := false, d16Valid := false }

/-- READ_RH and READ_TRH clear all three. -/
def clearAllValid (s : State) : State := { s with tValid := false, rhValid := false, d16Valid := false }

/-! Flags a routine's samples write (R104, R108). -/

/-- `A1 <- SAMPLE();  ACK1 <- A1` (R104). -/
def recordAck1 (b : Bool) (s : State) : State := { s with a1 := b, ack1 := b }

/-- `A2 <- SAMPLE();  ACK2 <- A2` (R104). -/
def recordAck2 (b : Bool) (s : State) : State := { s with a2 := b, ack2 := b }

/-- The handshake check of R105: `A1 != 0 or A2 != 1` is a failure. -/
def handshakeFails (s : State) : Bool := s.a1 || !s.a2

/-- `CNT <- CNT + 1;  POLLS <- CNT` (R108). -/
def recordPoll (s : State) : State := { s with cnt := s.cnt + 1#7, polls := s.cnt + 1#7 }

end Sys2Proof.Machine
end

