-- ==== Sys2Proof/Machine/Operands.lean ====
section
/-! DEFINITION. The operand forms (R66): ENG_SEND's wire code, the latched copies LA and LB (R41), the raw word and the
temperature the calibration commands take from them. No command has another operand form. -/

namespace Sys2Proof.Machine

/-- `LA <- zext_32(c)`: ENG_SEND latches its wire code (R66, R81). -/
def latchCode (c : Code) (s : State) : State := { s with la := c.setWidth 32 }

/-- `LA <- OPA`: CAL_T latches its operand (R66, R81). -/
def latchA (s : State) : State := { s with la := s.opa }

/-- `LA <- OPA;  LB <- OPB`: CAL_RH latches its operands (R66, R81). -/
def latchAB (s : State) : State := { s with la := s.opa, lb := s.opb }

/-- `LA[7:0]`, the wire code ENG_SEND sends (R107). -/
def wireCode (s : State) : Code := s.la.extractLsb' 0 8

/-- `r = LA[15:0]`, unsigned (R131, R132). -/
def rawOperand (s : State) : Raw := s.la.extractLsb' 0 16

/-- `t = sint(LB)`, hundredths of a degree Celsius (R123, R132). -/
def tempOperand (s : State) : Int := s.lb.toInt

/-- `sint(TEMP_C)`, the temperature a humidity stage compensates with (R143). -/
def committedTemp (s : State) : Int := s.tempC.toInt

end Sys2Proof.Machine
end

