-- ==== Sys2Proof/WellFormed.lean ====
section
/-! DEFINITION. Which terms are well formed. A command's only field is the eight bits of ARG8, and every value of it is
legal (R68), so every `Instr` is well formed by its type. A host access is well formed when it moves one full host word
(R49) at a word-aligned offset (R50); a model refuses the others (93_implementation_defined.md Y1, Y2). -/

namespace Sys2Proof

/-- Every command is well formed: ENG_SEND has 256 legal words and so has each other command (R68). -/
def Instr.wellFormed : Instr → Bool
  | .openCmd _ => true
  | .closeCmd _ => true
  | .resetCmd _ => true
  | .readT _ => true
  | .readRH _ => true
  | .readTRH _ => true
  | .engSend _ => true
  | .engWait _ => true
  | .engGet16 _ => true
  | .engSkipCrc _ => true
  | .calT _ => true
  | .calRH _ => true

/-- R49: "Every host access moves one full 32-bit word." -/
def HostAccess.fullWord : HostAccess → Bool
  | .read width _ => width == 32
  | .write width _ _ => width == 32

/-- The byte offset of an access. -/
def HostAccess.off : HostAccess → Offset
  | .read _ off => off
  | .write _ off _ => off

/-- R50: "A host access needs a byte offset that is a multiple of 4." -/
def HostAccess.aligned (a : HostAccess) : Bool :=
  a.off.extractLsb' 0 2 == 0#2

/-- The accesses the controller's host port can make. -/
def HostAccess.wellFormed (a : HostAccess) : Bool :=
  a.fullWord && a.aligned

end Sys2Proof
end

