-- ==== Sys2Proof/Machine/Ops.lean ====
section
/-! DEFINITION. The named operations every command is made of: the draws (R170), the pin ports (R37), one step of the
sequencer (R82), completion and abort (R83, R156), acceptance and start (R78 to R81), the host register window (R53) and
hardware reset (R174). The spec has no exception that saves a return point: "Every error is reported the same way"
(R148), and that one shared operation is `complete`; there is nothing to return from (R160). -/

namespace Sys2Proof.Machine

/-! ## Draws and ports -/

/-- The answer to the draw number `n` from here on: the listed answer, or where none is listed the free value (R170). -/
def State.drawAt (s : State) (n : Nat) : Bool :=
  s.draws[n]?.getD (Config.draw (s.drawCount + n))

/-- The environment has answered `n` draws. -/
def State.skipDraws (s : State) (n : Nat) : State :=
  { s with draws := s.draws.drop n, drawCount := s.drawCount + n }

/-- The pin ports, each a function of the pin state only (R37): `data_oe`. -/
def portDataOe (s : State) : Bool := s.ddir
/-- `data_o` (R37). -/
def portDataO (s : State) : Bool := s.dout
/-- `sck_oe` (R37). -/
def portSckOe (s : State) : Bool := s.cdir
/-- `sck_o` (R37). -/
def portSckO (s : State) : Bool := s.cout

/-- The wire trace, oldest event first (R98). -/
def State.wireTrace (s : State) : List WireEvent := s.trace.reverse

/-! ## Model faults -/

/-- A code the controller never holds (R97 MF3; R21, 93 X3). -/
def codeFault (s : State) : Option Fault :=
  if s.life = 3#2 then some .lifeThree
  else if 5#4 < s.err then some .reservedErrCode
  else none

/-- "A model that reaches one must record a fault and stop" (R97). -/
def guarded (s : State) (k : State → Host.Outcome State Fault Refusal) : Host.Outcome State Fault Refusal :=
  match codeFault s with
  | some f => .fault f
  | none => k s

/-! ## Completion -/

/-- `Complete(e)` (R83), the one way a running command ends, by `finish` (e = NONE) or by `raise` (R156). -/
def complete (e : ErrCode) (s : State) : State :=
  { s with err := e, done := true, busy := false, cur := none, rest := [] }

/-! ## One step of the sequencer -/

/-- What a micro-operation requires of the pins: `DRV` needs its pin OUT (R86, MF1), `SAMPLE` needs DATA IN (R89, MF2). -/
def opFault (op : MicroOp) (s : State) : Option Fault :=
  match op with
  | .drv .data _ => if s.ddir then none else some .driveWhileInput
  | .drv .sck _ => if s.cdir then none else some .driveWhileInput
  | .sample => if s.ddir then some .sampleWhileOutput else none
  | .dir _ _ => none
  | .settle => none
  | .pollDly => none
  | .grant _ => none
  | .calc _ => none

/-- The bit a micro-operation draws (R89, R90); the others draw none. -/
def opBit (op : MicroOp) (s : State) : Bool :=
  match op with
  | .sample => s.drawAt 0
  | .grant _ => s.drawAt 0
  | .dir _ _ => false
  | .drv _ _ => false
  | .settle => false
  | .pollDly => false
  | .calc _ => false

/-- `CALC`: one calibration computation and its commit (R91, R130). -/
def applyCalc (k : CalcKind) (s : State) : State :=
  match k with
  | .calT => commitT (rawOperand s) s
  | .calRH => commitRH (rawOperand s) (tempOperand s) s
  | .stageT => commitT s.w s
  | .stageH => commitRH s.w (committedTemp s) s

/-- What a micro-operation itself writes (R85 to R91). A delay is one step in which TMR runs down to 0 (log entry 6). -/
def applyOp (op : MicroOp) (s : State) : State :=
  match op with
  | .dir .data m => { s with ddir := m.bit }
  | .dir .sck m => { s with cdir := m.bit }
  | .drv .data v => { s with dout := v }
  | .drv .sck v => { s with cout := v }
  | .settle => { s with tmr := 0 }
  | .pollDly => { s with tmr := 0 }
  | .sample => s.skipDraws 1
  | .grant _ => s.skipDraws 1
  | .calc k => applyCalc k s

/-- The event a micro-operation adds to the wire trace; `CALC` adds none (R98). -/
def wireEvent (op : MicroOp) (b : Bool) : List WireEvent :=
  match op with
  | .dir p m => [.dir p m]
  | .drv p v => [.drv p v]
  | .settle => [.settle]
  | .pollDly => [.pollDly]
  | .sample => [.sample b]
  | .grant p => [.grant p b]
  | .calc _ => []

/-- The clk cycles of a micro-operation (R99). -/
def opCycles (op : MicroOp) : Nat :=
  match op with
  | .dir _ _ => 1
  | .drv _ _ => 1
  | .sample => 1
  | .grant _ => 1
  | .settle => Config.settleCycles
  | .pollDly => Config.pollCycles
  | .calc _ => Config.calCycles

/-- `UPC <- UPC + 1` (R82), and the observer's records: the wire trace and the cycle count. -/
def count (op : MicroOp) (b : Bool) (s : State) : State :=
  { s with
    upc := s.upc + 1#10
    trace := wireEvent op b ++ s.trace
    cycles := s.cycles + opCycles op }

/-- The passes of ready-polling still to come after a high sample (R108). -/
def pollAgain (rest : List MicroInstr) : List MicroInstr :=
  ⟨.pollDly, .none⟩ :: ⟨.sample, .poll⟩ :: rest

/-- The writes that belong to the step (R84), and how the pseudocode goes on. `b` is the bit drawn, `rest` what follows. -/
def applyPost (p : Post) (b : Bool) (rest : List MicroInstr) (s : State) : State × Flow :=
  match p with
  | .none => (s, .go rest)
  | .clearCnt => ({ s with cnt := 0#7 }, .go rest)
  | .countUp => ({ s with cnt := s.cnt + 1#7 }, .go rest)
  | .clearShift => ({ s with sh := 0#16, cnt := 0#7 }, .go rest)
  | .shiftBit => ({ s with sh := 2#16 * s.sh + (BitVec.ofBool b).setWidth 16 }, .go rest)
  | .takeMsb => ({ s with cnt := s.cnt + 1#7, w := s.sh.extractLsb' 0 8 ++ 0#8 }, .go rest)
  | .takeLsb =>
    (commitData16 (s.w ||| (0#8 ++ s.sh.extractLsb' 0 8))
      { s with cnt := s.cnt + 1#7, w := s.w ||| (0#8 ++ s.sh.extractLsb' 0 8) }, .go rest)
  | .ack1 => (recordAck1 b s, .go rest)
  | .ack2 => (recordAck2 b s, if handshakeFails (recordAck2 b s) then .raise errHandshake else .go rest)
  | .poll =>
    (recordPoll s,
      if b = false then .go rest
      else if (recordPoll s).cnt = Config.pollMax then .raise errReadyTimeout
      else .go (pollAgain rest))
  | .grantData => (s, .go (⟨.grant .sck, .grantSck b⟩ :: rest))
  | .grantSck gd => (s, if gd && b then .go rest else .raise errPinAcq)
  | .lifeReady => ({ s with life := lifeReady }, .go rest)
  | .lifeClosed => ({ s with life := lifeClosed }, .go rest)
  | .enterStageH => ({ s with cur := s.cur.map fun r => { r with stage := some .humidity } }, .go rest)

/-- The routine goes on with `rest`. -/
def goOn (rest : List MicroInstr) (s : State) : State := { s with rest := rest }

/-- The end of a step: a raise, or no further micro-operation, completes the command in this same step (R83, R156). -/
def conclude (sf : State × Flow) : State :=
  match sf.2 with
  | .raise e => complete e sf.1
  | .go [] => complete errNone sf.1
  | .go (i :: r) => goOn (i :: r) sf.1

/-- The whole of a step whose micro-operation may be performed. -/
def advance (i : MicroInstr) (rest : List MicroInstr) (s : State) : State :=
  conclude (applyPost i.post (opBit i.op s) rest (count i.op (opBit i.op s) (applyOp i.op s)))

/-- One sequencer step while a command runs (R82): the next micro-operation, and what belongs to its step. With no next
micro-operation it is MF4 (R97). -/
def microStep (s : State) : Host.Outcome State Fault Refusal :=
  match s.rest with
  | [] => .fault .noNextMicroOp
  | i :: rest =>
    match opFault i.op s with
    | some f => .fault f
    | none => .next (advance i rest s)

/-- What follows a next state; a fault or a refusal stops. -/
def andThen (o : Host.Outcome State Fault Refusal) (k : State → Host.Outcome State Fault Refusal) :
    Host.Outcome State Fault Refusal :=
  match o with
  | .next s => k s
  | .fault f => .fault f
  | .refused r => .refused r

/-- At most `n` sequencer steps in a row: "While idle it takes no step" (R75). -/
def runSeq : Nat → State → Host.Outcome State Fault Refusal
  | 0, s => .next s
  | n + 1, s =>
    if s.busy then andThen (microStep s) (runSeq n) else .next s

/-! ## Presenting a command -/

/-- The outcome of `LifecycleAllows` with CLOSE's no-op (R137). -/
inductive Gate where
  | runs
  | noOp
  | lifecycle
  deriving DecidableEq, Repr

/-- A gate open in READY only. -/
def gateReady (life : LifeCode) : Gate := if life = lifeReady then .runs else .lifecycle

/-- The table of R137. -/
def lifecycleGate (k : Instr) (life : LifeCode) : Gate :=
  match k with
  | .openCmd _ => if life = lifeUninit then .runs else .lifecycle
  | .closeCmd _ => if life = lifeReady then .runs else if life = lifeClosed then .noOp else .lifecycle
  | .resetCmd _ => gateReady life
  | .readT _ => gateReady life
  | .readRH _ => gateReady life
  | .readTRH _ => gateReady life
  | .engSend _ => gateReady life
  | .engWait _ => gateReady life
  | .engGet16 _ => gateReady life
  | .engSkipCrc _ => gateReady life
  | .calT _ => .runs
  | .calRH _ => .runs

/-- `Reject(v)` (R77). -/
def markReject (s : State) : State := { s with reject := true }

/-- The common part of `Accept(v)` (R78). -/
def acceptCommon (v : Word) (s : State) : State :=
  { s with cmdLast := v, done := false, err := errNone, reject := false }

/-- `CompleteNow(e)` (R78): the command completes in its acceptance step. -/
def completeNow (e : ErrCode) (s : State) : State := { s with err := e, done := true }

/-- `Start(k, v)` (R81) after its latching and clearing: CUR, UPC and BUSY, and the observer's records begin anew. -/
def start (k : Instr) (stage : Option Stage) (routine : List MicroInstr) (s : State) : State :=
  { s with cur := some ⟨k, stage⟩, upc := 0#10, busy := true, rest := routine, trace := [], cycles := 0 }

/-- What acceptance does with the legal command k (R78, R80, R81). `prepare` is the latching and clearing of R81;
`routine` is k's micro-program, which may read the latched operands. -/
def accept (k : Instr) (stage : Option Stage) (prepare : State → State) (routine : State → List MicroInstr)
    (s : State) : State :=
  match lifecycleGate k s.life with
  | .runs => start k stage (routine (prepare (acceptCommon (encode k) s))) (prepare (acceptCommon (encode k) s))
  | .noOp => completeNow errNone (acceptCommon (encode k) s)
  | .lifecycle => completeNow errLifecycle (acceptCommon (encode k) s)

/-- `PresentCommand(v)` (R76): reject while BUSY, else accept. -/
def present (k : Instr) (stage : Option Stage) (prepare : State → State) (routine : State → List MicroInstr)
    (s : State) : State :=
  if s.busy then markReject s else accept k stage prepare routine s

/-- The meaning of a command: it is presented, and the sequencer then takes the steps that fall before the host's next
access (log entry 1). A window of `Config.maxMicroOps` steps runs every command to its completion (R188). -/
def command (k : Instr) (stage : Option Stage) (prepare : State → State) (routine : State → List MicroInstr)
    (s : State) : Host.Outcome State Fault Refusal :=
  guarded s fun s => runSeq s.window (present k stage prepare routine s)

/-- `PresentCommand(v)` for an illegal word v (R69, R77, R79). -/
def presentIllegal (v : Word) (s : State) : State :=
  if s.busy then markReject s else completeNow errIllegalOp (acceptCommon v s)

/-! ## The host register window and hardware reset -/

/-- `HostRead(off)` (R53); the controller decodes offset bits [5:2] only (R48). -/
def hostRead (off : Offset) (s : State) : Word :=
  match (off.extractLsb' 2 4).toNat with
  | 0x0 => s.cmdLast
  | 0x1 => statusWord s
  | 0x2 => s.opa
  | 0x3 => s.opb
  | 0x4 => s.rawT.setWidth 32
  | 0x5 => s.rawH.setWidth 32
  | 0x6 => s.data16.setWidth 32
  | 0x7 => s.tempC
  | 0x8 => s.rhC.extractLsb' 0 32
  | 0x9 => s.rhC.extractLsb' 32 32
  | 0xA => s.rhNum.extractLsb' 0 32
  | 0xB => s.rhNum.extractLsb' 32 32
  | 0xC => pinsWord s
  | _ => 0#32

/-- `HostWrite(off, v)` at an offset other than CMD's (R51, R52, R53): OPA and OPB store the word, the rest ignore it. -/
def hostWrite (off : Offset) (v : Word) (s : State) : State :=
  match (off.extractLsb' 2 4).toNat with
  | 0x2 => { s with opa := v }
  | 0x3 => { s with opb := v }
  | _ => s

/-- The word an input presents to CMD: a well-formed write at offset 0x00 (R53, R76). -/
def commandWord (input : Input) : Option Word :=
  match input with
  | .access (.write width off v) =>
    if width = 32 ∧ off.extractLsb' 0 2 = 0#2 ∧ off.extractLsb' 2 4 = 0#4 then some v else none
  | .access (.read _ _) => none
  | .rst => none
  | .quiet => none

/-- Every piece of the controller's state takes its reset value (R174, R175); what host and environment have still to do
is theirs and stays. -/
def hardReset (s : State) : State :=
  { State.reset with
    draws := s.draws, drawCount := s.drawCount, host := s.host, window := s.window, rdata := s.rdata }

/-- A host access that presents no command. A model refuses one of another width (R49, Y1) or off a word boundary (R50,
Y2). A read returns a word and changes nothing else (R53). -/
def accessStep (a : HostAccess) (s : State) : Host.Outcome State Fault Refusal :=
  if a.fullWord = false then .refused .accessWidth
  else if a.aligned = false then .refused .misalignedAccess
  else
    match a with
    | .read _ off => runSeq s.window { s with rdata := hostRead off s }
    | .write _ off v => runSeq s.window (hostWrite off v s)

/-- An input that presents no command, and the sequencer steps that fall before the next input. Hardware reset "takes
effect in one step, whatever the controller was doing" (R174). -/
def otherTurn (input : Input) (s : State) : Host.Outcome State Fault Refusal :=
  match input with
  | .access a => guarded s (accessStep a)
  | .rst => .next (hardReset s)
  | .quiet => guarded s fun s => runSeq s.window s

/-- An illegal word at CMD, and the sequencer steps that fall before the next input. -/
def illegalTurn (v : Word) (s : State) : Host.Outcome State Fault Refusal :=
  guarded s fun s => runSeq s.window (presentIllegal v s)

/-- The outside world has nothing left to do: the sequencer goes on by one step, or nothing happens (R75). -/
def idleTurn (s : State) : Host.Outcome State Fault Refusal :=
  guarded s (runSeq 1)

/-- Takes the next turn from the schedule. -/
def takeTurn (t : Turn) (ts : List Turn) (s : State) : State :=
  { s with host := ts, window := t.window }

end Sys2Proof.Machine
end

