-- ==== Sys2Proof/Machine/Protocol.lean ====
section
/-! DEFINITION. The protocol engine (41_protocol_engine.md): its five routines as micro-programs, and its five commands.
Each micro-program is the rule's pseudocode, one entry per micro-operation; loops are unrolled, and CNT counts the passes
done (R40, log entry 8). -/

namespace Sys2Proof.Machine

/-- A micro-operation after which the pseudocode does nothing. -/
def plain (op : MicroOp) : MicroInstr := ⟨op, .none⟩

/-- `DRV(C, 1); SETTLE`, and what follows the settle. -/
def sckUp : List MicroInstr := [plain (.drv .sck true), plain .settle]

/-- `DRV(C, 0); SETTLE`, and what belongs to the settle's step. -/
def sckDown (p : Post) : List MicroInstr := [plain (.drv .sck false), ⟨.settle, p⟩]

/-- `PULSE` (R92); `p` belongs to its last step. -/
def pulse (p : Post) : List MicroInstr := sckUp ++ sckDown p

/-- `repeat n` (R12). -/
def repeatBlock : Nat → List MicroInstr → List MicroInstr
  | 0, _ => []
  | n + 1, block => block ++ repeatBlock n block

/-- `CONN_RESET` (R100). -/
def connReset : List MicroInstr :=
  [plain (.dir .data .out), plain (.dir .sck .out), ⟨.drv .data true, .clearCnt⟩]
    ++ repeatBlock Config.resetPulses (pulse .countUp)

/-- `SEND_CMD`, part 1: directions and transmission start (R102). -/
def sendStart : List MicroInstr :=
  [plain (.dir .data .out), plain (.dir .sck .out), plain (.drv .data true)] ++ sckUp
    ++ [plain (.drv .data false)] ++ sckDown .none ++ sckUp ++ [plain (.drv .data true)] ++ sckDown .clearCnt

/-- `SEND_CMD`, part 2: one command bit (R103). -/
def sendBit (b : Bool) : List MicroInstr := plain (.drv .data b) :: pulse .countUp

/-- `SEND_CMD`, part 2: the eight bits, most significant first (R55, R103). -/
def sendBits (c : Code) : List MicroInstr :=
  sendBit (c.getLsbD 7) ++ sendBit (c.getLsbD 6) ++ sendBit (c.getLsbD 5) ++ sendBit (c.getLsbD 4)
    ++ sendBit (c.getLsbD 3) ++ sendBit (c.getLsbD 2) ++ sendBit (c.getLsbD 1) ++ sendBit (c.getLsbD 0)

/-- `SEND_CMD`, parts 3 and 4: the two acknowledgement samples and the check (R104, R105). -/
def sendAck : List MicroInstr :=
  sckUp ++ [plain (.dir .data .inp), ⟨.sample, .ack1⟩] ++ sckDown .none ++ [⟨.sample, .ack2⟩]

/-- `SEND_CMD(c)` (R102 to R105). -/
def sendCmd (c : Code) : List MicroInstr := sendStart ++ sendBits c ++ sendAck

/-- `WAIT_READY` (R108); the loop goes on in `Post.poll`. -/
def waitReady : List MicroInstr := ⟨.dir .data .inp, .clearCnt⟩ :: pollAgain []

/-- One bit of `SHIFT_IN8` (R111); `first` belongs to the step of its first micro-operation, `last` to its last. -/
def shiftIn (first last : Post) : List MicroInstr :=
  [⟨.drv .sck true, first⟩, plain .settle, ⟨.sample, .shiftBit⟩] ++ sckDown last

/-- `SHIFT_IN8` (R111); `last` is what its caller does with the byte (R112). CNT is cleared in
the step of the first micro-operation (DESIGN CHOICE, log entry 8). -/
def shiftIn8 (last : Post) : List MicroInstr :=
  shiftIn .clearShift .countUp ++ repeatBlock 6 (shiftIn .none .countUp) ++ shiftIn .none last

/-- `GET_DATA16` (R112). -/
def getData16 : List MicroInstr :=
  [plain (.dir .data .inp), plain (.dir .sck .out)] ++ shiftIn8 .takeMsb
    ++ [plain (.dir .data .out), plain (.drv .data false)] ++ pulse .none ++ [plain (.dir .data .inp)]
    ++ shiftIn8 .takeLsb

/-- `SKIP_CRC` (R116). -/
def skipCrc : List MicroInstr :=
  [plain (.dir .data .out), plain (.dir .sck .out), plain (.drv .data true)] ++ pulse .none

/-- RESET: `CONN_RESET; finish` (R101). -/
def execReset (arg8 : Code) (s : State) : Host.Outcome State Fault Refusal :=
  command (.resetCmd arg8) none id (fun _ => connReset) s

/-- ENG_SEND: `SEND_CMD(LA[7:0]); finish` (R107). -/
def execEngSend (c : Code) (s : State) : Host.Outcome State Fault Refusal :=
  command (.engSend c) none (latchCode c) (fun s => sendCmd (wireCode s)) s

/-- ENG_WAIT: `WAIT_READY; finish` (R110). -/
def execEngWait (arg8 : Code) (s : State) : Host.Outcome State Fault Refusal :=
  command (.engWait arg8) none id (fun _ => waitReady) s

/-- ENG_GET16: `GET_DATA16; finish` (R115). -/
def execEngGet16 (arg8 : Code) (s : State) : Host.Outcome State Fault Refusal :=
  command (.engGet16 arg8) none clearD16 (fun _ => getData16) s

/-- ENG_SKIPCRC: `SKIP_CRC; finish` (R117). -/
def execEngSkipCrc (arg8 : Code) (s : State) : Host.Outcome State Fault Refusal :=
  command (.engSkipCrc arg8) none id (fun _ => skipCrc) s

end Sys2Proof.Machine
end

