-- ==== Sys2Proof/Machine/Calibration.lean ====
section
/-! DEFINITION. The calibration commands (42_calibration.md): one `CALC` each, in every lifecycle state (R130 to R132). -/

namespace Sys2Proof.Machine

/-- CAL_T: `CALC; finish` (R131). -/
def execCalT (arg8 : Code) (s : State) : Host.Outcome State Fault Refusal :=
  command (.calT arg8) none (fun s => clearT (latchA s)) (fun _ => [plain (.calc .calT)]) s

/-- CAL_RH: `CALC; finish` (R132). -/
def execCalRH (arg8 : Code) (s : State) : Host.Outcome State Fault Refusal :=
  command (.calRH arg8) none (fun s => clearRH (latchAB s)) (fun _ => [plain (.calc .calRH)]) s

end Sys2Proof.Machine
end

