-- ==== Sys2Proof/Machine/Facade.lean ====
section
/-! DEFINITION. The lifecycle and the composite reads (43_facade.md): OPEN, CLOSE, READ_T, READ_TRH and READ_RH. No read
begins with a connection reset and none retries (R147). -/

namespace Sys2Proof.Machine

/-- `OPEN`'s routine (R138): after the first grant `Post.grantData` asks for the second, whatever the first was. -/
def openRoutine : List MicroInstr :=
  [⟨.grant .data, .grantData⟩, plain (.dir .data .out), ⟨.dir .sck .out, .lifeReady⟩]

/-- `CLOSE`'s routine in READY (R140). -/
def closeRoutine : List MicroInstr := [plain (.dir .data .inp), ⟨.dir .sck .inp, .lifeClosed⟩]

/-- `MEASURE(c)` (R142). -/
def measureRoutine (c : Code) : List MicroInstr := sendCmd c ++ waitReady ++ getData16 ++ skipCrc

/-- `READ_T`'s routine (R144). -/
def readTRoutine : List MicroInstr := measureRoutine Config.cmdTemp ++ [plain (.calc .stageT)]

/-- `READ_TRH`'s routine (R145). -/
def readTRHRoutine : List MicroInstr :=
  measureRoutine Config.cmdTemp ++ [⟨.calc .stageT, .enterStageH⟩] ++ measureRoutine Config.cmdHumi ++ [plain (.calc .stageH)]

/-- OPEN (R138, R139). -/
def execOpen (arg8 : Code) (s : State) : Host.Outcome State Fault Refusal :=
  command (.openCmd arg8) none id (fun _ => openRoutine) s

/-- CLOSE (R140, R141). -/
def execClose (arg8 : Code) (s : State) : Host.Outcome State Fault Refusal :=
  command (.closeCmd arg8) none id (fun _ => closeRoutine) s

/-- READ_T (R144). -/
def execReadT (arg8 : Code) (s : State) : Host.Outcome State Fault Refusal :=
  command (.readT arg8) (some .temperature) clearTD16 (fun _ => readTRoutine) s

/-- READ_TRH (R145). -/
def execReadTRH (arg8 : Code) (s : State) : Host.Outcome State Fault Refusal :=
  command (.readTRH arg8) (some .temperature) clearAllValid (fun _ => readTRHRoutine) s

/-- READ_RH: "`READ_RH` is `READ_TRH`" (R146), under its own command word. -/
def execReadRH (arg8 : Code) (s : State) : Host.Outcome State Fault Refusal :=
  command (.readRH arg8) (some .temperature) clearAllValid (fun _ => readTRHRoutine) s

end Sys2Proof.Machine
end

