-- ==== Sys2Proof/Machine/Dispatch.lean ====
section
/-! DEFINITION. One arm per constructor of `Instr`: what presenting that command to the controller does. -/

namespace Sys2Proof.Machine

def exec (i : Instr) (s : State) : Host.Outcome State Fault Refusal :=
  match i with
  | .openCmd arg8 => Sys2Proof.Machine.execOpen arg8 s
  | .closeCmd arg8 => Sys2Proof.Machine.execClose arg8 s
  | .resetCmd arg8 => Sys2Proof.Machine.execReset arg8 s
  | .readT arg8 => Sys2Proof.Machine.execReadT arg8 s
  | .readRH arg8 => Sys2Proof.Machine.execReadRH arg8 s
  | .readTRH arg8 => Sys2Proof.Machine.execReadTRH arg8 s
  | .engSend c => Sys2Proof.Machine.execEngSend c s
  | .engWait arg8 => Sys2Proof.Machine.execEngWait arg8 s
  | .engGet16 arg8 => Sys2Proof.Machine.execEngGet16 arg8 s
  | .engSkipCrc arg8 => Sys2Proof.Machine.execEngSkipCrc arg8 s
  | .calT arg8 => Sys2Proof.Machine.execCalT arg8 s
  | .calRH arg8 => Sys2Proof.Machine.execCalRH arg8 s

end Sys2Proof.Machine
end

