-- ==== Sys2Proof/Machine/Step.lean ====
section
/-! DEFINITION. One step of the machine: the next turn of the schedule (R59, R169). The controller fetches no
instructions (R62): a command word arrives as a host write to offset 0x00 (R53, R76), and that write is where the machine
takes its next instruction from. -/

namespace Sys2Proof.Machine

/-- One step: the next input with the sequencer steps of its window, or where the outside world has nothing left to do,
one sequencer step. -/
def step (s : State) : Host.Outcome State Fault Refusal :=
  match s.host with
  | [] => idleTurn s
  | t :: ts =>
    match commandWord t.input with
    | some v =>
      match decode v with
      | .ok i => exec i (takeTurn t ts s)
      | .error _ => illegalTurn v (takeTurn t ts s)
    | none => otherTurn t.input (takeTurn t ts s)

/-- `s` with the host's next access a write of the word `w` to CMD, and a window that runs any command to its completion
(R188). Nothing else changes. -/
def State.withFetchWord (s : State) (nbits w : Nat) : State :=
  { s with
    host := ⟨.access (.write 32 0#6 (BitVec.ofNat 32 (w % 2 ^ nbits))), Config.maxMicroOps⟩ :: s.host }

end Sys2Proof.Machine
end

