-- ==== Sys2Proof/Machine/Program.lean ====
section
/-! DEFINITION. Host programs (R72 to R74): the register names of R48 and the assembler's commands and pseudo-instructions,
each as the host accesses it stands for. Nothing here is part of the controller. -/

namespace Sys2Proof.Machine

/-- The register names of R48. -/
inductive HostReg where
  | cmd | status | opa | opb | rawT | rawH | data16 | tempC | rhCLo | rhCHi | rhNumLo | rhNumHi | pins
  deriving DecidableEq, Repr

/-- The offset of a register in the window (R48). -/
def HostReg.offset : HostReg → Offset
  | .cmd => 0x00#6
  | .status => 0x04#6
  | .opa => 0x08#6
  | .opb => 0x0C#6
  | .rawT => 0x10#6
  | .rawH => 0x14#6
  | .data16 => 0x18#6
  | .tempC => 0x1C#6
  | .rhCLo => 0x20#6
  | .rhCHi => 0x24#6
  | .rhNumLo => 0x28#6
  | .rhNumHi => 0x2C#6
  | .pins => 0x30#6

/-- `HostRead(off)` as an access (R8). -/
def readAt (off : Offset) : HostAccess := .read 32 off

/-- `HostWrite(off, v)` as an access (R8). -/
def writeAt (off : Offset) (v : Word) : HostAccess := .write 32 off v

/-- The host assembler's lines (R72, R74). -/
inductive Asm where
  /-- `CMD <mnemonic> [operand]`. -/
  | cmd (i : Instr)
  /-- `CMDW <word>`. -/
  | cmdw (v : Word)
  /-- `WR <reg>, <value>`. -/
  | wr (r : HostReg) (v : Word)
  /-- `RD <reg>`. -/
  | rd (r : HostReg)
  /-- `WAITDONE`. -/
  | waitDone
  /-- `SEND_T`. -/
  | sendT
  /-- `SEND_RH`. -/
  | sendRH
  /-- `MEASURE_RAW c`. -/
  | measureRaw (c : Code)
  /-- `CALT r`. -/
  | calT (r : Word)
  /-- `CALRH r, t`, the temperature as an integer of hundredths. -/
  | calRH (r : Word) (t : Int)
  deriving DecidableEq, Repr

/-- One access with no sequencer step before the next one. -/
def atOnce (a : HostAccess) : Turn := ⟨.access a, 0⟩

/-- `CMD <mnemonic>` is `HostWrite(0x00, word)` (R72). -/
def cmdTurn (i : Instr) : Turn := atOnce (writeAt HostReg.cmd.offset (encode i))

/-- `WAITDONE`: the host reads STATUS until BUSY reads 0 (R74). The reads that see BUSY = 1 change nothing (R53), so the
turns are the time the sequencer takes to complete and the last read (log entry 16). -/
def waitDoneTurns : List Turn := [⟨.quiet, Config.maxMicroOps⟩, atOnce (readAt HostReg.status.offset)]

/-- The host accesses of a line (R72, R74). -/
def Asm.turns : Asm → List Turn
  | .cmd i => [cmdTurn i]
  | .cmdw v => [atOnce (writeAt HostReg.cmd.offset v)]
  | .wr r v => [atOnce (writeAt r.offset v)]
  | .rd r => [atOnce (readAt r.offset)]
  | .waitDone => waitDoneTurns
  | .sendT => [cmdTurn (.engSend Config.cmdTemp)]
  | .sendRH => [cmdTurn (.engSend Config.cmdHumi)]
  | .measureRaw c =>
    [cmdTurn (.engSend c)] ++ waitDoneTurns ++ [cmdTurn (.engWait 0#8)] ++ waitDoneTurns
      ++ [cmdTurn (.engGet16 0#8)] ++ waitDoneTurns ++ [cmdTurn (.engSkipCrc 0#8)] ++ waitDoneTurns
  | .calT r => [atOnce (writeAt HostReg.opa.offset r), cmdTurn (.calT 0#8)] ++ waitDoneTurns
  | .calRH r t =>
    [atOnce (writeAt HostReg.opa.offset r), atOnce (writeAt HostReg.opb.offset (BitVec.ofInt 32 t)), cmdTurn (.calRH 0#8)]
      ++ waitDoneTurns

/-- A host program as the schedule of R59. -/
def turnsOf (program : List Asm) : List Turn := (program.map Asm.turns).flatten

end Sys2Proof.Machine
end

