-- ==== Sys2Proof/Safety.lean ====
section
/-! DEFINITION. What counts as a safe run, and the words in which the statements speak of one: the invariants of R46 in a form
every step can keep, the wire traces of the routines as their rules give them (R98), the timing contract (R93), and the
ideal calibration functions over the rationals (R122). Nothing here is used by the machine. -/

namespace Sys2Proof

/-! ## What each command may write (R44; the columns of R67 and the "Writes" lines of the command rules) -/

/-- The command's opcode is one of these. -/
def Instr.opIn (i : Instr) (ops : List (BitVec 4)) : Bool := ops.contains i.opcode

/-- RAW_T, TEMP_C and T_VALID: READ_T, READ_RH, READ_TRH, CAL_T. -/
def Instr.writesT (i : Instr) : Bool := i.opIn [0x4#4, 0x5#4, 0x6#4, 0xC#4]
/-- RAW_H, RH_NUM, RH_C and RH_VALID: READ_RH, READ_TRH, CAL_RH. -/
def Instr.writesRH (i : Instr) : Bool := i.opIn [0x5#4, 0x6#4, 0xD#4]
/-- DATA16 and D16_VALID: READ_T, READ_RH, READ_TRH, ENG_GET16. -/
def Instr.writesD16 (i : Instr) : Bool := i.opIn [0x4#4, 0x5#4, 0x6#4, 0xA#4]
/-- ACK1 and ACK2: READ_T, READ_RH, READ_TRH, ENG_SEND. -/
def Instr.writesAck (i : Instr) : Bool := i.opIn [0x4#4, 0x5#4, 0x6#4, 0x8#4]
/-- POLLS: READ_T, READ_RH, READ_TRH, ENG_WAIT. -/
def Instr.writesPolls (i : Instr) : Bool := i.opIn [0x4#4, 0x5#4, 0x6#4, 0x9#4]
/-- LIFE: OPEN, CLOSE. -/
def Instr.writesLife (i : Instr) : Bool := i.opIn [0x1#4, 0x2#4]
/-- The pin directions: all but CAL_T and CAL_RH. -/
def Instr.writesDir (i : Instr) : Bool := !i.opIn [0xC#4, 0xD#4]
/-- The pin latches: RESET, ENG_SEND, ENG_GET16, ENG_SKIPCRC and the reads. -/
def Instr.writesLatch (i : Instr) : Bool := i.opIn [0x3#4, 0x4#4, 0x5#4, 0x6#4, 0x8#4, 0xA#4, 0xB#4]
/-- LA at acceptance: ENG_SEND its code, CAL_T and CAL_RH the register OPA (R41). -/
def Instr.latchedA (i : Instr) (opa la : Word) : Word :=
  if i.opIn [0x8#4] then i.arg8.setWidth 32 else if i.opIn [0xC#4, 0xD#4] then opa else la
/-- LB at acceptance: CAL_RH the register OPB (R41). -/
def Instr.latchedB (i : Instr) (opb lb : Word) : Word := if i.opIn [0xD#4] then opb else lb
/-- Where `LifecycleAllows` lets the command run (R137, the cells "runs"): OPEN in UNINIT, CAL_T and CAL_RH everywhere, every
other command in READY. -/
def Instr.runsIn (i : Instr) (life : LifeCode) : Bool :=
  if i.opIn [0x1#4] then life == Machine.lifeUninit else if i.opIn [0xC#4, 0xD#4] then true else life == Machine.lifeReady
/-- The stage CUR records at acceptance: a read begins with the temperature (R39). -/
def Instr.firstStage (i : Instr) : Option Machine.Stage := if i.opIn [0x4#4, 0x5#4, 0x6#4] then some .temperature else none

end Sys2Proof

namespace Sys2Proof.Machine

/-! ## Invariants -/

/-- The resting condition of the pins while no command runs (R46 items 2 to 4): SCK's latch is low; in READY SCK is driven;
otherwise both pins sense. -/
def parked (life : LifeCode) (ddir cdir cout : Bool) : Bool :=
  !cout && if life = lifeReady then cdir else !ddir && !cdir

/-- The next micro-operation, if there is one, is `SETTLE`. -/
def settleNext : List MicroInstr → Bool
  | [] => false
  | i :: _ => i.op == .settle

/-- What a micro-operation needs: `DRV` its pin OUT (R86), `SAMPLE` DATA IN (R89), and a `DRV` of SCK a change of its level
that a `SETTLE` follows (R93, R119). -/
def opSafe (op : MicroOp) (rest : List MicroInstr) (ddir cdir cout : Bool) : Bool :=
  match op with
  | .drv .data _ => ddir
  | .drv .sck v => cdir && (v != cout) && settleNext rest
  | .sample => !ddir
  | .dir _ _ => true
  | .settle => true
  | .pollDly => true
  | .grant _ => true
  | .calc _ => true

/-- DATA's direction after a micro-operation. -/
def ddirAfter (op : MicroOp) (ddir : Bool) : Bool :=
  match op with
  | .dir .data m => m.bit
  | .dir .sck _ => ddir
  | .drv _ _ => ddir
  | .settle => ddir
  | .pollDly => ddir
  | .sample => ddir
  | .grant _ => ddir
  | .calc _ => ddir

/-- SCK's direction after a micro-operation. -/
def cdirAfter (op : MicroOp) (cdir : Bool) : Bool :=
  match op with
  | .dir .sck m => m.bit
  | .dir .data _ => cdir
  | .drv _ _ => cdir
  | .settle => cdir
  | .pollDly => cdir
  | .sample => cdir
  | .grant _ => cdir
  | .calc _ => cdir

/-- SCK's latch after a micro-operation. -/
def coutAfter (op : MicroOp) (cout : Bool) : Bool :=
  match op with
  | .drv .sck v => v
  | .drv .data _ => cout
  | .dir _ _ => cout
  | .settle => cout
  | .pollDly => cout
  | .sample => cout
  | .grant _ => cout
  | .calc _ => cout

/-- LIFE after a step (R138, R140). -/
def lifeAfter (p : Post) (life : LifeCode) : LifeCode :=
  match p with
  | .lifeReady => lifeReady
  | .lifeClosed => lifeClosed
  | .none => life
  | .clearCnt => life
  | .countUp => life
  | .clearShift => life
  | .shiftBit => life
  | .takeMsb => life
  | .takeLsb => life
  | .ack1 => life
  | .ack2 => life
  | .poll => life
  | .grantData => life
  | .grantSck _ => life
  | .enterStageH => life

/-- The most CNT can be after a step, where it was at most `cnt` before. -/
def cntAfter (p : Post) (cnt : Nat) : Nat :=
  match p with
  | .clearCnt => 0
  | .clearShift => 0
  | .countUp => cnt + 1
  | .takeMsb => cnt + 1
  | .takeLsb => cnt + 1
  | .poll => 100
  | .lifeReady => cnt
  | .lifeClosed => cnt
  | .none => cnt
  | .shiftBit => cnt
  | .ack1 => cnt
  | .ack2 => cnt
  | .grantData => cnt
  | .grantSck _ => cnt
  | .enterStageH => cnt

/-- What a step's decision needs: where the command can be aborted, the pins are parked (R158); a poll goes on with DATA
sensed and CNT below `POLL_MAX`; LIFE moves only from UNINIT to READY and from READY to CLOSED (R18). The pins and LIFE are those
after the micro-operation. -/
def postSafe (p : Post) (life : LifeCode) (ddir cdir cout : Bool) (cnt : Nat) : Bool :=
  match p with
  | .ack2 => parked life ddir cdir cout
  | .poll => parked life ddir cdir cout && !ddir && decide (cnt < 100)
  | .grantData => parked life ddir cdir cout
  | .grantSck _ => parked life ddir cdir cout
  | .lifeReady => life == lifeUninit
  | .lifeClosed => life == lifeReady
  | .none => true
  | .clearCnt => true
  | .countUp => true
  | .clearShift => true
  | .shiftBit => true
  | .takeMsb => true
  | .takeLsb => true
  | .ack1 => true
  | .enterStageH => true

/-- From pins and LIFE as given and CNT at most `cnt`, the micro-operations `rest` reach no model fault, keep the timing
contract, and leave the pins parked wherever the command can end. -/
def safeFrom : List MicroInstr → LifeCode → Bool → Bool → Bool → Nat → Bool
  | [], life, ddir, cdir, cout, _ => parked life ddir cdir cout
  | i :: rest, life, ddir, cdir, cout, cnt =>
    opSafe i.op rest ddir cdir cout
      && postSafe i.post life (ddirAfter i.op ddir) (cdirAfter i.op cdir) (coutAfter i.op cout) cnt
      && safeFrom rest (lifeAfter i.post life) (ddirAfter i.op ddir) (cdirAfter i.op cdir) (coutAfter i.op cout)
        (cntAfter i.post cnt)

/-- The invariant. The fields `not_busy_done` to `rh_valid` are the seven items of R46 (items 2 to 4 together are `parked`);
the first three are R18, R21 and R24; the rest say what holds while a command runs. -/
structure MachineInv (s : State) : Prop where
  life_legal : s.life ≠ 3#2
  err_legal : s.err.toNat ≤ 5
  polls_le : s.polls.toNat ≤ 100
  not_busy_done : ¬(s.busy = true ∧ s.done = true)
  idle_parked : s.busy = false → parked s.life s.ddir s.cdir s.cout = true
  idle_cur : s.busy = false → s.cur = none
  t_valid : s.tValid = true → s.tempC.toInt = s.rawT.toNat - 4010
  rh_valid : s.rhValid = true → s.rhC.toInt = (s.rhNum.toInt + 5 * 10 ^ 7).fdiv (10 ^ 8)
  busy_cur : s.busy = true → s.cur.isSome = true
  busy_err : s.busy = true → s.err = errNone
  busy_rest : s.busy = true → s.rest ≠ []
  busy_safe : s.busy = true → safeFrom s.rest s.life s.ddir s.cdir s.cout s.cnt.toNat = true

/-! ## The timing contract -/

/-- In a wire trace, oldest event first, where SCK's latch was `cout` before it: every `DRV` of SCK changes its level (R119),
and the event after it, if there is one yet, is a settle delay (R93). -/
def timingKept : Bool → List WireEvent → Bool
  | _, [] => true
  | cout, .drv .sck v :: es =>
    (v != cout) && (match es with
      | [] => true
      | .settle :: _ => true
      | _ :: _ => false) && timingKept v es
  | cout, _ :: es => timingKept cout es

/-! ## Wire traces (R98) -/

/-- `PULSE` on the wire (R92). -/
def wirePulse : List WireEvent := [.drv .sck true, .settle, .drv .sck false, .settle]

/-- CONN_RESET on the wire (R100): DATA high, ten pulses. -/
def wireReset : List WireEvent :=
  ([.dir .data .out, .dir .sck .out, .drv .data true] : List WireEvent) ++ (List.replicate 10 wirePulse).flatten

/-- SEND_CMD(c) on the wire with the acknowledgement samples a1 and a2 (R102, R103, R104). -/
def wireSend (c : Code) (a1 a2 : Bool) : List WireEvent :=
  ([.dir .data .out, .dir .sck .out, .drv .data true, .drv .sck true, .settle, .drv .data false, .drv .sck false, .settle,
    .drv .sck true, .settle, .drv .data true, .drv .sck false, .settle] : List WireEvent)
    ++ (([7, 6, 5, 4, 3, 2, 1, 0] : List Nat).map fun i => WireEvent.drv .data (c.getLsbD i) :: wirePulse).flatten
    ++ ([.drv .sck true, .settle, .dir .data .inp, .sample a1, .drv .sck false, .settle, .sample a2] : List WireEvent)

/-- WAIT_READY on the wire with its samples (R108). -/
def wireWait (samples : List Bool) : List WireEvent :=
  .dir .data .inp :: (samples.map fun b => [.pollDly, .sample b]).flatten

/-- SHIFT_IN8 on the wire with its samples (R111). -/
def wireShift (samples : List Bool) : List WireEvent :=
  (samples.map fun b => [.drv .sck true, .settle, .sample b, .drv .sck false, .settle]).flatten

/-- GET_DATA16 on the wire with the samples of its two bytes (R112). -/
def wireGet (msb lsb : List Bool) : List WireEvent :=
  ([.dir .data .inp, .dir .sck .out] : List WireEvent) ++ wireShift msb
    ++ ([.dir .data .out, .drv .data false] : List WireEvent) ++ wirePulse ++ ([.dir .data .inp] : List WireEvent) ++ wireShift lsb

/-- SKIP_CRC on the wire (R116). -/
def wireSkip : List WireEvent :=
  ([.dir .data .out, .dir .sck .out, .drv .data true] : List WireEvent) ++ wirePulse

/-- What DATA is driven to at each SCK rising edge of a trace, where DATA's latch was `dout` before it (R98, R106). -/
def dataAtEdges : Bool → List WireEvent → List Bool
  | _, [] => []
  | _, .drv .data v :: es => dataAtEdges v es
  | dout, .drv .sck true :: es => dout :: dataAtEdges dout es
  | dout, .drv .sck false :: es => dataAtEdges dout es
  | dout, .dir _ _ :: es => dataAtEdges dout es
  | dout, .settle :: es => dataAtEdges dout es
  | dout, .pollDly :: es => dataAtEdges dout es
  | dout, .sample _ :: es => dataAtEdges dout es
  | dout, .grant _ _ :: es => dataAtEdges dout es

/-! ## Draws -/

/-- The answers to the draws from number n on, `len` of them. -/
def State.drawList (s : State) (n len : Nat) : List Bool := (List.range len).map fun j => s.drawAt (n + j)

/-- The word that sixteen samples give, `W = sum over j = 1..16 of s_j * 2^(16-j)` (R113), the first being draw number n. -/
def State.drawnWord (s : State) (n : Nat) : Raw :=
  BitVec.ofNat 16 ((Finset.range 16).sum fun j => (s.drawAt (n + j)).toNat * 2 ^ (15 - j))

/-- From draw number n on, the k-th sample is the first low one, and k is at most 100 (R109). -/
def State.readyAfter (s : State) (n k : Nat) : Prop :=
  1 ≤ k ∧ k ≤ 100 ∧ (∀ j, j < k - 1 → s.drawAt (n + j) = true) ∧ s.drawAt (n + (k - 1)) = false

/-- From draw number n on, a hundred samples are high (R109). -/
def State.neverReady (s : State) (n : Nat) : Prop := ∀ j, j < 100 → s.drawAt (n + j) = true

/-- The handshake whose samples are draws n and n + 1 passes (R105). -/
def State.acked (s : State) (n : Nat) : Prop := s.drawAt n = false ∧ s.drawAt (n + 1) = true

/-! ## Results -/

/-- LIFE is not 3 and ERR is no reserved code (R18, R21): no step stops on a code. -/
def State.legalCodes (s : State) : Prop := s.life ≠ 3#2 ∧ s.err.toNat ≤ 5

/-- Nothing is wrong with the codes, no command runs, and the sequencer may take `n` steps before the host's next access. -/
def State.idleFor (s : State) (n : Nat) : Prop :=
  s.life ≠ 3#2 ∧ s.err.toNat ≤ 5 ∧ s.busy = false ∧ n ≤ s.window

/-- `s` after the command i was accepted, ran and completed with the code e, but for what its routine wrote (R78, R81,
R83). -/
def State.ran (s : State) (i : Instr) (e : ErrCode) : State :=
  { s with
    cmdLast := encode i, reject := false, cur := none, busy := false, rest := [], err := e, done := true }

/-- `s` after the word v was accepted and completed in its acceptance step with the code e (R78): "no other state
changes". -/
def State.completedAtOnce (s : State) (v : Word) (e : ErrCode) : State :=
  { s with cmdLast := v, reject := false, err := e, done := true }

/-- The state without what the spec leaves unspecified while the controller is idle: UPC and the working registers (R17, R40;
93_implementation_defined.md V1, V2: "a model may choose any value; no rule reads it"). Two states with the same `specified`
part agree on everything else. -/
def State.specified (s : State) : State :=
  { s with upc := 0#10, sh := 0#16, w := 0#16, cnt := 0#7, tmr := 0, a1 := false, a2 := false }

/-- The pin state `(DDIR, DOUT, CDIR, COUT)` written as R118 writes it. -/
def State.withPins (s : State) (ddir dout cdir cout : Bool) : State :=
  { s with ddir := ddir, dout := dout, cdir := cdir, cout := cout }

/-- What an observer of the command has seen: it took `n` draws (R170), its wire trace is `events` (R98) and it cost `clk`
cycles (R99). -/
def State.saw (s : State) (n : Nat) (events : List WireEvent) (clk : Nat) : State :=
  { s with draws := s.draws.drop n, drawCount := s.drawCount + n, trace := events.reverse, cycles := clk }

/-- MEASURE(c) on the wire (R142), its draws beginning with number n and its poll taking k samples. -/
def State.wireMeasure (s : State) (c : Code) (n k : Nat) : List WireEvent :=
  wireSend c (s.drawAt n) (s.drawAt (n + 1)) ++ wireWait (s.drawList (n + 2) k)
    ++ wireGet (s.drawList (n + 2 + k) 8) (s.drawList (n + 10 + k) 8) ++ wireSkip

/-- The clk cycles of MEASURE with k polls (R191). -/
def cyclesMeasure (k : Nat) : Nat := 99 + 58 * Config.settleCycles + k * (Config.pollCycles + 1)

/-- The cycles counted last `ps` picoseconds at least, at `P_CLK_HZ` (R190, R191). -/
def State.lastedAtLeast (s : State) (ps : Nat) : Prop := ps * Config.clkHz ≤ s.cycles * 10 ^ 12

/-- `T_POLL`, 10 ms, in picoseconds (R6). -/
def pollMinPs : Nat := 10 ^ 10

/-- A change of the next state; a fault or a refusal stays. -/
def mapNext (f : State → State) (o : Host.Outcome State Fault Refusal) : Host.Outcome State Fault Refusal :=
  match o with
  | .next s => .next (f s)
  | .fault x => .fault x
  | .refused x => .refused x

/-- The state without the word of the last command: CMD_LAST, and CUR which names the command (R27, R39). -/
def State.forgetWord (s : State) : State := { s with cmdLast := 0#32, cur := none }

/-- The state with other values of what a host access can write while a command runs (R28, R29, R77). -/
def State.withHostData (s : State) (x y : Word) (r : Bool) : State := { s with opa := x, opb := y, reject := r }

/-! ## The ideal calibration functions (R122) -/

/-- `temperatureFromRaw`, in °C. -/
def idealTemperature (r : ℚ) : ℚ := r * 0.01 + (-40.1)

/-- `linearHumidity`, in %RH. -/
def idealLinearHumidity (r : ℚ) : ℚ := -2.0468 + 0.0367 * r + (-1.5955 * 10 ^ (-6 : ℤ)) * r ^ 2

/-- `humidityFromRaw`, in %RH. -/
def idealHumidity (r t : ℚ) : ℚ := (t - 25.0) * (0.01 + 0.00008 * r) + idealLinearHumidity r

end Sys2Proof.Machine
end

