-- ==== Sys2Proof/Certificates/Slice0/Obligations.lean ====
section
/-! DEFINITION. The statements for the provers. Each docstring names the rules of spec/ it comes from. A statement about a
command's run gives the whole state it leaves, by `State.ran`, `State.withPins` and `State.saw` of Safety.lean, up to
`State.specified`: the values that the spec leaves unspecified while the controller is idle are left open. So it is the
command's result and its frame at once: OPA, OPB, the host's side, and every register and flag that the equation does not name
keep their values. Every statement holds for every sequence of draws its hypotheses allow, and none rests on a value of
`Config.draw`. -/

section

open Sys2Proof Sys2Proof.Machine

/-! ## The command word -/

/-- R73: the words of the mnemonics, written out. -/
def Obligations.WrittenWordsDecode : Prop :=
  decode 0x00000001#32 = .ok (.openCmd 0x00#8) ∧ decode 0x00000002#32 = .ok (.closeCmd 0x00#8)
    ∧ decode 0x00000003#32 = .ok (.resetCmd 0x00#8) ∧ decode 0x00000004#32 = .ok (.readT 0x00#8)
    ∧ decode 0x00000005#32 = .ok (.readRH 0x00#8) ∧ decode 0x00000006#32 = .ok (.readTRH 0x00#8)
    ∧ decode 0x00000308#32 = .ok (.engSend 0x03#8) ∧ decode 0x00000508#32 = .ok (.engSend 0x05#8)
    ∧ decode 0x00000009#32 = .ok (.engWait 0x00#8) ∧ decode 0x0000000A#32 = .ok (.engGet16 0x00#8)
    ∧ decode 0x0000000B#32 = .ok (.engSkipCrc 0x00#8) ∧ decode 0x0000000C#32 = .ok (.calT 0x00#8)
    ∧ decode 0x0000000D#32 = .ok (.calRH 0x00#8)

/-- R65, R68, R70: no bit of a command word is dropped, and each legal word is one command's. -/
def Obligations.DecodeAndEncodeAgree : Prop :=
  (∀ i : Instr, i.wellFormed = true → decode (encode i) = .ok i) ∧ ∀ (v : Word) (i : Instr), decode v = .ok i → encode i = v

/-- R68: which words are legal, their form, their match and mask, and the 256 words of an opcode. -/
def Obligations.LegalWordsAreExactlyThose : Prop :=
  (∀ v : Word, (∃ i, decode v = .ok i) ↔
      v.extractLsb' 16 16 = 0#16 ∧ v.extractLsb' 4 4 = 0#4
        ∧ v.extractLsb' 0 4 ∈ [1#4, 2#4, 3#4, 4#4, 5#4, 6#4, 8#4, 9#4, 10#4, 11#4, 12#4, 13#4])
    ∧ (∀ i : Instr, encode i = 0#16 ++ i.arg8 ++ 0#4 ++ i.opcode)
    ∧ (∀ (i : Instr) (v : Word), v &&& 0xFFFF00FF#32 = i.opcode.setWidth 32 ↔ ∃ j, decode v = .ok j ∧ j.opcode = i.opcode)
    ∧ (∀ (i : Instr) (a : Code), ∃ j, j.opcode = i.opcode ∧ j.arg8 = a ∧ ∀ k : Instr, k.opcode = i.opcode → k.arg8 = a → k = j)
    ∧ ∀ c : Code, encode (.engSend c) = 0x00000008#32 ||| c.setWidth 32 <<< 8

/-- R53, R70, R76: a write to CMD of a word that decodes is the presentation of its command, and `step` adds to it only what
log entry 1 says: the turn is taken off the schedule, and its window is the number of sequencer steps that may follow. -/
def Obligations.StepRunsTheDecodedCommand : Prop :=
  ∀ (s : State) (v : Word) (n : Nat) (ts : List Turn) (i : Instr),
    s.host = ⟨.access (writeAt 0x00#6 v), n⟩ :: ts → decode v = .ok i → step s = exec i { s with host := ts, window := n }

/-- R70: `withFetchWord` makes the very next step run the word it is given. -/
def Obligations.FetchWordRunsNext : Prop :=
  ∀ (s : State) (nbits w : Nat) (i : Instr),
    decodeTableWord nbits w = some i → step (s.withFetchWord nbits w) = exec i { s with window := Config.maxMicroOps }

/-! ## The host register window -/

/-- R48, R53, R54: what a read of each offset returns. -/
def Obligations.ReadsReturnTheMappedRegisters : Prop :=
  ∀ s : State,
    hostRead 0x00#6 s = s.cmdLast ∧ hostRead 0x04#6 s = statusWord s ∧ hostRead 0x08#6 s = s.opa ∧ hostRead 0x0C#6 s = s.opb
      ∧ hostRead 0x10#6 s = s.rawT.setWidth 32 ∧ hostRead 0x14#6 s = s.rawH.setWidth 32
      ∧ hostRead 0x18#6 s = s.data16.setWidth 32 ∧ hostRead 0x1C#6 s = s.tempC
      ∧ hostRead 0x24#6 s ++ hostRead 0x20#6 s = s.rhC ∧ hostRead 0x2C#6 s ++ hostRead 0x28#6 s = s.rhNum
      ∧ hostRead 0x30#6 s = pinsWord s
      ∧ hostRead 0x34#6 s = 0#32 ∧ hostRead 0x38#6 s = 0#32 ∧ hostRead 0x3C#6 s = 0#32

/-- R26: the layout of STATUS; it is read-only, reading it changes nothing but the word read (log entry 4), and it is 0 at
reset. -/
def Obligations.StatusLayout : Prop :=
  (∀ s : State,
    (statusWord s).getLsbD 0 = s.busy ∧ (statusWord s).getLsbD 1 = s.done ∧ (statusWord s).extractLsb' 2 2 = s.life
      ∧ (statusWord s).extractLsb' 4 4 = 0#4 ∧ (statusWord s).extractLsb' 8 4 = s.err
      ∧ (statusWord s).getLsbD 12 = s.ack1 ∧ (statusWord s).getLsbD 13 = s.ack2 ∧ (statusWord s).getLsbD 14 = s.tValid
      ∧ (statusWord s).getLsbD 15 = s.rhValid ∧ (statusWord s).getLsbD 16 = s.d16Valid
      ∧ (statusWord s).getLsbD 17 = s.reject ∧ (statusWord s).extractLsb' 18 7 = s.polls
      ∧ (statusWord s).extractLsb' 25 7 = 0#7)
    ∧ statusWord State.reset = 0x00000000#32
    ∧ (∀ (s : State) (ts : List Turn), s.legalCodes → s.host = ⟨.access (readAt 0x04#6), 0⟩ :: ts →
        step s = .next { s with host := ts, window := 0, rdata := statusWord s })
    ∧ ∀ (s : State) (v : Word) (ts : List Turn), s.legalCodes → s.host = ⟨.access (writeAt 0x04#6 v), 0⟩ :: ts →
        step s = .next { s with host := ts, window := 0 }

/-- R37, R38: the pin state as PINS, read-only, gives it to the host and as the ports give it to the board. -/
def Obligations.PinsShowThePinState : Prop :=
  (∀ s : State,
    (hostRead 0x30#6 s).getLsbD 0 = s.ddir ∧ (hostRead 0x30#6 s).getLsbD 1 = s.dout ∧ (hostRead 0x30#6 s).getLsbD 2 = s.cdir
      ∧ (hostRead 0x30#6 s).getLsbD 3 = s.cout ∧ (hostRead 0x30#6 s).extractLsb' 4 28 = 0#28
      ∧ portDataOe s = s.ddir ∧ portDataO s = s.dout ∧ portSckOe s = s.cdir ∧ portSckO s = s.cout)
    ∧ hostRead 0x30#6 State.reset = 0x00000002#32
    ∧ ∀ (s : State) (v : Word) (ts : List Turn), s.legalCodes → s.host = ⟨.access (writeAt 0x30#6 v), 0⟩ :: ts →
        step s = .next { s with host := ts, window := 0 }

/-- R28, R29, R51, R52, R53: with no sequencer step after it, a write to OPA or OPB stores the word whether or not a command
runs, and a write anywhere else but at CMD changes nothing. -/
def Obligations.WritesStoreOnlyOperands : Prop :=
  ∀ (s : State) (v : Word) (ts : List Turn), s.legalCodes →
    (s.host = ⟨.access (writeAt 0x08#6 v), 0⟩ :: ts → step s = .next { s with host := ts, window := 0, opa := v })
      ∧ (s.host = ⟨.access (writeAt 0x0C#6 v), 0⟩ :: ts → step s = .next { s with host := ts, window := 0, opb := v })
      ∧ ∀ off : Offset,
          off ∈ [0x04#6, 0x10#6, 0x14#6, 0x18#6, 0x1C#6, 0x20#6, 0x24#6, 0x28#6, 0x2C#6, 0x30#6, 0x34#6, 0x38#6, 0x3C#6] →
          s.host = ⟨.access (writeAt off v), 0⟩ :: ts → step s = .next { s with host := ts, window := 0 }

/-- R49, R50: the accesses a model refuses, reads and writes alike, at every offset, CMD's among them. Which of the two
refusals an access gets that is of a wrong width and misaligned at once (`accessWidth`) is the model's choice: the rules name no
order (log entry 15). -/
def Obligations.MalformedAccessesAreRefused : Prop :=
  ∀ (s : State) (a : HostAccess) (n : Nat) (ts : List Turn), s.legalCodes → s.host = ⟨.access a, n⟩ :: ts →
    (a.fullWord = false → step s = .refused .accessWidth)
      ∧ (a.fullWord = true → a.off.extractLsb' 0 2 ≠ 0#2 → step s = .refused .misalignedAccess)

/-- R53, R57, R60: a read changes nothing but the word read, and a command that runs goes on as if the host had done nothing. -/
def Obligations.ReadsHaveNoSideEffect : Prop :=
  ∀ (s : State) (off : Offset) (n : Nat) (ts : List Turn), off.extractLsb' 0 2 = 0#2 →
    step { s with host := ⟨.access (readAt off), n⟩ :: ts }
      = mapNext (fun t => { t with rdata := hostRead off s }) (step { s with host := ⟨.quiet, n⟩ :: ts })

/-! ## Acceptance -/

/-- R77: a CMD write while BUSY = 1, legal or illegal, sets REJECT and changes nothing else in its step. -/
def Obligations.BusyWriteIsRejected : Prop :=
  (∀ (i : Instr) (s : State), s.legalCodes → s.busy = true → s.window = 0 → exec i s = .next { s with reject := true })
    ∧ ∀ (s : State) (v : Word) (ts : List Turn), s.legalCodes → s.busy = true →
        s.host = ⟨.access (writeAt 0x00#6 v), 0⟩ :: ts →
        step s = .next { s with host := ts, window := 0, reject := true }

/-- R77, R96, R155: a rejected command leaves the running one alone, however many steps follow. -/
def Obligations.RejectedCommandDisturbsNothing : Prop :=
  ∀ (i : Instr) (s : State), s.busy = true →
    exec i s = mapNext (fun t => { t with reject := true }) (step { s with host := ⟨.quiet, s.window⟩ :: s.host })

/-- R79: an accepted illegal word. -/
def Obligations.IllegalWordCompletesAtOnce : Prop :=
  ∀ (s : State) (v : Word) (x : Illegal) (n : Nat) (ts : List Turn), s.idleFor 0 → decode v = .error x →
    s.host = ⟨.access (writeAt 0x00#6 v), n⟩ :: ts →
    step s = .next ({ s with host := ts, window := n }.completedAtOnce v errIllegalOp)

/-- R80, R137: what completes in its acceptance step, and what that step changes. -/
def Obligations.LifecycleViolationCompletesAtOnce : Prop :=
  ∀ (i : Instr) (s : State), s.idleFor 0 →
    (i.opcode = 0x1#4 → s.life ≠ lifeUninit → exec i s = .next (s.completedAtOnce (encode i) errLifecycle))
      ∧ (i.opcode = 0x2#4 → s.life = lifeUninit → exec i s = .next (s.completedAtOnce (encode i) errLifecycle))
      ∧ (i.opcode = 0x2#4 → s.life = lifeClosed → exec i s = .next (s.completedAtOnce (encode i) errNone))
      ∧ (i.opcode ∈ [0x3#4, 0x4#4, 0x5#4, 0x6#4, 0x8#4, 0x9#4, 0xA#4, 0xB#4] → s.life ≠ lifeReady →
          exec i s = .next (s.completedAtOnce (encode i) errLifecycle))

/-- R78, R81, R137: a command that its lifecycle lets run starts in its acceptance step: the operands are latched, the flags
of R67's column are cleared, and no micro-operation has run. -/
def Obligations.CommandStartsInItsAcceptanceStep : Prop :=
  ∀ (i : Instr) (s : State), s.idleFor 0 → s.window = 0 → i.runsIn s.life = true →
    ∃ t, exec i s = .next t ∧ t.rest ≠ [] ∧
      t = { s with
        cmdLast := encode i, done := false, err := errNone, reject := false, busy := true, upc := 0#10
        cur := some ⟨i, i.firstStage⟩, la := i.latchedA s.opa s.la, lb := i.latchedB s.opb s.lb
        tValid := s.tValid && !i.writesT, rhValid := s.rhValid && !i.writesRH, d16Valid := s.d16Valid && !i.writesD16
        rest := t.rest, trace := [], cycles := 0 }

/-! ## Lifecycle -/

/-- R138: OPEN with both grants. -/
def Obligations.OpenWithBothGrants : Prop :=
  ∀ (a : Code) (s : State), s.idleFor 4 → s.life = lifeUninit → s.drawAt 0 = true → s.drawAt 1 = true →
    ∃ t, exec (.openCmd a) s = .next t ∧
      t.specified = ({ s.ran (.openCmd a) errNone with life := lifeReady, ddir := true, cdir := true }.saw 2
        [.grant .data true, .grant .sck true, .dir .data .out, .dir .sck .out] 4).specified

/-- R138, R139, R150: OPEN with a grant refused asks for both, moves no pin and leaves LIFE as it is. -/
def Obligations.OpenWithAGrantRefused : Prop :=
  ∀ (a : Code) (s : State), s.idleFor 2 → s.life = lifeUninit → ¬(s.drawAt 0 = true ∧ s.drawAt 1 = true) →
    ∃ t, exec (.openCmd a) s = .next t ∧
      t.specified = ((s.ran (.openCmd a) errPinAcq).saw 2 [.grant .data (s.drawAt 0), .grant .sck (s.drawAt 1)] 2).specified

/-- R140: CLOSE in READY releases both pins and keeps the latches, the results and their flags. -/
def Obligations.CloseReleasesThePins : Prop :=
  ∀ (a : Code) (s : State), s.idleFor 2 → s.life = lifeReady →
    ∃ t, exec (.closeCmd a) s = .next t ∧
      t.specified = ({ s.ran (.closeCmd a) errNone with life := lifeClosed, ddir := false, cdir := false }.saw 0
        [.dir .data .inp, .dir .sck .inp] 2).specified

/-- R141: CLOSE in CLOSED changes nothing but the record of the command; so the second of two CLOSEs changes CMD_LAST at most,
and CLOSE in UNINIT is LIFECYCLE. -/
def Obligations.CloseIsIdempotent : Prop :=
  (∀ (a : Code) (s : State), s.idleFor 0 → s.life = lifeClosed →
    exec (.closeCmd a) s = .next (s.completedAtOnce (encode (.closeCmd a)) errNone))
    ∧ (∀ (a b : Code) (s : State), s.idleFor 2 → s.life = lifeReady →
        ∃ t, exec (.closeCmd a) s = .next t ∧ exec (.closeCmd b) t = .next { t with cmdLast := encode (.closeCmd b) })
    ∧ ∀ (a : Code) (s : State), s.idleFor 0 → s.life = lifeUninit →
        exec (.closeCmd a) s = .next (s.completedAtOnce (encode (.closeCmd a)) errLifecycle)

/-- R18, R165, R181: LIFE never goes back but by hardware reset, and CLOSED is terminal. -/
def Obligations.LifecycleNeverGoesBack : Prop :=
  ∀ s t : State, MachineInv s → step s = .next t → (∀ n ts, s.host ≠ ⟨.rst, n⟩ :: ts) →
    s.life.toNat ≤ t.life.toNat ∧ t.life ≠ 3#2 ∧ (s.life = lifeClosed → t.life = lifeClosed)

/-! ## The protocol engine -/

/-- R100, R101: RESET. -/
def Obligations.ResetPulsesTheClockTenTimes : Prop :=
  ∀ (a : Code) (s : State), s.idleFor 43 → s.life = lifeReady →
    ∃ t, exec (.resetCmd a) s = .next t ∧
      t.specified = (((s.ran (.resetCmd a) errNone).withPins true true true false).saw 0 wireReset
        (23 + 20 * Config.settleCycles)).specified

/-- R102 to R107: ENG_SEND of every code; the handshake decides the error code and nothing else. -/
def Obligations.EngSendSendsItsCode : Prop :=
  ∀ (c : Code) (s : State), s.idleFor 60 → s.life = lifeReady →
    ∃ t, exec (.engSend c) s = .next t ∧
      t.specified = (({ s.ran (.engSend c) (if s.drawAt 0 = false ∧ s.drawAt 1 = true then errNone else errHandshake) with
          la := c.setWidth 32, ack1 := s.drawAt 0, ack2 := s.drawAt 1 }.withPins false (c.getLsbD 0) true false).saw 2
        (wireSend c (s.drawAt 0) (s.drawAt 1)) (38 + 22 * Config.settleCycles)).specified

/-- R55, R106: at the eleven SCK rising edges of ENG_SEND, DATA is driven to 1, 0, the code's bits from bit 7 down, and bit 0. -/
def Obligations.CodeGoesOutMostSignificantBitFirst : Prop :=
  ∀ (c : Code) (s : State), s.idleFor 60 → s.life = lifeReady →
    ∃ t, exec (.engSend c) s = .next t ∧
      dataAtEdges s.dout t.wireTrace
        = [true, false, c.getLsbD 7, c.getLsbD 6, c.getLsbD 5, c.getLsbD 4, c.getLsbD 3, c.getLsbD 2, c.getLsbD 1, c.getLsbD 0,
            c.getLsbD 0]

/-- R108 to R110: ENG_WAIT whose k-th sample is its first low one. -/
def Obligations.EngWaitReturnsAtTheFirstLowSample : Prop :=
  ∀ (a : Code) (s : State) (k : Nat), s.idleFor (1 + 2 * k) → s.life = lifeReady → s.readyAfter 0 k →
    ∃ t, exec (.engWait a) s = .next t ∧
      t.specified = ({ s.ran (.engWait a) errNone with ddir := false, polls := BitVec.ofNat 7 k }.saw k
        (wireWait (s.drawList 0 k)) (1 + k * (Config.pollCycles + 1))).specified

/-- R108 to R110, R152: ENG_WAIT with a hundred high samples. -/
def Obligations.EngWaitTimesOutAfterAHundredSamples : Prop :=
  ∀ (a : Code) (s : State), s.idleFor 201 → s.life = lifeReady → s.neverReady 0 →
    ∃ t, exec (.engWait a) s = .next t ∧
      t.specified = ({ s.ran (.engWait a) errReadyTimeout with ddir := false, polls := 100#7 }.saw 100
        (wireWait (s.drawList 0 100)) (1 + 100 * (Config.pollCycles + 1))).specified

/-- R111 to R115: ENG_GET16. -/
def Obligations.EngGet16CommitsItsWord : Prop :=
  ∀ (a : Code) (s : State), s.idleFor 89 → s.life = lifeReady →
    ∃ t, exec (.engGet16 a) s = .next t ∧
      t.specified = (({ s.ran (.engGet16 a) errNone with
          data16 := s.drawnWord 0, d16Valid := true }.withPins false false true false).saw 16
        (wireGet (s.drawList 0 8) (s.drawList 8 8)) (55 + 34 * Config.settleCycles)).specified

/-- R113: the shift-in law and the round trip, for the word ENG_GET16 commits. -/
def Obligations.ShiftInLaw : Prop :=
  ∀ (a : Code) (s : State), s.idleFor 89 → s.life = lifeReady →
    ∃ t, exec (.engGet16 a) s = .next t
      ∧ t.data16.toNat = (Finset.range 16).sum (fun j => (s.drawAt j).toNat * 2 ^ (15 - j))
      ∧ (∀ j, j < 16 → t.data16.getLsbD (15 - j) = s.drawAt j)
      ∧ ∀ v : Raw, (∀ j, j < 16 → s.drawAt j = v.getLsbD (15 - j)) → t.data16 = v

/-- R116, R117: ENG_SKIPCRC. -/
def Obligations.EngSkipCrcPulsesOnce : Prop :=
  ∀ (a : Code) (s : State), s.idleFor 7 → s.life = lifeReady →
    ∃ t, exec (.engSkipCrc a) s = .next t ∧
      t.specified = (((s.ran (.engSkipCrc a) errNone).withPins true true true false).saw 0 wireSkip
        (5 + 2 * Config.settleCycles)).specified

/-- R118, R191, with R17 and R82: how many micro-operations a command takes, counted by UPC while it runs. -/
def Obligations.MicroOperationCounts : Prop :=
  ∀ (i : Instr) (n : Nat) (s : State),
    (i.opcode, n) ∈ [(0x2#4, 2), (0x3#4, 43), (0x8#4, 60), (0xA#4, 89), (0xB#4, 7), (0xC#4, 1), (0xD#4, 1)] →
    s.idleFor 0 → i.runsIn s.life = true →
    (∀ m, m < n → ∃ t, exec i { s with window := m } = .next t ∧ t.busy = true ∧ t.done = false ∧ t.upc = BitVec.ofNat 10 m)
      ∧ ∃ t, exec i { s with window := n } = .next t ∧ t.busy = false ∧ t.done = true

/-! ## Calibration -/

/-- R131: CAL_T, in every lifecycle state. -/
def Obligations.CalTCommitsTheTemperature : Prop :=
  ∀ (a : Code) (s : State), s.idleFor 1 →
    ∃ t, exec (.calT a) s = .next t ∧
      t.specified = ({ s.ran (.calT a) errNone with
          la := s.opa, rawT := s.opa.extractLsb' 0 16
          tempC := BitVec.ofInt 32 (((s.opa.extractLsb' 0 16).toNat : Int) - 4010), tValid := true }.saw 0 []
        Config.calCycles).specified

/-- R132: CAL_RH, in every lifecycle state. -/
def Obligations.CalRHCommitsTheHumidity : Prop :=
  ∀ (a : Code) (s : State), s.idleFor 1 →
    ∃ t, exec (.calRH a) s = .next t ∧
      t.specified = ({ s.ran (.calRH a) errNone with
          la := s.opa, lb := s.opb, rawH := s.opa.extractLsb' 0 16
          rhNum := BitVec.ofInt 64 (humNum (s.opa.extractLsb' 0 16) s.opb.toInt)
          rhC := BitVec.ofInt 64 (roundHum (humNum (s.opa.extractLsb' 0 16) s.opb.toInt)), rhValid := true }.saw 0 []
        Config.calCycles).specified

/-- R124: the temperature datapath is exact and never wraps. -/
def Obligations.TemperatureIsExact : Prop :=
  ∀ r : Raw,
    (calTemp r).toInt = (r.toNat : Int) - 4010 ∧ -4010 ≤ (calTemp r).toInt ∧ (calTemp r).toInt ≤ 61525
      ∧ calTemp r = BitVec.ofInt 32 ((r.toNat : Int) - 4010)
      ∧ ((calTemp r).toInt : ℚ) = 100 * idealTemperature r.toNat

/-- R125, R126: the humidity numerator is the ideal function at 10^-10 %RH, exactly. -/
def Obligations.HumidityNumeratorIsExact : Prop :=
  ∀ (r : Raw) (t : Int),
    humNum r t = -20468000000 + 367000000 * (r.toNat : Int) - 15955 * (r.toNat : Int) ^ 2
        + 1000 * (t - 2500) * (1000 + 8 * (r.toNat : Int))
      ∧ (humNum r t : ℚ) = 10 ^ 10 * idealHumidity r.toNat ((t : ℚ) / 100)

/-- R127: rounding to the nearest hundredth, ties upward. -/
def Obligations.HumidityRoundsToNearest : Prop :=
  (∀ n : Int,
    roundHum n * 100000000 ≤ n + 50000000 ∧ n + 50000000 < (roundHum n + 1) * 100000000
      ∧ |(roundHum n : ℚ) - (n : ℚ) / 10 ^ 8| ≤ 1 / 2
      ∧ (n % 100000000 = 50000000 → (roundHum n : ℚ) = (n : ℚ) / 10 ^ 8 + 1 / 2))
    ∧ roundHum (-26950000000) = -269 ∧ roundHum 35750000000 = 358 ∧ roundHum (-20468000000) = -205

/-- R134: RoundHum is monotone, and what a unit step of an operand can do to the results is bounded. -/
def Obligations.CalibrationHasNoBranchDiscontinuity : Prop :=
  (∀ n m : Int, n ≤ m → roundHum n ≤ roundHum m)
    ∧ (∀ n m : Int, |roundHum m - roundHum n| ≤ |m - n|.fdiv 100000000 + 1)
    ∧ (∀ (r q : Raw) (t : Int), q.toNat = r.toNat + 1 →
        |humNum q t - humNum r t| = |367000000 - 15955 * (2 * (r.toNat : Int) + 1) + 8000 * (t - 2500)|)
    ∧ ∀ (r : Raw) (t : Int),
        |humNum r (t + 1) - humNum r t| = 1000 * (1000 + 8 * (r.toNat : Int)) ∧ |humNum r (t + 1) - humNum r t| ≤ 525280000

/-- R128, R185: every numerator and every rounded humidity fits its 64-bit register, and on the engine path the humidity fits
its low word. -/
def Obligations.HumidityFitsItsRegisters : Prop :=
  (∀ (r : Raw) (t : Word),
    -1128076017056409875 ≤ humNum r t.toInt ∧ humNum r t.toInt ≤ 1127984403661190125
      ∧ -11280760171 ≤ roundHum (humNum r t.toInt) ∧ roundHum (humNum r t.toInt) ≤ 11279844037
      ∧ (BitVec.ofInt 64 (humNum r t.toInt)).toInt = humNum r t.toInt
      ∧ (BitVec.ofInt 64 (roundHum (humNum r t.toInt))).toInt = roundHum (humNum r t.toInt))
    ∧ ∀ r q : Raw,
        -47912807769875 ≤ humNum r (calTemp q).toInt ∧ humNum r (calTemp q).toInt ≤ 11073603067045
          ∧ -479128 ≤ roundHum (humNum r (calTemp q).toInt) ∧ roundHum (humNum r (calTemp q).toInt) ≤ 110736
          ∧ ((BitVec.ofInt 64 (roundHum (humNum r (calTemp q).toInt))).extractLsb' 0 32).signExtend 64
              = BitVec.ofInt 64 (roundHum (humNum r (calTemp q).toInt))

/-! ## Composite reads -/

/-- R142 to R144: READ_T that succeeds, its poll taking k samples. -/
def Obligations.ReadTSucceeds : Prop :=
  ∀ (a : Code) (s : State) (k : Nat), s.idleFor (158 + 2 * k) → s.life = lifeReady → s.acked 0 → s.readyAfter 2 k →
    ∃ t, exec (.readT a) s = .next t ∧
      t.specified = (({ s.ran (.readT a) errNone with
          ack1 := false, ack2 := true, polls := BitVec.ofNat 7 k, data16 := s.drawnWord (k + 2), d16Valid := true
          rawT := s.drawnWord (k + 2), tempC := calTemp (s.drawnWord (k + 2)), tValid := true
          }.withPins true true true false).saw (k + 18)
        (s.wireMeasure 0x03#8 0 k) (cyclesMeasure k + Config.calCycles)).specified

/-- R144, R151, R152, R156 to R158: READ_T that fails, by its handshake or by its poll, commits nothing. -/
def Obligations.ReadTFails : Prop :=
  (∀ (a : Code) (s : State), s.idleFor 60 → s.life = lifeReady → ¬s.acked 0 →
    ∃ t, exec (.readT a) s = .next t ∧
      t.specified = (({ s.ran (.readT a) errHandshake with
          ack1 := s.drawAt 0, ack2 := s.drawAt 1, tValid := false, d16Valid := false }.withPins false true true false).saw 2
        (wireSend 0x03#8 (s.drawAt 0) (s.drawAt 1)) (38 + 22 * Config.settleCycles)).specified)
    ∧ ∀ (a : Code) (s : State), s.idleFor 261 → s.life = lifeReady → s.acked 0 → s.neverReady 2 →
        ∃ t, exec (.readT a) s = .next t ∧
          t.specified = (({ s.ran (.readT a) errReadyTimeout with
              ack1 := false, ack2 := true, polls := 100#7, tValid := false, d16Valid := false
              }.withPins false true true false).saw 102
            (wireSend 0x03#8 false true ++ wireWait (s.drawList 2 100))
            (39 + 22 * Config.settleCycles + 100 * (Config.pollCycles + 1))).specified

/-- R143, R145, R146: READ_TRH and READ_RH that succeed, their polls taking k and m samples. The humidity is that of the second
word at the temperature of the first. -/
def Obligations.ReadTRHSucceeds : Prop :=
  ∀ (a : Code) (i : Instr) (s : State) (k m : Nat), i = .readTRH a ∨ i = .readRH a → s.idleFor (316 + 2 * (k + m)) →
    s.life = lifeReady → s.acked 0 → s.readyAfter 2 k → s.acked (k + 18) → s.readyAfter (k + 20) m →
    ∃ t, exec i s = .next t ∧
      t.specified = (({ s.ran i errNone with
          ack1 := false, ack2 := true, polls := BitVec.ofNat 7 m, data16 := s.drawnWord (k + m + 20), d16Valid := true
          rawT := s.drawnWord (k + 2), tempC := calTemp (s.drawnWord (k + 2)), tValid := true
          rawH := s.drawnWord (k + m + 20)
          rhNum := BitVec.ofInt 64 (humNum (s.drawnWord (k + m + 20)) (calTemp (s.drawnWord (k + 2))).toInt)
          rhC := BitVec.ofInt 64 (roundHum (humNum (s.drawnWord (k + m + 20)) (calTemp (s.drawnWord (k + 2))).toInt))
          rhValid := true }.withPins true true true false).saw (k + m + 36)
        (s.wireMeasure 0x03#8 0 k ++ s.wireMeasure 0x05#8 (k + 18) m)
        (cyclesMeasure k + cyclesMeasure m + 2 * Config.calCycles)).specified

/-- R145, R146, R158: READ_TRH and READ_RH that fail in their temperature stage commit nothing and never reach the humidity
stage. -/
def Obligations.ReadTRHFailsInItsTemperatureStage : Prop :=
  ∀ (a : Code) (i : Instr) (s : State), i = .readTRH a ∨ i = .readRH a → s.life = lifeReady →
    (s.idleFor 60 → ¬s.acked 0 →
      ∃ t, exec i s = .next t ∧
        t.specified = (({ s.ran i errHandshake with
            ack1 := s.drawAt 0, ack2 := s.drawAt 1, tValid := false, rhValid := false, d16Valid := false
            }.withPins false true true false).saw 2
          (wireSend 0x03#8 (s.drawAt 0) (s.drawAt 1)) (38 + 22 * Config.settleCycles)).specified)
      ∧ (s.idleFor 261 → s.acked 0 → s.neverReady 2 →
          ∃ t, exec i s = .next t ∧
            t.specified = (({ s.ran i errReadyTimeout with
                ack1 := false, ack2 := true, polls := 100#7, tValid := false, rhValid := false, d16Valid := false
                }.withPins false true true false).saw 102
              (wireSend 0x03#8 false true ++ wireWait (s.drawList 2 100))
              (39 + 22 * Config.settleCycles + 100 * (Config.pollCycles + 1))).specified)

/-- R143, R145, R146, R157, R158: READ_TRH and READ_RH that fail in their humidity stage keep the temperature they have
committed. -/
def Obligations.ReadTRHFailsInItsHumidityStage : Prop :=
  ∀ (a : Code) (i : Instr) (s : State) (k : Nat), i = .readTRH a ∨ i = .readRH a → s.life = lifeReady → s.acked 0 →
    s.readyAfter 2 k →
    (s.idleFor (218 + 2 * k) → ¬s.acked (k + 18) →
      ∃ t, exec i s = .next t ∧
        t.specified = (({ s.ran i errHandshake with
            ack1 := s.drawAt (k + 18), ack2 := s.drawAt (k + 19), polls := BitVec.ofNat 7 k
            data16 := s.drawnWord (k + 2), d16Valid := true, rawT := s.drawnWord (k + 2)
            tempC := calTemp (s.drawnWord (k + 2)), tValid := true, rhValid := false
            }.withPins false true true false).saw (k + 20)
          (s.wireMeasure 0x03#8 0 k ++ wireSend 0x05#8 (s.drawAt (k + 18)) (s.drawAt (k + 19)))
          (cyclesMeasure k + Config.calCycles + (38 + 22 * Config.settleCycles))).specified)
      ∧ (s.idleFor (419 + 2 * k) → s.acked (k + 18) → s.neverReady (k + 20) →
          ∃ t, exec i s = .next t ∧
            t.specified = (({ s.ran i errReadyTimeout with
                ack1 := false, ack2 := true, polls := 100#7, data16 := s.drawnWord (k + 2), d16Valid := true
                rawT := s.drawnWord (k + 2), tempC := calTemp (s.drawnWord (k + 2)), tValid := true, rhValid := false
                }.withPins false true true false).saw (k + 120)
              (s.wireMeasure 0x03#8 0 k ++ (wireSend 0x05#8 false true ++ wireWait (s.drawList (k + 20) 100)))
              (cyclesMeasure k + Config.calCycles + (39 + 22 * Config.settleCycles + 100 * (Config.pollCycles + 1)))).specified)

/-- R146: READ_RH is READ_TRH, whatever happens: apart from the word itself in CMD_LAST and CUR, the two leave the same. -/
def Obligations.ReadRHIsReadTRH : Prop :=
  ∀ (a b : Code) (s : State),
    mapNext State.forgetWord (exec (.readRH a) s) = mapNext State.forgetWord (exec (.readTRH b) s)

/-- R135: RH_NUM of a composite read is exact from the two raw words to the end. -/
def Obligations.CompositeReadIsExact : Prop :=
  ∀ (a : Code) (i : Instr) (s : State) (k m : Nat), i = .readTRH a ∨ i = .readRH a → s.idleFor (316 + 2 * (k + m)) →
    s.life = lifeReady → s.acked 0 → s.readyAfter 2 k → s.acked (k + 18) → s.readyAfter (k + 20) m →
    ∃ t, exec i s = .next t ∧ t.rawT = s.drawnWord (k + 2) ∧ t.rawH = s.drawnWord (k + m + 20)
      ∧ (t.tempC.toInt : ℚ) / 100 = idealTemperature t.rawT.toNat
      ∧ (t.rhNum.toInt : ℚ) = 10 ^ 10 * idealHumidity t.rawH.toNat (idealTemperature t.rawT.toNat)
      ∧ |(t.rhC.toInt : ℚ) / 100 - idealHumidity t.rawH.toNat (idealTemperature t.rawT.toNat)| ≤ 1 / 200

/-- R74, R120: the four engine commands in the sensor's order do on the wire what one stage of READ_T does, and read the same
word. -/
def Obligations.EngineSequenceIsOneReadStage : Prop :=
  ∀ (a b c d : Code) (s : State) (k : Nat), s.idleFor (158 + 2 * k) → s.life = lifeReady → s.acked 0 → s.readyAfter 2 k →
    ∃ t₁ t₂ t₃ t₄ u,
      exec (.engSend 0x03#8) s = .next t₁ ∧ exec (.engWait a) t₁ = .next t₂ ∧ exec (.engGet16 b) t₂ = .next t₃
        ∧ exec (.engSkipCrc c) t₃ = .next t₄ ∧ exec (.readT d) s = .next u
        ∧ t₁.err = errNone ∧ t₂.err = errNone ∧ t₃.err = errNone ∧ t₄.err = errNone
        ∧ t₁.wireTrace ++ t₂.wireTrace ++ t₃.wireTrace ++ t₄.wireTrace = u.wireTrace
        ∧ t₄.data16 = u.data16 ∧ t₁.cycles + t₂.cycles + t₃.cycles + t₄.cycles + Config.calCycles = u.cycles

/-- R66, R68: ARG8 of every command but ENG_SEND decides nothing: apart from the word itself in CMD_LAST and CUR, two words of
one opcode leave the same. -/
def Obligations.OnlyEngSendReadsArg8 : Prop :=
  ∀ (i j : Instr) (s : State), i.opcode = j.opcode → i.opcode ≠ 0x8#4 →
    mapNext State.forgetWord (exec i s) = mapNext State.forgetWord (exec j s)

/-! ## Reset -/

/-- R45: the reset values. -/
def Obligations.ResetValues : Prop :=
  State.reset.life = lifeUninit ∧ State.reset.busy = false ∧ State.reset.done = false ∧ State.reset.reject = false
    ∧ State.reset.err = errNone ∧ State.reset.ack1 = false ∧ State.reset.ack2 = false ∧ State.reset.polls = 0#7
    ∧ State.reset.tValid = false ∧ State.reset.rhValid = false ∧ State.reset.d16Valid = false
    ∧ State.reset.cmdLast = 0x00000000#32 ∧ State.reset.opa = 0x00000000#32 ∧ State.reset.opb = 0x00000000#32
    ∧ State.reset.rawT = 0x0000#16 ∧ State.reset.rawH = 0x0000#16 ∧ State.reset.data16 = 0x0000#16
    ∧ State.reset.tempC = 0#32 ∧ State.reset.rhC = 0#64 ∧ State.reset.rhNum = 0#64
    ∧ State.reset.ddir = false ∧ State.reset.cdir = false ∧ State.reset.dout = true ∧ State.reset.cout = false
    ∧ State.reset.cur = none

/-- R177: what a host reads right after reset. -/
def Obligations.HostReadsAfterReset : Prop :=
  (∀ off : Offset, off ∈ [0x00#6, 0x04#6, 0x08#6, 0x0C#6, 0x10#6, 0x14#6, 0x18#6, 0x1C#6, 0x20#6, 0x24#6, 0x28#6, 0x2C#6,
      0x34#6, 0x38#6, 0x3C#6] → hostRead off State.reset = 0x00000000#32)
    ∧ hostRead 0x30#6 State.reset = 0x00000002#32

/-- R174, R175: hardware reset takes one step from every state, whatever the controller was doing; LA, LB and the working
registers are left open. What host and environment have still to do is not the controller's and stays (log entry 12). -/
def Obligations.HardwareResetTakesOneStep : Prop :=
  ∀ (s : State) (n : Nat) (ts : List Turn), s.host = ⟨.rst, n⟩ :: ts →
    ∃ t, step s = .next t ∧
      t.specified = ({ State.reset with
        la := t.la, lb := t.lb, draws := s.draws, drawCount := s.drawCount, host := ts, window := n
        rdata := s.rdata }).specified

/-! ## The whole machine -/

/-- The invariant holds at reset. -/
def Obligations.InvHoldsAtReset : Prop := MachineInv State.reset

/-- R46 and R18, R21, R24, R97: every step keeps the invariant, whatever the host and the environment do. -/
def Obligations.StepKeepsInv : Prop := ∀ s t : State, MachineInv s → step s = .next t → MachineInv t

/-- R97: from a state that meets the invariant no step reaches a model fault, and only a malformed access is refused. -/
def Obligations.NoModelFaultIsReached : Prop :=
  ∀ s : State, MachineInv s →
    (∃ t, step s = .next t) ∨ ∃ a n ts, s.host = ⟨.access a, n⟩ :: ts ∧ a.wellFormed = false

/-- R17, R188: every command completes within 716 micro-operations, for every sequence of draws. -/
def Obligations.EveryCommandCompletes : Prop :=
  ∀ (i : Instr) (s : State), s.idleFor 716 →
    ∃ t, exec i s = .next t ∧ t.busy = false ∧ t.done = true ∧ t.cmdLast = encode i ∧ (s.cur = none → t.cur = none)

/-- R93, R119: in whatever part of a command has run, every SCK transition is followed directly by its settle delay, and every
`DRV` of SCK is a transition; a command that has completed did not end on one. -/
def Obligations.TimingContractIsKept : Prop :=
  ∀ (i : Instr) (s t : State), MachineInv s → s.busy = false → i.runsIn s.life = true → exec i s = .next t →
    timingKept s.cout t.wireTrace = true
      ∧ (t.busy = false → ∀ v, t.wireTrace.getLast? ≠ some (.drv .sck v))

/-- R59, R82: a window of m + n sequencer steps is a window of m and then one of n with nothing between: only where the host's
accesses fall counts. -/
def Obligations.WindowsCompose : Prop :=
  ∀ (s : State) (x : Input) (m n : Nat) (ts : List Turn),
    mapNext (fun t => { t with window := 0 }) (step { s with host := ⟨x, m + n⟩ :: ts })
      = mapNext (fun t => { t with window := 0 }) (andThen (step { s with host := ⟨x, m⟩ :: ⟨.quiet, n⟩ :: ts }) step)

/-- R75, R82: with nothing left for the outside world to do, an idle controller takes no step, and a running one performs one
micro-operation. -/
def Obligations.IdleTakesNoStep : Prop :=
  ∀ s : State, s.legalCodes → s.host = [] →
    (s.busy = false → step s = .next s)
      ∧ (s.busy = true → step s = microStep s ∧ ∀ t, microStep s = .next t → t.upc = s.upc + 1#10)

/-- R44, with the "Writes" lines of the command rules: what a command that was presented while idle leaves unchanged, however
far it has run. -/
def Obligations.CommandFrame : Prop :=
  ∀ (i : Instr) (s t : State), s.busy = false → exec i s = .next t →
    t.opa = s.opa ∧ t.opb = s.opb ∧ t.host = s.host ∧ t.window = s.window ∧ t.rdata = s.rdata
      ∧ t.cmdLast = encode i ∧ t.reject = false
      ∧ (i.writesT = false → t.rawT = s.rawT ∧ t.tempC = s.tempC ∧ t.tValid = s.tValid)
      ∧ (i.writesRH = false → t.rawH = s.rawH ∧ t.rhNum = s.rhNum ∧ t.rhC = s.rhC ∧ t.rhValid = s.rhValid)
      ∧ (i.writesD16 = false → t.data16 = s.data16 ∧ t.d16Valid = s.d16Valid)
      ∧ (i.writesAck = false → t.ack1 = s.ack1 ∧ t.ack2 = s.ack2)
      ∧ (i.writesPolls = false → t.polls = s.polls)
      ∧ (i.writesLife = false → t.life = s.life)
      ∧ (i.writesDir = false → t.ddir = s.ddir ∧ t.cdir = s.cdir)
      ∧ (i.writesLatch = false → t.dout = s.dout ∧ t.cout = s.cout)
      ∧ (i.opcode ∉ [0x8#4, 0xC#4, 0xD#4] → t.la = s.la) ∧ (i.opcode ≠ 0xD#4 → t.lb = s.lb)

/-- R28, R29, R62, R77: what a host can write while a command runs (OPA, OPB, REJECT) does not reach the running command. -/
def Obligations.RunningCommandIgnoresHostWrites : Prop :=
  ∀ (s : State) (n : Nat) (ts : List Turn) (x y : Word) (r : Bool), s.busy = true →
    step ({ s with host := ⟨.quiet, n⟩ :: ts }.withHostData x y r)
      = mapNext (fun t => t.withHostData x y r) (step { s with host := ⟨.quiet, n⟩ :: ts })

/-- R6, R189: the delay parameters cover the delays they stand for: `P_SETTLE_CYCLES` clk cycles last `T_SETTLE_MIN` (in
picoseconds) at least, and `P_POLL_CYCLES` last 10 ms at least. -/
def Obligations.DelayParametersCoverTheDelays : Prop :=
  1 ≤ Config.settleCycles ∧ 1 ≤ Config.pollCycles ∧ 1 ≤ Config.calCycles ∧ 1 ≤ Config.clkHz
    ∧ Config.settleMinPs * Config.clkHz ≤ Config.settleCycles * 10 ^ 12 ∧ Config.clkHz ≤ 100 * Config.pollCycles

/-- R6, R191: the lower bounds on the time of RESET, of ENG_WAIT that times out, and of the reads that succeed. -/
def Obligations.CommandsLastAtLeastTheirDelays : Prop :=
  (∀ (a : Code) (s t : State), s.idleFor 43 → s.life = lifeReady → exec (.resetCmd a) s = .next t →
    t.lastedAtLeast (20 * Config.settleMinPs))
    ∧ (∀ (a : Code) (s t : State), s.idleFor 201 → s.life = lifeReady → s.neverReady 0 → exec (.engWait a) s = .next t →
        t.lastedAtLeast (10 ^ 12))
    ∧ (∀ (a : Code) (s t : State) (k : Nat), s.idleFor (158 + 2 * k) → s.life = lifeReady → s.acked 0 → s.readyAfter 2 k →
        exec (.readT a) s = .next t → t.lastedAtLeast (k * pollMinPs + 58 * Config.settleMinPs))
    ∧ ∀ (a : Code) (i : Instr) (s t : State) (k m : Nat), i = .readTRH a ∨ i = .readRH a → s.idleFor (316 + 2 * (k + m)) →
        s.life = lifeReady → s.acked 0 → s.readyAfter 2 k → s.acked (k + 18) → s.readyAfter (k + 20) m →
        exec i s = .next t → t.lastedAtLeast ((k + m) * pollMinPs + 116 * Config.settleMinPs)

end
end

