-- ==== Sys2Proof/Laws/State.lean ====
section
/-! SUPPORT. What each named update of the state does to each field, true by unfolding, so that no later proof unfolds a
record update. The updates are those of Operands.lean, Flags.lean, Arith.lean and Ops.lean. -/

namespace Sys2Proof.Machine

variable (s : State)

/-! R59: the next turn is taken. -/

@[simp] theorem takeTurn_life (t : Turn) (ts : List Turn) : (takeTurn t ts s).life = s.life := rfl
@[simp] theorem takeTurn_busy (t : Turn) (ts : List Turn) : (takeTurn t ts s).busy = s.busy := rfl
@[simp] theorem takeTurn_done (t : Turn) (ts : List Turn) : (takeTurn t ts s).done = s.done := rfl
@[simp] theorem takeTurn_err (t : Turn) (ts : List Turn) : (takeTurn t ts s).err = s.err := rfl
@[simp] theorem takeTurn_reject (t : Turn) (ts : List Turn) : (takeTurn t ts s).reject = s.reject := rfl
@[simp] theorem takeTurn_ack1 (t : Turn) (ts : List Turn) : (takeTurn t ts s).ack1 = s.ack1 := rfl
@[simp] theorem takeTurn_ack2 (t : Turn) (ts : List Turn) : (takeTurn t ts s).ack2 = s.ack2 := rfl
@[simp] theorem takeTurn_polls (t : Turn) (ts : List Turn) : (takeTurn t ts s).polls = s.polls := rfl
@[simp] theorem takeTurn_tValid (t : Turn) (ts : List Turn) : (takeTurn t ts s).tValid = s.tValid := rfl
@[simp] theorem takeTurn_rhValid (t : Turn) (ts : List Turn) : (takeTurn t ts s).rhValid = s.rhValid := rfl
@[simp] theorem takeTurn_d16Valid (t : Turn) (ts : List Turn) : (takeTurn t ts s).d16Valid = s.d16Valid := rfl
@[simp] theorem takeTurn_cmdLast (t : Turn) (ts : List Turn) : (takeTurn t ts s).cmdLast = s.cmdLast := rfl
@[simp] theorem takeTurn_opa (t : Turn) (ts : List Turn) : (takeTurn t ts s).opa = s.opa := rfl
@[simp] theorem takeTurn_opb (t : Turn) (ts : List Turn) : (takeTurn t ts s).opb = s.opb := rfl
@[simp] theorem takeTurn_rawT (t : Turn) (ts : List Turn) : (takeTurn t ts s).rawT = s.rawT := rfl
@[simp] theorem takeTurn_rawH (t : Turn) (ts : List Turn) : (takeTurn t ts s).rawH = s.rawH := rfl
@[simp] theorem takeTurn_data16 (t : Turn) (ts : List Turn) : (takeTurn t ts s).data16 = s.data16 := rfl
@[simp] theorem takeTurn_tempC (t : Turn) (ts : List Turn) : (takeTurn t ts s).tempC = s.tempC := rfl
@[simp] theorem takeTurn_rhC (t : Turn) (ts : List Turn) : (takeTurn t ts s).rhC = s.rhC := rfl
@[simp] theorem takeTurn_rhNum (t : Turn) (ts : List Turn) : (takeTurn t ts s).rhNum = s.rhNum := rfl
@[simp] theorem takeTurn_ddir (t : Turn) (ts : List Turn) : (takeTurn t ts s).ddir = s.ddir := rfl
@[simp] theorem takeTurn_dout (t : Turn) (ts : List Turn) : (takeTurn t ts s).dout = s.dout := rfl
@[simp] theorem takeTurn_cdir (t : Turn) (ts : List Turn) : (takeTurn t ts s).cdir = s.cdir := rfl
@[simp] theorem takeTurn_cout (t : Turn) (ts : List Turn) : (takeTurn t ts s).cout = s.cout := rfl
@[simp] theorem takeTurn_cur (t : Turn) (ts : List Turn) : (takeTurn t ts s).cur = s.cur := rfl
@[simp] theorem takeTurn_upc (t : Turn) (ts : List Turn) : (takeTurn t ts s).upc = s.upc := rfl
@[simp] theorem takeTurn_la (t : Turn) (ts : List Turn) : (takeTurn t ts s).la = s.la := rfl
@[simp] theorem takeTurn_lb (t : Turn) (ts : List Turn) : (takeTurn t ts s).lb = s.lb := rfl
@[simp] theorem takeTurn_sh (t : Turn) (ts : List Turn) : (takeTurn t ts s).sh = s.sh := rfl
@[simp] theorem takeTurn_w (t : Turn) (ts : List Turn) : (takeTurn t ts s).w = s.w := rfl
@[simp] theorem takeTurn_cnt (t : Turn) (ts : List Turn) : (takeTurn t ts s).cnt = s.cnt := rfl
@[simp] theorem takeTurn_tmr (t : Turn) (ts : List Turn) : (takeTurn t ts s).tmr = s.tmr := rfl
@[simp] theorem takeTurn_a1 (t : Turn) (ts : List Turn) : (takeTurn t ts s).a1 = s.a1 := rfl
@[simp] theorem takeTurn_a2 (t : Turn) (ts : List Turn) : (takeTurn t ts s).a2 = s.a2 := rfl
@[simp] theorem takeTurn_rest (t : Turn) (ts : List Turn) : (takeTurn t ts s).rest = s.rest := rfl
@[simp] theorem takeTurn_draws (t : Turn) (ts : List Turn) : (takeTurn t ts s).draws = s.draws := rfl
@[simp] theorem takeTurn_drawCount (t : Turn) (ts : List Turn) : (takeTurn t ts s).drawCount = s.drawCount := rfl
@[simp] theorem takeTurn_host (t : Turn) (ts : List Turn) : (takeTurn t ts s).host = ts := rfl
@[simp] theorem takeTurn_window (t : Turn) (ts : List Turn) : (takeTurn t ts s).window = t.window := rfl
@[simp] theorem takeTurn_rdata (t : Turn) (ts : List Turn) : (takeTurn t ts s).rdata = s.rdata := rfl
@[simp] theorem takeTurn_trace (t : Turn) (ts : List Turn) : (takeTurn t ts s).trace = s.trace := rfl
@[simp] theorem takeTurn_cycles (t : Turn) (ts : List Turn) : (takeTurn t ts s).cycles = s.cycles := rfl

/-! R170: n draws are answered. -/

@[simp] theorem skipDraws_life (n : Nat) : (s.skipDraws n).life = s.life := rfl
@[simp] theorem skipDraws_busy (n : Nat) : (s.skipDraws n).busy = s.busy := rfl
@[simp] theorem skipDraws_done (n : Nat) : (s.skipDraws n).done = s.done := rfl
@[simp] theorem skipDraws_err (n : Nat) : (s.skipDraws n).err = s.err := rfl
@[simp] theorem skipDraws_reject (n : Nat) : (s.skipDraws n).reject = s.reject := rfl
@[simp] theorem skipDraws_ack1 (n : Nat) : (s.skipDraws n).ack1 = s.ack1 := rfl
@[simp] theorem skipDraws_ack2 (n : Nat) : (s.skipDraws n).ack2 = s.ack2 := rfl
@[simp] theorem skipDraws_polls (n : Nat) : (s.skipDraws n).polls = s.polls := rfl
@[simp] theorem skipDraws_tValid (n : Nat) : (s.skipDraws n).tValid = s.tValid := rfl
@[simp] theorem skipDraws_rhValid (n : Nat) : (s.skipDraws n).rhValid = s.rhValid := rfl
@[simp] theorem skipDraws_d16Valid (n : Nat) : (s.skipDraws n).d16Valid = s.d16Valid := rfl
@[simp] theorem skipDraws_cmdLast (n : Nat) : (s.skipDraws n).cmdLast = s.cmdLast := rfl
@[simp] theorem skipDraws_opa (n : Nat) : (s.skipDraws n).opa = s.opa := rfl
@[simp] theorem skipDraws_opb (n : Nat) : (s.skipDraws n).opb = s.opb := rfl
@[simp] theorem skipDraws_rawT (n : Nat) : (s.skipDraws n).rawT = s.rawT := rfl
@[simp] theorem skipDraws_rawH (n : Nat) : (s.skipDraws n).rawH = s.rawH := rfl
@[simp] theorem skipDraws_data16 (n : Nat) : (s.skipDraws n).data16 = s.data16 := rfl
@[simp] theorem skipDraws_tempC (n : Nat) : (s.skipDraws n).tempC = s.tempC := rfl
@[simp] theorem skipDraws_rhC (n : Nat) : (s.skipDraws n).rhC = s.rhC := rfl
@[simp] theorem skipDraws_rhNum (n : Nat) : (s.skipDraws n).rhNum = s.rhNum := rfl
@[simp] theorem skipDraws_ddir (n : Nat) : (s.skipDraws n).ddir = s.ddir := rfl
@[simp] theorem skipDraws_dout (n : Nat) : (s.skipDraws n).dout = s.dout := rfl
@[simp] theorem skipDraws_cdir (n : Nat) : (s.skipDraws n).cdir = s.cdir := rfl
@[simp] theorem skipDraws_cout (n : Nat) : (s.skipDraws n).cout = s.cout := rfl
@[simp] theorem skipDraws_cur (n : Nat) : (s.skipDraws n).cur = s.cur := rfl
@[simp] theorem skipDraws_upc (n : Nat) : (s.skipDraws n).upc = s.upc := rfl
@[simp] theorem skipDraws_la (n : Nat) : (s.skipDraws n).la = s.la := rfl
@[simp] theorem skipDraws_lb (n : Nat) : (s.skipDraws n).lb = s.lb := rfl
@[simp] theorem skipDraws_sh (n : Nat) : (s.skipDraws n).sh = s.sh := rfl
@[simp] theorem skipDraws_w (n : Nat) : (s.skipDraws n).w = s.w := rfl
@[simp] theorem skipDraws_cnt (n : Nat) : (s.skipDraws n).cnt = s.cnt := rfl
@[simp] theorem skipDraws_tmr (n : Nat) : (s.skipDraws n).tmr = s.tmr := rfl
@[simp] theorem skipDraws_a1 (n : Nat) : (s.skipDraws n).a1 = s.a1 := rfl
@[simp] theorem skipDraws_a2 (n : Nat) : (s.skipDraws n).a2 = s.a2 := rfl
@[simp] theorem skipDraws_rest (n : Nat) : (s.skipDraws n).rest = s.rest := rfl
@[simp] theorem skipDraws_draws (n : Nat) : (s.skipDraws n).draws = s.draws.drop n := rfl
@[simp] theorem skipDraws_drawCount (n : Nat) : (s.skipDraws n).drawCount = s.drawCount + n := rfl
@[simp] theorem skipDraws_host (n : Nat) : (s.skipDraws n).host = s.host := rfl
@[simp] theorem skipDraws_window (n : Nat) : (s.skipDraws n).window = s.window := rfl
@[simp] theorem skipDraws_rdata (n : Nat) : (s.skipDraws n).rdata = s.rdata := rfl
@[simp] theorem skipDraws_trace (n : Nat) : (s.skipDraws n).trace = s.trace := rfl
@[simp] theorem skipDraws_cycles (n : Nat) : (s.skipDraws n).cycles = s.cycles := rfl

/-! R83: completion. -/

@[simp] theorem complete_life (e : ErrCode) : (complete e s).life = s.life := rfl
@[simp] theorem complete_busy (e : ErrCode) : (complete e s).busy = false := rfl
@[simp] theorem complete_done (e : ErrCode) : (complete e s).done = true := rfl
@[simp] theorem complete_err (e : ErrCode) : (complete e s).err = e := rfl
@[simp] theorem complete_reject (e : ErrCode) : (complete e s).reject = s.reject := rfl
@[simp] theorem complete_ack1 (e : ErrCode) : (complete e s).ack1 = s.ack1 := rfl
@[simp] theorem complete_ack2 (e : ErrCode) : (complete e s).ack2 = s.ack2 := rfl
@[simp] theorem complete_polls (e : ErrCode) : (complete e s).polls = s.polls := rfl
@[simp] theorem complete_tValid (e : ErrCode) : (complete e s).tValid = s.tValid := rfl
@[simp] theorem complete_rhValid (e : ErrCode) : (complete e s).rhValid = s.rhValid := rfl
@[simp] theorem complete_d16Valid (e : ErrCode) : (complete e s).d16Valid = s.d16Valid := rfl
@[simp] theorem complete_cmdLast (e : ErrCode) : (complete e s).cmdLast = s.cmdLast := rfl
@[simp] theorem complete_opa (e : ErrCode) : (complete e s).opa = s.opa := rfl
@[simp] theorem complete_opb (e : ErrCode) : (complete e s).opb = s.opb := rfl
@[simp] theorem complete_rawT (e : ErrCode) : (complete e s).rawT = s.rawT := rfl
@[simp] theorem complete_rawH (e : ErrCode) : (complete e s).rawH = s.rawH := rfl
@[simp] theorem complete_data16 (e : ErrCode) : (complete e s).data16 = s.data16 := rfl
@[simp] theorem complete_tempC (e : ErrCode) : (complete e s).tempC = s.tempC := rfl
@[simp] theorem complete_rhC (e : ErrCode) : (complete e s).rhC = s.rhC := rfl
@[simp] theorem complete_rhNum (e : ErrCode) : (complete e s).rhNum = s.rhNum := rfl
@[simp] theorem complete_ddir (e : ErrCode) : (complete e s).ddir = s.ddir := rfl
@[simp] theorem complete_dout (e : ErrCode) : (complete e s).dout = s.dout := rfl
@[simp] theorem complete_cdir (e : ErrCode) : (complete e s).cdir = s.cdir := rfl
@[simp] theorem complete_cout (e : ErrCode) : (complete e s).cout = s.cout := rfl
@[simp] theorem complete_cur (e : ErrCode) : (complete e s).cur = none := rfl
@[simp] theorem complete_upc (e : ErrCode) : (complete e s).upc = s.upc := rfl
@[simp] theorem complete_la (e : ErrCode) : (complete e s).la = s.la := rfl
@[simp] theorem complete_lb (e : ErrCode) : (complete e s).lb = s.lb := rfl
@[simp] theorem complete_sh (e : ErrCode) : (complete e s).sh = s.sh := rfl
@[simp] theorem complete_w (e : ErrCode) : (complete e s).w = s.w := rfl
@[simp] theorem complete_cnt (e : ErrCode) : (complete e s).cnt = s.cnt := rfl
@[simp] theorem complete_tmr (e : ErrCode) : (complete e s).tmr = s.tmr := rfl
@[simp] theorem complete_a1 (e : ErrCode) : (complete e s).a1 = s.a1 := rfl
@[simp] theorem complete_a2 (e : ErrCode) : (complete e s).a2 = s.a2 := rfl
@[simp] theorem complete_rest (e : ErrCode) : (complete e s).rest = [] := rfl
@[simp] theorem complete_draws (e : ErrCode) : (complete e s).draws = s.draws := rfl
@[simp] theorem complete_drawCount (e : ErrCode) : (complete e s).drawCount = s.drawCount := rfl
@[simp] theorem complete_host (e : ErrCode) : (complete e s).host = s.host := rfl
@[simp] theorem complete_window (e : ErrCode) : (complete e s).window = s.window := rfl
@[simp] theorem complete_rdata (e : ErrCode) : (complete e s).rdata = s.rdata := rfl
@[simp] theorem complete_trace (e : ErrCode) : (complete e s).trace = s.trace := rfl
@[simp] theorem complete_cycles (e : ErrCode) : (complete e s).cycles = s.cycles := rfl

/-! R78: completion in the acceptance step. -/

@[simp] theorem completeNow_life (e : ErrCode) : (completeNow e s).life = s.life := rfl
@[simp] theorem completeNow_busy (e : ErrCode) : (completeNow e s).busy = s.busy := rfl
@[simp] theorem completeNow_done (e : ErrCode) : (completeNow e s).done = true := rfl
@[simp] theorem completeNow_err (e : ErrCode) : (completeNow e s).err = e := rfl
@[simp] theorem completeNow_reject (e : ErrCode) : (completeNow e s).reject = s.reject := rfl
@[simp] theorem completeNow_ack1 (e : ErrCode) : (completeNow e s).ack1 = s.ack1 := rfl
@[simp] theorem completeNow_ack2 (e : ErrCode) : (completeNow e s).ack2 = s.ack2 := rfl
@[simp] theorem completeNow_polls (e : ErrCode) : (completeNow e s).polls = s.polls := rfl
@[simp] theorem completeNow_tValid (e : ErrCode) : (completeNow e s).tValid = s.tValid := rfl
@[simp] theorem completeNow_rhValid (e : ErrCode) : (completeNow e s).rhValid = s.rhValid := rfl
@[simp] theorem completeNow_d16Valid (e : ErrCode) : (completeNow e s).d16Valid = s.d16Valid := rfl
@[simp] theorem completeNow_cmdLast (e : ErrCode) : (completeNow e s).cmdLast = s.cmdLast := rfl
@[simp] theorem completeNow_opa (e : ErrCode) : (completeNow e s).opa = s.opa := rfl
@[simp] theorem completeNow_opb (e : ErrCode) : (completeNow e s).opb = s.opb := rfl
@[simp] theorem completeNow_rawT (e : ErrCode) : (completeNow e s).rawT = s.rawT := rfl
@[simp] theorem completeNow_rawH (e : ErrCode) : (completeNow e s).rawH = s.rawH := rfl
@[simp] theorem completeNow_data16 (e : ErrCode) : (completeNow e s).data16 = s.data16 := rfl
@[simp] theorem completeNow_tempC (e : ErrCode) : (completeNow e s).tempC = s.tempC := rfl
@[simp] theorem completeNow_rhC (e : ErrCode) : (completeNow e s).rhC = s.rhC := rfl
@[simp] theorem completeNow_rhNum (e : ErrCode) : (completeNow e s).rhNum = s.rhNum := rfl
@[simp] theorem completeNow_ddir (e : ErrCode) : (completeNow e s).ddir = s.ddir := rfl
@[simp] theorem completeNow_dout (e : ErrCode) : (completeNow e s).dout = s.dout := rfl
@[simp] theorem completeNow_cdir (e : ErrCode) : (completeNow e s).cdir = s.cdir := rfl
@[simp] theorem completeNow_cout (e : ErrCode) : (completeNow e s).cout = s.cout := rfl
@[simp] theorem completeNow_cur (e : ErrCode) : (completeNow e s).cur = s.cur := rfl
@[simp] theorem completeNow_upc (e : ErrCode) : (completeNow e s).upc = s.upc := rfl
@[simp] theorem completeNow_la (e : ErrCode) : (completeNow e s).la = s.la := rfl
@[simp] theorem completeNow_lb (e : ErrCode) : (completeNow e s).lb = s.lb := rfl
@[simp] theorem completeNow_sh (e : ErrCode) : (completeNow e s).sh = s.sh := rfl
@[simp] theorem completeNow_w (e : ErrCode) : (completeNow e s).w = s.w := rfl
@[simp] theorem completeNow_cnt (e : ErrCode) : (completeNow e s).cnt = s.cnt := rfl
@[simp] theorem completeNow_tmr (e : ErrCode) : (completeNow e s).tmr = s.tmr := rfl
@[simp] theorem completeNow_a1 (e : ErrCode) : (completeNow e s).a1 = s.a1 := rfl
@[simp] theorem completeNow_a2 (e : ErrCode) : (completeNow e s).a2 = s.a2 := rfl
@[simp] theorem completeNow_rest (e : ErrCode) : (completeNow e s).rest = s.rest := rfl
@[simp] theorem completeNow_draws (e : ErrCode) : (completeNow e s).draws = s.draws := rfl
@[simp] theorem completeNow_drawCount (e : ErrCode) : (completeNow e s).drawCount = s.drawCount := rfl
@[simp] theorem completeNow_host (e : ErrCode) : (completeNow e s).host = s.host := rfl
@[simp] theorem completeNow_window (e : ErrCode) : (completeNow e s).window = s.window := rfl
@[simp] theorem completeNow_rdata (e : ErrCode) : (completeNow e s).rdata = s.rdata := rfl
@[simp] theorem completeNow_trace (e : ErrCode) : (completeNow e s).trace = s.trace := rfl
@[simp] theorem completeNow_cycles (e : ErrCode) : (completeNow e s).cycles = s.cycles := rfl

/-! R78: the common part of acceptance. -/

@[simp] theorem acceptCommon_life (v : Word) : (acceptCommon v s).life = s.life := rfl
@[simp] theorem acceptCommon_busy (v : Word) : (acceptCommon v s).busy = s.busy := rfl
@[simp] theorem acceptCommon_done (v : Word) : (acceptCommon v s).done = false := rfl
@[simp] theorem acceptCommon_err (v : Word) : (acceptCommon v s).err = errNone := rfl
@[simp] theorem acceptCommon_reject (v : Word) : (acceptCommon v s).reject = false := rfl
@[simp] theorem acceptCommon_ack1 (v : Word) : (acceptCommon v s).ack1 = s.ack1 := rfl
@[simp] theorem acceptCommon_ack2 (v : Word) : (acceptCommon v s).ack2 = s.ack2 := rfl
@[simp] theorem acceptCommon_polls (v : Word) : (acceptCommon v s).polls = s.polls := rfl
@[simp] theorem acceptCommon_tValid (v : Word) : (acceptCommon v s).tValid = s.tValid := rfl
@[simp] theorem acceptCommon_rhValid (v : Word) : (acceptCommon v s).rhValid = s.rhValid := rfl
@[simp] theorem acceptCommon_d16Valid (v : Word) : (acceptCommon v s).d16Valid = s.d16Valid := rfl
@[simp] theorem acceptCommon_cmdLast (v : Word) : (acceptCommon v s).cmdLast = v := rfl
@[simp] theorem acceptCommon_opa (v : Word) : (acceptCommon v s).opa = s.opa := rfl
@[simp] theorem acceptCommon_opb (v : Word) : (acceptCommon v s).opb = s.opb := rfl
@[simp] theorem acceptCommon_rawT (v : Word) : (acceptCommon v s).rawT = s.rawT := rfl
@[simp] theorem acceptCommon_rawH (v : Word) : (acceptCommon v s).rawH = s.rawH := rfl
@[simp] theorem acceptCommon_data16 (v : Word) : (acceptCommon v s).data16 = s.data16 := rfl
@[simp] theorem acceptCommon_tempC (v : Word) : (acceptCommon v s).tempC = s.tempC := rfl
@[simp] theorem acceptCommon_rhC (v : Word) : (acceptCommon v s).rhC = s.rhC := rfl
@[simp] theorem acceptCommon_rhNum (v : Word) : (acceptCommon v s).rhNum = s.rhNum := rfl
@[simp] theorem acceptCommon_ddir (v : Word) : (acceptCommon v s).ddir = s.ddir := rfl
@[simp] theorem acceptCommon_dout (v : Word) : (acceptCommon v s).dout = s.dout := rfl
@[simp] theorem acceptCommon_cdir (v : Word) : (acceptCommon v s).cdir = s.cdir := rfl
@[simp] theorem acceptCommon_cout (v : Word) : (acceptCommon v s).cout = s.cout := rfl
@[simp] theorem acceptCommon_cur (v : Word) : (acceptCommon v s).cur = s.cur := rfl
@[simp] theorem acceptCommon_upc (v : Word) : (acceptCommon v s).upc = s.upc := rfl
@[simp] theorem acceptCommon_la (v : Word) : (acceptCommon v s).la = s.la := rfl
@[simp] theorem acceptCommon_lb (v : Word) : (acceptCommon v s).lb = s.lb := rfl
@[simp] theorem acceptCommon_sh (v : Word) : (acceptCommon v s).sh = s.sh := rfl
@[simp] theorem acceptCommon_w (v : Word) : (acceptCommon v s).w = s.w := rfl
@[simp] theorem acceptCommon_cnt (v : Word) : (acceptCommon v s).cnt = s.cnt := rfl
@[simp] theorem acceptCommon_tmr (v : Word) : (acceptCommon v s).tmr = s.tmr := rfl
@[simp] theorem acceptCommon_a1 (v : Word) : (acceptCommon v s).a1 = s.a1 := rfl
@[simp] theorem acceptCommon_a2 (v : Word) : (acceptCommon v s).a2 = s.a2 := rfl
@[simp] theorem acceptCommon_rest (v : Word) : (acceptCommon v s).rest = s.rest := rfl
@[simp] theorem acceptCommon_draws (v : Word) : (acceptCommon v s).draws = s.draws := rfl
@[simp] theorem acceptCommon_drawCount (v : Word) : (acceptCommon v s).drawCount = s.drawCount := rfl
@[simp] theorem acceptCommon_host (v : Word) : (acceptCommon v s).host = s.host := rfl
@[simp] theorem acceptCommon_window (v : Word) : (acceptCommon v s).window = s.window := rfl
@[simp] theorem acceptCommon_rdata (v : Word) : (acceptCommon v s).rdata = s.rdata := rfl
@[simp] theorem acceptCommon_trace (v : Word) : (acceptCommon v s).trace = s.trace := rfl
@[simp] theorem acceptCommon_cycles (v : Word) : (acceptCommon v s).cycles = s.cycles := rfl

/-! R77: a rejected write. -/

@[simp] theorem markReject_life : (markReject s).life = s.life := rfl
@[simp] theorem markReject_busy : (markReject s).busy = s.busy := rfl
@[simp] theorem markReject_done : (markReject s).done = s.done := rfl
@[simp] theorem markReject_err : (markReject s).err = s.err := rfl
@[simp] theorem markReject_reject : (markReject s).reject = true := rfl
@[simp] theorem markReject_ack1 : (markReject s).ack1 = s.ack1 := rfl
@[simp] theorem markReject_ack2 : (markReject s).ack2 = s.ack2 := rfl
@[simp] theorem markReject_polls : (markReject s).polls = s.polls := rfl
@[simp] theorem markReject_tValid : (markReject s).tValid = s.tValid := rfl
@[simp] theorem markReject_rhValid : (markReject s).rhValid = s.rhValid := rfl
@[simp] theorem markReject_d16Valid : (markReject s).d16Valid = s.d16Valid := rfl
@[simp] theorem markReject_cmdLast : (markReject s).cmdLast = s.cmdLast := rfl
@[simp] theorem markReject_opa : (markReject s).opa = s.opa := rfl
@[simp] theorem markReject_opb : (markReject s).opb = s.opb := rfl
@[simp] theorem markReject_rawT : (markReject s).rawT = s.rawT := rfl
@[simp] theorem markReject_rawH : (markReject s).rawH = s.rawH := rfl
@[simp] theorem markReject_data16 : (markReject s).data16 = s.data16 := rfl
@[simp] theorem markReject_tempC : (markReject s).tempC = s.tempC := rfl
@[simp] theorem markReject_rhC : (markReject s).rhC = s.rhC := rfl
@[simp] theorem markReject_rhNum : (markReject s).rhNum = s.rhNum := rfl
@[simp] theorem markReject_ddir : (markReject s).ddir = s.ddir := rfl
@[simp] theorem markReject_dout : (markReject s).dout = s.dout := rfl
@[simp] theorem markReject_cdir : (markReject s).cdir = s.cdir := rfl
@[simp] theorem markReject_cout : (markReject s).cout = s.cout := rfl
@[simp] theorem markReject_cur : (markReject s).cur = s.cur := rfl
@[simp] theorem markReject_upc : (markReject s).upc = s.upc := rfl
@[simp] theorem markReject_la : (markReject s).la = s.la := rfl
@[simp] theorem markReject_lb : (markReject s).lb = s.lb := rfl
@[simp] theorem markReject_sh : (markReject s).sh = s.sh := rfl
@[simp] theorem markReject_w : (markReject s).w = s.w := rfl
@[simp] theorem markReject_cnt : (markReject s).cnt = s.cnt := rfl
@[simp] theorem markReject_tmr : (markReject s).tmr = s.tmr := rfl
@[simp] theorem markReject_a1 : (markReject s).a1 = s.a1 := rfl
@[simp] theorem markReject_a2 : (markReject s).a2 = s.a2 := rfl
@[simp] theorem markReject_rest : (markReject s).rest = s.rest := rfl
@[simp] theorem markReject_draws : (markReject s).draws = s.draws := rfl
@[simp] theorem markReject_drawCount : (markReject s).drawCount = s.drawCount := rfl
@[simp] theorem markReject_host : (markReject s).host = s.host := rfl
@[simp] theorem markReject_window : (markReject s).window = s.window := rfl
@[simp] theorem markReject_rdata : (markReject s).rdata = s.rdata := rfl
@[simp] theorem markReject_trace : (markReject s).trace = s.trace := rfl
@[simp] theorem markReject_cycles : (markReject s).cycles = s.cycles := rfl

/-! R81: the start. -/

@[simp] theorem start_life (k : Instr) (g : Option Stage) (p : List MicroInstr) : (start k g p s).life = s.life := rfl
@[simp] theorem start_busy (k : Instr) (g : Option Stage) (p : List MicroInstr) : (start k g p s).busy = true := rfl
@[simp] theorem start_done (k : Instr) (g : Option Stage) (p : List MicroInstr) : (start k g p s).done = s.done := rfl
@[simp] theorem start_err (k : Instr) (g : Option Stage) (p : List MicroInstr) : (start k g p s).err = s.err := rfl
@[simp] theorem start_reject (k : Instr) (g : Option Stage) (p : List MicroInstr) : (start k g p s).reject = s.reject := rfl
@[simp] theorem start_ack1 (k : Instr) (g : Option Stage) (p : List MicroInstr) : (start k g p s).ack1 = s.ack1 := rfl
@[simp] theorem start_ack2 (k : Instr) (g : Option Stage) (p : List MicroInstr) : (start k g p s).ack2 = s.ack2 := rfl
@[simp] theorem start_polls (k : Instr) (g : Option Stage) (p : List MicroInstr) : (start k g p s).polls = s.polls := rfl
@[simp] theorem start_tValid (k : Instr) (g : Option Stage) (p : List MicroInstr) : (start k g p s).tValid = s.tValid := rfl
@[simp] theorem start_rhValid (k : Instr) (g : Option Stage) (p : List MicroInstr) : (start k g p s).rhValid = s.rhValid := rfl
@[simp] theorem start_d16Valid (k : Instr) (g : Option Stage) (p : List MicroInstr) : (start k g p s).d16Valid = s.d16Valid := rfl
@[simp] theorem start_cmdLast (k : Instr) (g : Option Stage) (p : List MicroInstr) : (start k g p s).cmdLast = s.cmdLast := rfl
@[simp] theorem start_opa (k : Instr) (g : Option Stage) (p : List MicroInstr) : (start k g p s).opa = s.opa := rfl
@[simp] theorem start_opb (k : Instr) (g : Option Stage) (p : List MicroInstr) : (start k g p s).opb = s.opb := rfl
@[simp] theorem start_rawT (k : Instr) (g : Option Stage) (p : List MicroInstr) : (start k g p s).rawT = s.rawT := rfl
@[simp] theorem start_rawH (k : Instr) (g : Option Stage) (p : List MicroInstr) : (start k g p s).rawH = s.rawH := rfl
@[simp] theorem start_data16 (k : Instr) (g : Option Stage) (p : List MicroInstr) : (start k g p s).data16 = s.data16 := rfl
@[simp] theorem start_tempC (k : Instr) (g : Option Stage) (p : List MicroInstr) : (start k g p s).tempC = s.tempC := rfl
@[simp] theorem start_rhC (k : Instr) (g : Option Stage) (p : List MicroInstr) : (start k g p s).rhC = s.rhC := rfl
@[simp] theorem start_rhNum (k : Instr) (g : Option Stage) (p : List MicroInstr) : (start k g p s).rhNum = s.rhNum := rfl
@[simp] theorem start_ddir (k : Instr) (g : Option Stage) (p : List MicroInstr) : (start k g p s).ddir = s.ddir := rfl
@[simp] theorem start_dout (k : Instr) (g : Option Stage) (p : List MicroInstr) : (start k g p s).dout = s.dout := rfl
@[simp] theorem start_cdir (k : Instr) (g : Option Stage) (p : List MicroInstr) : (start k g p s).cdir = s.cdir := rfl
@[simp] theorem start_cout (k : Instr) (g : Option Stage) (p : List MicroInstr) : (start k g p s).cout = s.cout := rfl
@[simp] theorem start_cur (k : Instr) (g : Option Stage) (p : List MicroInstr) : (start k g p s).cur = some ⟨k, g⟩ := rfl
@[simp] theorem start_upc (k : Instr) (g : Option Stage) (p : List MicroInstr) : (start k g p s).upc = 0#10 := rfl
@[simp] theorem start_la (k : Instr) (g : Option Stage) (p : List MicroInstr) : (start k g p s).la = s.la := rfl
@[simp] theorem start_lb (k : Instr) (g : Option Stage) (p : List MicroInstr) : (start k g p s).lb = s.lb := rfl
@[simp] theorem start_sh (k : Instr) (g : Option Stage) (p : List MicroInstr) : (start k g p s).sh = s.sh := rfl
@[simp] theorem start_w (k : Instr) (g : Option Stage) (p : List MicroInstr) : (start k g p s).w = s.w := rfl
@[simp] theorem start_cnt (k : Instr) (g : Option Stage) (p : List MicroInstr) : (start k g p s).cnt = s.cnt := rfl
@[simp] theorem start_tmr (k : Instr) (g : Option Stage) (p : List MicroInstr) : (start k g p s).tmr = s.tmr := rfl
@[simp] theorem start_a1 (k : Instr) (g : Option Stage) (p : List MicroInstr) : (start k g p s).a1 = s.a1 := rfl
@[simp] theorem start_a2 (k : Instr) (g : Option Stage) (p : List MicroInstr) : (start k g p s).a2 = s.a2 := rfl
@[simp] theorem start_rest (k : Instr) (g : Option Stage) (p : List MicroInstr) : (start k g p s).rest = p := rfl
@[simp] theorem start_draws (k : Instr) (g : Option Stage) (p : List MicroInstr) : (start k g p s).draws = s.draws := rfl
@[simp] theorem start_drawCount (k : Instr) (g : Option Stage) (p : List MicroInstr) : (start k g p s).drawCount = s.drawCount := rfl
@[simp] theorem start_host (k : Instr) (g : Option Stage) (p : List MicroInstr) : (start k g p s).host = s.host := rfl
@[simp] theorem start_window (k : Instr) (g : Option Stage) (p : List MicroInstr) : (start k g p s).window = s.window := rfl
@[simp] theorem start_rdata (k : Instr) (g : Option Stage) (p : List MicroInstr) : (start k g p s).rdata = s.rdata := rfl
@[simp] theorem start_trace (k : Instr) (g : Option Stage) (p : List MicroInstr) : (start k g p s).trace = [] := rfl
@[simp] theorem start_cycles (k : Instr) (g : Option Stage) (p : List MicroInstr) : (start k g p s).cycles = 0 := rfl

/-! R82: the step is counted. -/

@[simp] theorem count_life (op : MicroOp) (b : Bool) : (count op b s).life = s.life := rfl
@[simp] theorem count_busy (op : MicroOp) (b : Bool) : (count op b s).busy = s.busy := rfl
@[simp] theorem count_done (op : MicroOp) (b : Bool) : (count op b s).done = s.done := rfl
@[simp] theorem count_err (op : MicroOp) (b : Bool) : (count op b s).err = s.err := rfl
@[simp] theorem count_reject (op : MicroOp) (b : Bool) : (count op b s).reject = s.reject := rfl
@[simp] theorem count_ack1 (op : MicroOp) (b : Bool) : (count op b s).ack1 = s.ack1 := rfl
@[simp] theorem count_ack2 (op : MicroOp) (b : Bool) : (count op b s).ack2 = s.ack2 := rfl
@[simp] theorem count_polls (op : MicroOp) (b : Bool) : (count op b s).polls = s.polls := rfl
@[simp] theorem count_tValid (op : MicroOp) (b : Bool) : (count op b s).tValid = s.tValid := rfl
@[simp] theorem count_rhValid (op : MicroOp) (b : Bool) : (count op b s).rhValid = s.rhValid := rfl
@[simp] theorem count_d16Valid (op : MicroOp) (b : Bool) : (count op b s).d16Valid = s.d16Valid := rfl
@[simp] theorem count_cmdLast (op : MicroOp) (b : Bool) : (count op b s).cmdLast = s.cmdLast := rfl
@[simp] theorem count_opa (op : MicroOp) (b : Bool) : (count op b s).opa = s.opa := rfl
@[simp] theorem count_opb (op : MicroOp) (b : Bool) : (count op b s).opb = s.opb := rfl
@[simp] theorem count_rawT (op : MicroOp) (b : Bool) : (count op b s).rawT = s.rawT := rfl
@[simp] theorem count_rawH (op : MicroOp) (b : Bool) : (count op b s).rawH = s.rawH := rfl
@[simp] theorem count_data16 (op : MicroOp) (b : Bool) : (count op b s).data16 = s.data16 := rfl
@[simp] theorem count_tempC (op : MicroOp) (b : Bool) : (count op b s).tempC = s.tempC := rfl
@[simp] theorem count_rhC (op : MicroOp) (b : Bool) : (count op b s).rhC = s.rhC := rfl
@[simp] theorem count_rhNum (op : MicroOp) (b : Bool) : (count op b s).rhNum = s.rhNum := rfl
@[simp] theorem count_ddir (op : MicroOp) (b : Bool) : (count op b s).ddir = s.ddir := rfl
@[simp] theorem count_dout (op : MicroOp) (b : Bool) : (count op b s).dout = s.dout := rfl
@[simp] theorem count_cdir (op : MicroOp) (b : Bool) : (count op b s).cdir = s.cdir := rfl
@[simp] theorem count_cout (op : MicroOp) (b : Bool) : (count op b s).cout = s.cout := rfl
@[simp] theorem count_cur (op : MicroOp) (b : Bool) : (count op b s).cur = s.cur := rfl
@[simp] theorem count_upc (op : MicroOp) (b : Bool) : (count op b s).upc = s.upc + 1#10 := rfl
@[simp] theorem count_la (op : MicroOp) (b : Bool) : (count op b s).la = s.la := rfl
@[simp] theorem count_lb (op : MicroOp) (b : Bool) : (count op b s).lb = s.lb := rfl
@[simp] theorem count_sh (op : MicroOp) (b : Bool) : (count op b s).sh = s.sh := rfl
@[simp] theorem count_w (op : MicroOp) (b : Bool) : (count op b s).w = s.w := rfl
@[simp] theorem count_cnt (op : MicroOp) (b : Bool) : (count op b s).cnt = s.cnt := rfl
@[simp] theorem count_tmr (op : MicroOp) (b : Bool) : (count op b s).tmr = s.tmr := rfl
@[simp] theorem count_a1 (op : MicroOp) (b : Bool) : (count op b s).a1 = s.a1 := rfl
@[simp] theorem count_a2 (op : MicroOp) (b : Bool) : (count op b s).a2 = s.a2 := rfl
@[simp] theorem count_rest (op : MicroOp) (b : Bool) : (count op b s).rest = s.rest := rfl
@[simp] theorem count_draws (op : MicroOp) (b : Bool) : (count op b s).draws = s.draws := rfl
@[simp] theorem count_drawCount (op : MicroOp) (b : Bool) : (count op b s).drawCount = s.drawCount := rfl
@[simp] theorem count_host (op : MicroOp) (b : Bool) : (count op b s).host = s.host := rfl
@[simp] theorem count_window (op : MicroOp) (b : Bool) : (count op b s).window = s.window := rfl
@[simp] theorem count_rdata (op : MicroOp) (b : Bool) : (count op b s).rdata = s.rdata := rfl
@[simp] theorem count_trace (op : MicroOp) (b : Bool) : (count op b s).trace = wireEvent op b ++ s.trace := rfl
@[simp] theorem count_cycles (op : MicroOp) (b : Bool) : (count op b s).cycles = s.cycles + opCycles op := rfl

/-! R82: the routine goes on. -/

@[simp] theorem goOn_life (r : List MicroInstr) : (goOn r s).life = s.life := rfl
@[simp] theorem goOn_busy (r : List MicroInstr) : (goOn r s).busy = s.busy := rfl
@[simp] theorem goOn_done (r : List MicroInstr) : (goOn r s).done = s.done := rfl
@[simp] theorem goOn_err (r : List MicroInstr) : (goOn r s).err = s.err := rfl
@[simp] theorem goOn_reject (r : List MicroInstr) : (goOn r s).reject = s.reject := rfl
@[simp] theorem goOn_ack1 (r : List MicroInstr) : (goOn r s).ack1 = s.ack1 := rfl
@[simp] theorem goOn_ack2 (r : List MicroInstr) : (goOn r s).ack2 = s.ack2 := rfl
@[simp] theorem goOn_polls (r : List MicroInstr) : (goOn r s).polls = s.polls := rfl
@[simp] theorem goOn_tValid (r : List MicroInstr) : (goOn r s).tValid = s.tValid := rfl
@[simp] theorem goOn_rhValid (r : List MicroInstr) : (goOn r s).rhValid = s.rhValid := rfl
@[simp] theorem goOn_d16Valid (r : List MicroInstr) : (goOn r s).d16Valid = s.d16Valid := rfl
@[simp] theorem goOn_cmdLast (r : List MicroInstr) : (goOn r s).cmdLast = s.cmdLast := rfl
@[simp] theorem goOn_opa (r : List MicroInstr) : (goOn r s).opa = s.opa := rfl
@[simp] theorem goOn_opb (r : List MicroInstr) : (goOn r s).opb = s.opb := rfl
@[simp] theorem goOn_rawT (r : List MicroInstr) : (goOn r s).rawT = s.rawT := rfl
@[simp] theorem goOn_rawH (r : List MicroInstr) : (goOn r s).rawH = s.rawH := rfl
@[simp] theorem goOn_data16 (r : List MicroInstr) : (goOn r s).data16 = s.data16 := rfl
@[simp] theorem goOn_tempC (r : List MicroInstr) : (goOn r s).tempC = s.tempC := rfl
@[simp] theorem goOn_rhC (r : List MicroInstr) : (goOn r s).rhC = s.rhC := rfl
@[simp] theorem goOn_rhNum (r : List MicroInstr) : (goOn r s).rhNum = s.rhNum := rfl
@[simp] theorem goOn_ddir (r : List MicroInstr) : (goOn r s).ddir = s.ddir := rfl
@[simp] theorem goOn_dout (r : List MicroInstr) : (goOn r s).dout = s.dout := rfl
@[simp] theorem goOn_cdir (r : List MicroInstr) : (goOn r s).cdir = s.cdir := rfl
@[simp] theorem goOn_cout (r : List MicroInstr) : (goOn r s).cout = s.cout := rfl
@[simp] theorem goOn_cur (r : List MicroInstr) : (goOn r s).cur = s.cur := rfl
@[simp] theorem goOn_upc (r : List MicroInstr) : (goOn r s).upc = s.upc := rfl
@[simp] theorem goOn_la (r : List MicroInstr) : (goOn r s).la = s.la := rfl
@[simp] theorem goOn_lb (r : List MicroInstr) : (goOn r s).lb = s.lb := rfl
@[simp] theorem goOn_sh (r : List MicroInstr) : (goOn r s).sh = s.sh := rfl
@[simp] theorem goOn_w (r : List MicroInstr) : (goOn r s).w = s.w := rfl
@[simp] theorem goOn_cnt (r : List MicroInstr) : (goOn r s).cnt = s.cnt := rfl
@[simp] theorem goOn_tmr (r : List MicroInstr) : (goOn r s).tmr = s.tmr := rfl
@[simp] theorem goOn_a1 (r : List MicroInstr) : (goOn r s).a1 = s.a1 := rfl
@[simp] theorem goOn_a2 (r : List MicroInstr) : (goOn r s).a2 = s.a2 := rfl
@[simp] theorem goOn_rest (r : List MicroInstr) : (goOn r s).rest = r := rfl
@[simp] theorem goOn_draws (r : List MicroInstr) : (goOn r s).draws = s.draws := rfl
@[simp] theorem goOn_drawCount (r : List MicroInstr) : (goOn r s).drawCount = s.drawCount := rfl
@[simp] theorem goOn_host (r : List MicroInstr) : (goOn r s).host = s.host := rfl
@[simp] theorem goOn_window (r : List MicroInstr) : (goOn r s).window = s.window := rfl
@[simp] theorem goOn_rdata (r : List MicroInstr) : (goOn r s).rdata = s.rdata := rfl
@[simp] theorem goOn_trace (r : List MicroInstr) : (goOn r s).trace = s.trace := rfl
@[simp] theorem goOn_cycles (r : List MicroInstr) : (goOn r s).cycles = s.cycles := rfl

/-! R66: ENG_SEND's operand. -/

@[simp] theorem latchCode_life (c : Code) : (latchCode c s).life = s.life := rfl
@[simp] theorem latchCode_busy (c : Code) : (latchCode c s).busy = s.busy := rfl
@[simp] theorem latchCode_done (c : Code) : (latchCode c s).done = s.done := rfl
@[simp] theorem latchCode_err (c : Code) : (latchCode c s).err = s.err := rfl
@[simp] theorem latchCode_reject (c : Code) : (latchCode c s).reject = s.reject := rfl
@[simp] theorem latchCode_ack1 (c : Code) : (latchCode c s).ack1 = s.ack1 := rfl
@[simp] theorem latchCode_ack2 (c : Code) : (latchCode c s).ack2 = s.ack2 := rfl
@[simp] theorem latchCode_polls (c : Code) : (latchCode c s).polls = s.polls := rfl
@[simp] theorem latchCode_tValid (c : Code) : (latchCode c s).tValid = s.tValid := rfl
@[simp] theorem latchCode_rhValid (c : Code) : (latchCode c s).rhValid = s.rhValid := rfl
@[simp] theorem latchCode_d16Valid (c : Code) : (latchCode c s).d16Valid = s.d16Valid := rfl
@[simp] theorem latchCode_cmdLast (c : Code) : (latchCode c s).cmdLast = s.cmdLast := rfl
@[simp] theorem latchCode_opa (c : Code) : (latchCode c s).opa = s.opa := rfl
@[simp] theorem latchCode_opb (c : Code) : (latchCode c s).opb = s.opb := rfl
@[simp] theorem latchCode_rawT (c : Code) : (latchCode c s).rawT = s.rawT := rfl
@[simp] theorem latchCode_rawH (c : Code) : (latchCode c s).rawH = s.rawH := rfl
@[simp] theorem latchCode_data16 (c : Code) : (latchCode c s).data16 = s.data16 := rfl
@[simp] theorem latchCode_tempC (c : Code) : (latchCode c s).tempC = s.tempC := rfl
@[simp] theorem latchCode_rhC (c : Code) : (latchCode c s).rhC = s.rhC := rfl
@[simp] theorem latchCode_rhNum (c : Code) : (latchCode c s).rhNum = s.rhNum := rfl
@[simp] theorem latchCode_ddir (c : Code) : (latchCode c s).ddir = s.ddir := rfl
@[simp] theorem latchCode_dout (c : Code) : (latchCode c s).dout = s.dout := rfl
@[simp] theorem latchCode_cdir (c : Code) : (latchCode c s).cdir = s.cdir := rfl
@[simp] theorem latchCode_cout (c : Code) : (latchCode c s).cout = s.cout := rfl
@[simp] theorem latchCode_cur (c : Code) : (latchCode c s).cur = s.cur := rfl
@[simp] theorem latchCode_upc (c : Code) : (latchCode c s).upc = s.upc := rfl
@[simp] theorem latchCode_la (c : Code) : (latchCode c s).la = c.setWidth 32 := rfl
@[simp] theorem latchCode_lb (c : Code) : (latchCode c s).lb = s.lb := rfl
@[simp] theorem latchCode_sh (c : Code) : (latchCode c s).sh = s.sh := rfl
@[simp] theorem latchCode_w (c : Code) : (latchCode c s).w = s.w := rfl
@[simp] theorem latchCode_cnt (c : Code) : (latchCode c s).cnt = s.cnt := rfl
@[simp] theorem latchCode_tmr (c : Code) : (latchCode c s).tmr = s.tmr := rfl
@[simp] theorem latchCode_a1 (c : Code) : (latchCode c s).a1 = s.a1 := rfl
@[simp] theorem latchCode_a2 (c : Code) : (latchCode c s).a2 = s.a2 := rfl
@[simp] theorem latchCode_rest (c : Code) : (latchCode c s).rest = s.rest := rfl
@[simp] theorem latchCode_draws (c : Code) : (latchCode c s).draws = s.draws := rfl
@[simp] theorem latchCode_drawCount (c : Code) : (latchCode c s).drawCount = s.drawCount := rfl
@[simp] theorem latchCode_host (c : Code) : (latchCode c s).host = s.host := rfl
@[simp] theorem latchCode_window (c : Code) : (latchCode c s).window = s.window := rfl
@[simp] theorem latchCode_rdata (c : Code) : (latchCode c s).rdata = s.rdata := rfl
@[simp] theorem latchCode_trace (c : Code) : (latchCode c s).trace = s.trace := rfl
@[simp] theorem latchCode_cycles (c : Code) : (latchCode c s).cycles = s.cycles := rfl

/-! R66: CAL_T's operand. -/

@[simp] theorem latchA_life : (latchA s).life = s.life := rfl
@[simp] theorem latchA_busy : (latchA s).busy = s.busy := rfl
@[simp] theorem latchA_done : (latchA s).done = s.done := rfl
@[simp] theorem latchA_err : (latchA s).err = s.err := rfl
@[simp] theorem latchA_reject : (latchA s).reject = s.reject := rfl
@[simp] theorem latchA_ack1 : (latchA s).ack1 = s.ack1 := rfl
@[simp] theorem latchA_ack2 : (latchA s).ack2 = s.ack2 := rfl
@[simp] theorem latchA_polls : (latchA s).polls = s.polls := rfl
@[simp] theorem latchA_tValid : (latchA s).tValid = s.tValid := rfl
@[simp] theorem latchA_rhValid : (latchA s).rhValid = s.rhValid := rfl
@[simp] theorem latchA_d16Valid : (latchA s).d16Valid = s.d16Valid := rfl
@[simp] theorem latchA_cmdLast : (latchA s).cmdLast = s.cmdLast := rfl
@[simp] theorem latchA_opa : (latchA s).opa = s.opa := rfl
@[simp] theorem latchA_opb : (latchA s).opb = s.opb := rfl
@[simp] theorem latchA_rawT : (latchA s).rawT = s.rawT := rfl
@[simp] theorem latchA_rawH : (latchA s).rawH = s.rawH := rfl
@[simp] theorem latchA_data16 : (latchA s).data16 = s.data16 := rfl
@[simp] theorem latchA_tempC : (latchA s).tempC = s.tempC := rfl
@[simp] theorem latchA_rhC : (latchA s).rhC = s.rhC := rfl
@[simp] theorem latchA_rhNum : (latchA s).rhNum = s.rhNum := rfl
@[simp] theorem latchA_ddir : (latchA s).ddir = s.ddir := rfl
@[simp] theorem latchA_dout : (latchA s).dout = s.dout := rfl
@[simp] theorem latchA_cdir : (latchA s).cdir = s.cdir := rfl
@[simp] theorem latchA_cout : (latchA s).cout = s.cout := rfl
@[simp] theorem latchA_cur : (latchA s).cur = s.cur := rfl
@[simp] theorem latchA_upc : (latchA s).upc = s.upc := rfl
@[simp] theorem latchA_la : (latchA s).la = s.opa := rfl
@[simp] theorem latchA_lb : (latchA s).lb = s.lb := rfl
@[simp] theorem latchA_sh : (latchA s).sh = s.sh := rfl
@[simp] theorem latchA_w : (latchA s).w = s.w := rfl
@[simp] theorem latchA_cnt : (latchA s).cnt = s.cnt := rfl
@[simp] theorem latchA_tmr : (latchA s).tmr = s.tmr := rfl
@[simp] theorem latchA_a1 : (latchA s).a1 = s.a1 := rfl
@[simp] theorem latchA_a2 : (latchA s).a2 = s.a2 := rfl
@[simp] theorem latchA_rest : (latchA s).rest = s.rest := rfl
@[simp] theorem latchA_draws : (latchA s).draws = s.draws := rfl
@[simp] theorem latchA_drawCount : (latchA s).drawCount = s.drawCount := rfl
@[simp] theorem latchA_host : (latchA s).host = s.host := rfl
@[simp] theorem latchA_window : (latchA s).window = s.window := rfl
@[simp] theorem latchA_rdata : (latchA s).rdata = s.rdata := rfl
@[simp] theorem latchA_trace : (latchA s).trace = s.trace := rfl
@[simp] theorem latchA_cycles : (latchA s).cycles = s.cycles := rfl

/-! R66: CAL_RH's operands. -/

@[simp] theorem latchAB_life : (latchAB s).life = s.life := rfl
@[simp] theorem latchAB_busy : (latchAB s).busy = s.busy := rfl
@[simp] theorem latchAB_done : (latchAB s).done = s.done := rfl
@[simp] theorem latchAB_err : (latchAB s).err = s.err := rfl
@[simp] theorem latchAB_reject : (latchAB s).reject = s.reject := rfl
@[simp] theorem latchAB_ack1 : (latchAB s).ack1 = s.ack1 := rfl
@[simp] theorem latchAB_ack2 : (latchAB s).ack2 = s.ack2 := rfl
@[simp] theorem latchAB_polls : (latchAB s).polls = s.polls := rfl
@[simp] theorem latchAB_tValid : (latchAB s).tValid = s.tValid := rfl
@[simp] theorem latchAB_rhValid : (latchAB s).rhValid = s.rhValid := rfl
@[simp] theorem latchAB_d16Valid : (latchAB s).d16Valid = s.d16Valid := rfl
@[simp] theorem latchAB_cmdLast : (latchAB s).cmdLast = s.cmdLast := rfl
@[simp] theorem latchAB_opa : (latchAB s).opa = s.opa := rfl
@[simp] theorem latchAB_opb : (latchAB s).opb = s.opb := rfl
@[simp] theorem latchAB_rawT : (latchAB s).rawT = s.rawT := rfl
@[simp] theorem latchAB_rawH : (latchAB s).rawH = s.rawH := rfl
@[simp] theorem latchAB_data16 : (latchAB s).data16 = s.data16 := rfl
@[simp] theorem latchAB_tempC : (latchAB s).tempC = s.tempC := rfl
@[simp] theorem latchAB_rhC : (latchAB s).rhC = s.rhC := rfl
@[simp] theorem latchAB_rhNum : (latchAB s).rhNum = s.rhNum := rfl
@[simp] theorem latchAB_ddir : (latchAB s).ddir = s.ddir := rfl
@[simp] theorem latchAB_dout : (latchAB s).dout = s.dout := rfl
@[simp] theorem latchAB_cdir : (latchAB s).cdir = s.cdir := rfl
@[simp] theorem latchAB_cout : (latchAB s).cout = s.cout := rfl
@[simp] theorem latchAB_cur : (latchAB s).cur = s.cur := rfl
@[simp] theorem latchAB_upc : (latchAB s).upc = s.upc := rfl
@[simp] theorem latchAB_la : (latchAB s).la = s.opa := rfl
@[simp] theorem latchAB_lb : (latchAB s).lb = s.opb := rfl
@[simp] theorem latchAB_sh : (latchAB s).sh = s.sh := rfl
@[simp] theorem latchAB_w : (latchAB s).w = s.w := rfl
@[simp] theorem latchAB_cnt : (latchAB s).cnt = s.cnt := rfl
@[simp] theorem latchAB_tmr : (latchAB s).tmr = s.tmr := rfl
@[simp] theorem latchAB_a1 : (latchAB s).a1 = s.a1 := rfl
@[simp] theorem latchAB_a2 : (latchAB s).a2 = s.a2 := rfl
@[simp] theorem latchAB_rest : (latchAB s).rest = s.rest := rfl
@[simp] theorem latchAB_draws : (latchAB s).draws = s.draws := rfl
@[simp] theorem latchAB_drawCount : (latchAB s).drawCount = s.drawCount := rfl
@[simp] theorem latchAB_host : (latchAB s).host = s.host := rfl
@[simp] theorem latchAB_window : (latchAB s).window = s.window := rfl
@[simp] theorem latchAB_rdata : (latchAB s).rdata = s.rdata := rfl
@[simp] theorem latchAB_trace : (latchAB s).trace = s.trace := rfl
@[simp] theorem latchAB_cycles : (latchAB s).cycles = s.cycles := rfl

/-! R67: CAL_T clears. -/

@[simp] theorem clearT_life : (clearT s).life = s.life := rfl
@[simp] theorem clearT_busy : (clearT s).busy = s.busy := rfl
@[simp] theorem clearT_done : (clearT s).done = s.done := rfl
@[simp] theorem clearT_err : (clearT s).err = s.err := rfl
@[simp] theorem clearT_reject : (clearT s).reject = s.reject := rfl
@[simp] theorem clearT_ack1 : (clearT s).ack1 = s.ack1 := rfl
@[simp] theorem clearT_ack2 : (clearT s).ack2 = s.ack2 := rfl
@[simp] theorem clearT_polls : (clearT s).polls = s.polls := rfl
@[simp] theorem clearT_tValid : (clearT s).tValid = false := rfl
@[simp] theorem clearT_rhValid : (clearT s).rhValid = s.rhValid := rfl
@[simp] theorem clearT_d16Valid : (clearT s).d16Valid = s.d16Valid := rfl
@[simp] theorem clearT_cmdLast : (clearT s).cmdLast = s.cmdLast := rfl
@[simp] theorem clearT_opa : (clearT s).opa = s.opa := rfl
@[simp] theorem clearT_opb : (clearT s).opb = s.opb := rfl
@[simp] theorem clearT_rawT : (clearT s).rawT = s.rawT := rfl
@[simp] theorem clearT_rawH : (clearT s).rawH = s.rawH := rfl
@[simp] theorem clearT_data16 : (clearT s).data16 = s.data16 := rfl
@[simp] theorem clearT_tempC : (clearT s).tempC = s.tempC := rfl
@[simp] theorem clearT_rhC : (clearT s).rhC = s.rhC := rfl
@[simp] theorem clearT_rhNum : (clearT s).rhNum = s.rhNum := rfl
@[simp] theorem clearT_ddir : (clearT s).ddir = s.ddir := rfl
@[simp] theorem clearT_dout : (clearT s).dout = s.dout := rfl
@[simp] theorem clearT_cdir : (clearT s).cdir = s.cdir := rfl
@[simp] theorem clearT_cout : (clearT s).cout = s.cout := rfl
@[simp] theorem clearT_cur : (clearT s).cur = s.cur := rfl
@[simp] theorem clearT_upc : (clearT s).upc = s.upc := rfl
@[simp] theorem clearT_la : (clearT s).la = s.la := rfl
@[simp] theorem clearT_lb : (clearT s).lb = s.lb := rfl
@[simp] theorem clearT_sh : (clearT s).sh = s.sh := rfl
@[simp] theorem clearT_w : (clearT s).w = s.w := rfl
@[simp] theorem clearT_cnt : (clearT s).cnt = s.cnt := rfl
@[simp] theorem clearT_tmr : (clearT s).tmr = s.tmr := rfl
@[simp] theorem clearT_a1 : (clearT s).a1 = s.a1 := rfl
@[simp] theorem clearT_a2 : (clearT s).a2 = s.a2 := rfl
@[simp] theorem clearT_rest : (clearT s).rest = s.rest := rfl
@[simp] theorem clearT_draws : (clearT s).draws = s.draws := rfl
@[simp] theorem clearT_drawCount : (clearT s).drawCount = s.drawCount := rfl
@[simp] theorem clearT_host : (clearT s).host = s.host := rfl
@[simp] theorem clearT_window : (clearT s).window = s.window := rfl
@[simp] theorem clearT_rdata : (clearT s).rdata = s.rdata := rfl
@[simp] theorem clearT_trace : (clearT s).trace = s.trace := rfl
@[simp] theorem clearT_cycles : (clearT s).cycles = s.cycles := rfl

/-! R67: CAL_RH clears. -/

@[simp] theorem clearRH_life : (clearRH s).life = s.life := rfl
@[simp] theorem clearRH_busy : (clearRH s).busy = s.busy := rfl
@[simp] theorem clearRH_done : (clearRH s).done = s.done := rfl
@[simp] theorem clearRH_err : (clearRH s).err = s.err := rfl
@[simp] theorem clearRH_reject : (clearRH s).reject = s.reject := rfl
@[simp] theorem clearRH_ack1 : (clearRH s).ack1 = s.ack1 := rfl
@[simp] theorem clearRH_ack2 : (clearRH s).ack2 = s.ack2 := rfl
@[simp] theorem clearRH_polls : (clearRH s).polls = s.polls := rfl
@[simp] theorem clearRH_tValid : (clearRH s).tValid = s.tValid := rfl
@[simp] theorem clearRH_rhValid : (clearRH s).rhValid = false := rfl
@[simp] theorem clearRH_d16Valid : (clearRH s).d16Valid = s.d16Valid := rfl
@[simp] theorem clearRH_cmdLast : (clearRH s).cmdLast = s.cmdLast := rfl
@[simp] theorem clearRH_opa : (clearRH s).opa = s.opa := rfl
@[simp] theorem clearRH_opb : (clearRH s).opb = s.opb := rfl
@[simp] theorem clearRH_rawT : (clearRH s).rawT = s.rawT := rfl
@[simp] theorem clearRH_rawH : (clearRH s).rawH = s.rawH := rfl
@[simp] theorem clearRH_data16 : (clearRH s).data16 = s.data16 := rfl
@[simp] theorem clearRH_tempC : (clearRH s).tempC = s.tempC := rfl
@[simp] theorem clearRH_rhC : (clearRH s).rhC = s.rhC := rfl
@[simp] theorem clearRH_rhNum : (clearRH s).rhNum = s.rhNum := rfl
@[simp] theorem clearRH_ddir : (clearRH s).ddir = s.ddir := rfl
@[simp] theorem clearRH_dout : (clearRH s).dout = s.dout := rfl
@[simp] theorem clearRH_cdir : (clearRH s).cdir = s.cdir := rfl
@[simp] theorem clearRH_cout : (clearRH s).cout = s.cout := rfl
@[simp] theorem clearRH_cur : (clearRH s).cur = s.cur := rfl
@[simp] theorem clearRH_upc : (clearRH s).upc = s.upc := rfl
@[simp] theorem clearRH_la : (clearRH s).la = s.la := rfl
@[simp] theorem clearRH_lb : (clearRH s).lb = s.lb := rfl
@[simp] theorem clearRH_sh : (clearRH s).sh = s.sh := rfl
@[simp] theorem clearRH_w : (clearRH s).w = s.w := rfl
@[simp] theorem clearRH_cnt : (clearRH s).cnt = s.cnt := rfl
@[simp] theorem clearRH_tmr : (clearRH s).tmr = s.tmr := rfl
@[simp] theorem clearRH_a1 : (clearRH s).a1 = s.a1 := rfl
@[simp] theorem clearRH_a2 : (clearRH s).a2 = s.a2 := rfl
@[simp] theorem clearRH_rest : (clearRH s).rest = s.rest := rfl
@[simp] theorem clearRH_draws : (clearRH s).draws = s.draws := rfl
@[simp] theorem clearRH_drawCount : (clearRH s).drawCount = s.drawCount := rfl
@[simp] theorem clearRH_host : (clearRH s).host = s.host := rfl
@[simp] theorem clearRH_window : (clearRH s).window = s.window := rfl
@[simp] theorem clearRH_rdata : (clearRH s).rdata = s.rdata := rfl
@[simp] theorem clearRH_trace : (clearRH s).trace = s.trace := rfl
@[simp] theorem clearRH_cycles : (clearRH s).cycles = s.cycles := rfl

/-! R67: ENG_GET16 clears. -/

@[simp] theorem clearD16_life : (clearD16 s).life = s.life := rfl
@[simp] theorem clearD16_busy : (clearD16 s).busy = s.busy := rfl
@[simp] theorem clearD16_done : (clearD16 s).done = s.done := rfl
@[simp] theorem clearD16_err : (clearD16 s).err = s.err := rfl
@[simp] theorem clearD16_reject : (clearD16 s).reject = s.reject := rfl
@[simp] theorem clearD16_ack1 : (clearD16 s).ack1 = s.ack1 := rfl
@[simp] theorem clearD16_ack2 : (clearD16 s).ack2 = s.ack2 := rfl
@[simp] theorem clearD16_polls : (clearD16 s).polls = s.polls := rfl
@[simp] theorem clearD16_tValid : (clearD16 s).tValid = s.tValid := rfl
@[simp] theorem clearD16_rhValid : (clearD16 s).rhValid = s.rhValid := rfl
@[simp] theorem clearD16_d16Valid : (clearD16 s).d16Valid = false := rfl
@[simp] theorem clearD16_cmdLast : (clearD16 s).cmdLast = s.cmdLast := rfl
@[simp] theorem clearD16_opa : (clearD16 s).opa = s.opa := rfl
@[simp] theorem clearD16_opb : (clearD16 s).opb = s.opb := rfl
@[simp] theorem clearD16_rawT : (clearD16 s).rawT = s.rawT := rfl
@[simp] theorem clearD16_rawH : (clearD16 s).rawH = s.rawH := rfl
@[simp] theorem clearD16_data16 : (clearD16 s).data16 = s.data16 := rfl
@[simp] theorem clearD16_tempC : (clearD16 s).tempC = s.tempC := rfl
@[simp] theorem clearD16_rhC : (clearD16 s).rhC = s.rhC := rfl
@[simp] theorem clearD16_rhNum : (clearD16 s).rhNum = s.rhNum := rfl
@[simp] theorem clearD16_ddir : (clearD16 s).ddir = s.ddir := rfl
@[simp] theorem clearD16_dout : (clearD16 s).dout = s.dout := rfl
@[simp] theorem clearD16_cdir : (clearD16 s).cdir = s.cdir := rfl
@[simp] theorem clearD16_cout : (clearD16 s).cout = s.cout := rfl
@[simp] theorem clearD16_cur : (clearD16 s).cur = s.cur := rfl
@[simp] theorem clearD16_upc : (clearD16 s).upc = s.upc := rfl
@[simp] theorem clearD16_la : (clearD16 s).la = s.la := rfl
@[simp] theorem clearD16_lb : (clearD16 s).lb = s.lb := rfl
@[simp] theorem clearD16_sh : (clearD16 s).sh = s.sh := rfl
@[simp] theorem clearD16_w : (clearD16 s).w = s.w := rfl
@[simp] theorem clearD16_cnt : (clearD16 s).cnt = s.cnt := rfl
@[simp] theorem clearD16_tmr : (clearD16 s).tmr = s.tmr := rfl
@[simp] theorem clearD16_a1 : (clearD16 s).a1 = s.a1 := rfl
@[simp] theorem clearD16_a2 : (clearD16 s).a2 = s.a2 := rfl
@[simp] theorem clearD16_rest : (clearD16 s).rest = s.rest := rfl
@[simp] theorem clearD16_draws : (clearD16 s).draws = s.draws := rfl
@[simp] theorem clearD16_drawCount : (clearD16 s).drawCount = s.drawCount := rfl
@[simp] theorem clearD16_host : (clearD16 s).host = s.host := rfl
@[simp] theorem clearD16_window : (clearD16 s).window = s.window := rfl
@[simp] theorem clearD16_rdata : (clearD16 s).rdata = s.rdata := rfl
@[simp] theorem clearD16_trace : (clearD16 s).trace = s.trace := rfl
@[simp] theorem clearD16_cycles : (clearD16 s).cycles = s.cycles := rfl

/-! R67: READ_T clears. -/

@[simp] theorem clearTD16_life : (clearTD16 s).life = s.life := rfl
@[simp] theorem clearTD16_busy : (clearTD16 s).busy = s.busy := rfl
@[simp] theorem clearTD16_done : (clearTD16 s).done = s.done := rfl
@[simp] theorem clearTD16_err : (clearTD16 s).err = s.err := rfl
@[simp] theorem clearTD16_reject : (clearTD16 s).reject = s.reject := rfl
@[simp] theorem clearTD16_ack1 : (clearTD16 s).ack1 = s.ack1 := rfl
@[simp] theorem clearTD16_ack2 : (clearTD16 s).ack2 = s.ack2 := rfl
@[simp] theorem clearTD16_polls : (clearTD16 s).polls = s.polls := rfl
@[simp] theorem clearTD16_tValid : (clearTD16 s).tValid = false := rfl
@[simp] theorem clearTD16_rhValid : (clearTD16 s).rhValid = s.rhValid := rfl
@[simp] theorem clearTD16_d16Valid : (clearTD16 s).d16Valid = false := rfl
@[simp] theorem clearTD16_cmdLast : (clearTD16 s).cmdLast = s.cmdLast := rfl
@[simp] theorem clearTD16_opa : (clearTD16 s).opa = s.opa := rfl
@[simp] theorem clearTD16_opb : (clearTD16 s).opb = s.opb := rfl
@[simp] theorem clearTD16_rawT : (clearTD16 s).rawT = s.rawT := rfl
@[simp] theorem clearTD16_rawH : (clearTD16 s).rawH = s.rawH := rfl
@[simp] theorem clearTD16_data16 : (clearTD16 s).data16 = s.data16 := rfl
@[simp] theorem clearTD16_tempC : (clearTD16 s).tempC = s.tempC := rfl
@[simp] theorem clearTD16_rhC : (clearTD16 s).rhC = s.rhC := rfl
@[simp] theorem clearTD16_rhNum : (clearTD16 s).rhNum = s.rhNum := rfl
@[simp] theorem clearTD16_ddir : (clearTD16 s).ddir = s.ddir := rfl
@[simp] theorem clearTD16_dout : (clearTD16 s).dout = s.dout := rfl
@[simp] theorem clearTD16_cdir : (clearTD16 s).cdir = s.cdir := rfl
@[simp] theorem clearTD16_cout : (clearTD16 s).cout = s.cout := rfl
@[simp] theorem clearTD16_cur : (clearTD16 s).cur = s.cur := rfl
@[simp] theorem clearTD16_upc : (clearTD16 s).upc = s.upc := rfl
@[simp] theorem clearTD16_la : (clearTD16 s).la = s.la := rfl
@[simp] theorem clearTD16_lb : (clearTD16 s).lb = s.lb := rfl
@[simp] theorem clearTD16_sh : (clearTD16 s).sh = s.sh := rfl
@[simp] theorem clearTD16_w : (clearTD16 s).w = s.w := rfl
@[simp] theorem clearTD16_cnt : (clearTD16 s).cnt = s.cnt := rfl
@[simp] theorem clearTD16_tmr : (clearTD16 s).tmr = s.tmr := rfl
@[simp] theorem clearTD16_a1 : (clearTD16 s).a1 = s.a1 := rfl
@[simp] theorem clearTD16_a2 : (clearTD16 s).a2 = s.a2 := rfl
@[simp] theorem clearTD16_rest : (clearTD16 s).rest = s.rest := rfl
@[simp] theorem clearTD16_draws : (clearTD16 s).draws = s.draws := rfl
@[simp] theorem clearTD16_drawCount : (clearTD16 s).drawCount = s.drawCount := rfl
@[simp] theorem clearTD16_host : (clearTD16 s).host = s.host := rfl
@[simp] theorem clearTD16_window : (clearTD16 s).window = s.window := rfl
@[simp] theorem clearTD16_rdata : (clearTD16 s).rdata = s.rdata := rfl
@[simp] theorem clearTD16_trace : (clearTD16 s).trace = s.trace := rfl
@[simp] theorem clearTD16_cycles : (clearTD16 s).cycles = s.cycles := rfl

/-! R67: READ_RH and READ_TRH clear. -/

@[simp] theorem clearAllValid_life : (clearAllValid s).life = s.life := rfl
@[simp] theorem clearAllValid_busy : (clearAllValid s).busy = s.busy := rfl
@[simp] theorem clearAllValid_done : (clearAllValid s).done = s.done := rfl
@[simp] theorem clearAllValid_err : (clearAllValid s).err = s.err := rfl
@[simp] theorem clearAllValid_reject : (clearAllValid s).reject = s.reject := rfl
@[simp] theorem clearAllValid_ack1 : (clearAllValid s).ack1 = s.ack1 := rfl
@[simp] theorem clearAllValid_ack2 : (clearAllValid s).ack2 = s.ack2 := rfl
@[simp] theorem clearAllValid_polls : (clearAllValid s).polls = s.polls := rfl
@[simp] theorem clearAllValid_tValid : (clearAllValid s).tValid = false := rfl
@[simp] theorem clearAllValid_rhValid : (clearAllValid s).rhValid = false := rfl
@[simp] theorem clearAllValid_d16Valid : (clearAllValid s).d16Valid = false := rfl
@[simp] theorem clearAllValid_cmdLast : (clearAllValid s).cmdLast = s.cmdLast := rfl
@[simp] theorem clearAllValid_opa : (clearAllValid s).opa = s.opa := rfl
@[simp] theorem clearAllValid_opb : (clearAllValid s).opb = s.opb := rfl
@[simp] theorem clearAllValid_rawT : (clearAllValid s).rawT = s.rawT := rfl
@[simp] theorem clearAllValid_rawH : (clearAllValid s).rawH = s.rawH := rfl
@[simp] theorem clearAllValid_data16 : (clearAllValid s).data16 = s.data16 := rfl
@[simp] theorem clearAllValid_tempC : (clearAllValid s).tempC = s.tempC := rfl
@[simp] theorem clearAllValid_rhC : (clearAllValid s).rhC = s.rhC := rfl
@[simp] theorem clearAllValid_rhNum : (clearAllValid s).rhNum = s.rhNum := rfl
@[simp] theorem clearAllValid_ddir : (clearAllValid s).ddir = s.ddir := rfl
@[simp] theorem clearAllValid_dout : (clearAllValid s).dout = s.dout := rfl
@[simp] theorem clearAllValid_cdir : (clearAllValid s).cdir = s.cdir := rfl
@[simp] theorem clearAllValid_cout : (clearAllValid s).cout = s.cout := rfl
@[simp] theorem clearAllValid_cur : (clearAllValid s).cur = s.cur := rfl
@[simp] theorem clearAllValid_upc : (clearAllValid s).upc = s.upc := rfl
@[simp] theorem clearAllValid_la : (clearAllValid s).la = s.la := rfl
@[simp] theorem clearAllValid_lb : (clearAllValid s).lb = s.lb := rfl
@[simp] theorem clearAllValid_sh : (clearAllValid s).sh = s.sh := rfl
@[simp] theorem clearAllValid_w : (clearAllValid s).w = s.w := rfl
@[simp] theorem clearAllValid_cnt : (clearAllValid s).cnt = s.cnt := rfl
@[simp] theorem clearAllValid_tmr : (clearAllValid s).tmr = s.tmr := rfl
@[simp] theorem clearAllValid_a1 : (clearAllValid s).a1 = s.a1 := rfl
@[simp] theorem clearAllValid_a2 : (clearAllValid s).a2 = s.a2 := rfl
@[simp] theorem clearAllValid_rest : (clearAllValid s).rest = s.rest := rfl
@[simp] theorem clearAllValid_draws : (clearAllValid s).draws = s.draws := rfl
@[simp] theorem clearAllValid_drawCount : (clearAllValid s).drawCount = s.drawCount := rfl
@[simp] theorem clearAllValid_host : (clearAllValid s).host = s.host := rfl
@[simp] theorem clearAllValid_window : (clearAllValid s).window = s.window := rfl
@[simp] theorem clearAllValid_rdata : (clearAllValid s).rdata = s.rdata := rfl
@[simp] theorem clearAllValid_trace : (clearAllValid s).trace = s.trace := rfl
@[simp] theorem clearAllValid_cycles : (clearAllValid s).cycles = s.cycles := rfl

/-! R104: the first acknowledgement sample. -/

@[simp] theorem recordAck1_life (b : Bool) : (recordAck1 b s).life = s.life := rfl
@[simp] theorem recordAck1_busy (b : Bool) : (recordAck1 b s).busy = s.busy := rfl
@[simp] theorem recordAck1_done (b : Bool) : (recordAck1 b s).done = s.done := rfl
@[simp] theorem recordAck1_err (b : Bool) : (recordAck1 b s).err = s.err := rfl
@[simp] theorem recordAck1_reject (b : Bool) : (recordAck1 b s).reject = s.reject := rfl
@[simp] theorem recordAck1_ack1 (b : Bool) : (recordAck1 b s).ack1 = b := rfl
@[simp] theorem recordAck1_ack2 (b : Bool) : (recordAck1 b s).ack2 = s.ack2 := rfl
@[simp] theorem recordAck1_polls (b : Bool) : (recordAck1 b s).polls = s.polls := rfl
@[simp] theorem recordAck1_tValid (b : Bool) : (recordAck1 b s).tValid = s.tValid := rfl
@[simp] theorem recordAck1_rhValid (b : Bool) : (recordAck1 b s).rhValid = s.rhValid := rfl
@[simp] theorem recordAck1_d16Valid (b : Bool) : (recordAck1 b s).d16Valid = s.d16Valid := rfl
@[simp] theorem recordAck1_cmdLast (b : Bool) : (recordAck1 b s).cmdLast = s.cmdLast := rfl
@[simp] theorem recordAck1_opa (b : Bool) : (recordAck1 b s).opa = s.opa := rfl
@[simp] theorem recordAck1_opb (b : Bool) : (recordAck1 b s).opb = s.opb := rfl
@[simp] theorem recordAck1_rawT (b : Bool) : (recordAck1 b s).rawT = s.rawT := rfl
@[simp] theorem recordAck1_rawH (b : Bool) : (recordAck1 b s).rawH = s.rawH := rfl
@[simp] theorem recordAck1_data16 (b : Bool) : (recordAck1 b s).data16 = s.data16 := rfl
@[simp] theorem recordAck1_tempC (b : Bool) : (recordAck1 b s).tempC = s.tempC := rfl
@[simp] theorem recordAck1_rhC (b : Bool) : (recordAck1 b s).rhC = s.rhC := rfl
@[simp] theorem recordAck1_rhNum (b : Bool) : (recordAck1 b s).rhNum = s.rhNum := rfl
@[simp] theorem recordAck1_ddir (b : Bool) : (recordAck1 b s).ddir = s.ddir := rfl
@[simp] theorem recordAck1_dout (b : Bool) : (recordAck1 b s).dout = s.dout := rfl
@[simp] theorem recordAck1_cdir (b : Bool) : (recordAck1 b s).cdir = s.cdir := rfl
@[simp] theorem recordAck1_cout (b : Bool) : (recordAck1 b s).cout = s.cout := rfl
@[simp] theorem recordAck1_cur (b : Bool) : (recordAck1 b s).cur = s.cur := rfl
@[simp] theorem recordAck1_upc (b : Bool) : (recordAck1 b s).upc = s.upc := rfl
@[simp] theorem recordAck1_la (b : Bool) : (recordAck1 b s).la = s.la := rfl
@[simp] theorem recordAck1_lb (b : Bool) : (recordAck1 b s).lb = s.lb := rfl
@[simp] theorem recordAck1_sh (b : Bool) : (recordAck1 b s).sh = s.sh := rfl
@[simp] theorem recordAck1_w (b : Bool) : (recordAck1 b s).w = s.w := rfl
@[simp] theorem recordAck1_cnt (b : Bool) : (recordAck1 b s).cnt = s.cnt := rfl
@[simp] theorem recordAck1_tmr (b : Bool) : (recordAck1 b s).tmr = s.tmr := rfl
@[simp] theorem recordAck1_a1 (b : Bool) : (recordAck1 b s).a1 = b := rfl
@[simp] theorem recordAck1_a2 (b : Bool) : (recordAck1 b s).a2 = s.a2 := rfl
@[simp] theorem recordAck1_rest (b : Bool) : (recordAck1 b s).rest = s.rest := rfl
@[simp] theorem recordAck1_draws (b : Bool) : (recordAck1 b s).draws = s.draws := rfl
@[simp] theorem recordAck1_drawCount (b : Bool) : (recordAck1 b s).drawCount = s.drawCount := rfl
@[simp] theorem recordAck1_host (b : Bool) : (recordAck1 b s).host = s.host := rfl
@[simp] theorem recordAck1_window (b : Bool) : (recordAck1 b s).window = s.window := rfl
@[simp] theorem recordAck1_rdata (b : Bool) : (recordAck1 b s).rdata = s.rdata := rfl
@[simp] theorem recordAck1_trace (b : Bool) : (recordAck1 b s).trace = s.trace := rfl
@[simp] theorem recordAck1_cycles (b : Bool) : (recordAck1 b s).cycles = s.cycles := rfl

/-! R104: the second acknowledgement sample. -/

@[simp] theorem recordAck2_life (b : Bool) : (recordAck2 b s).life = s.life := rfl
@[simp] theorem recordAck2_busy (b : Bool) : (recordAck2 b s).busy = s.busy := rfl
@[simp] theorem recordAck2_done (b : Bool) : (recordAck2 b s).done = s.done := rfl
@[simp] theorem recordAck2_err (b : Bool) : (recordAck2 b s).err = s.err := rfl
@[simp] theorem recordAck2_reject (b : Bool) : (recordAck2 b s).reject = s.reject := rfl
@[simp] theorem recordAck2_ack1 (b : Bool) : (recordAck2 b s).ack1 = s.ack1 := rfl
@[simp] theorem recordAck2_ack2 (b : Bool) : (recordAck2 b s).ack2 = b := rfl
@[simp] theorem recordAck2_polls (b : Bool) : (recordAck2 b s).polls = s.polls := rfl
@[simp] theorem recordAck2_tValid (b : Bool) : (recordAck2 b s).tValid = s.tValid := rfl
@[simp] theorem recordAck2_rhValid (b : Bool) : (recordAck2 b s).rhValid = s.rhValid := rfl
@[simp] theorem recordAck2_d16Valid (b : Bool) : (recordAck2 b s).d16Valid = s.d16Valid := rfl
@[simp] theorem recordAck2_cmdLast (b : Bool) : (recordAck2 b s).cmdLast = s.cmdLast := rfl
@[simp] theorem recordAck2_opa (b : Bool) : (recordAck2 b s).opa = s.opa := rfl
@[simp] theorem recordAck2_opb (b : Bool) : (recordAck2 b s).opb = s.opb := rfl
@[simp] theorem recordAck2_rawT (b : Bool) : (recordAck2 b s).rawT = s.rawT := rfl
@[simp] theorem recordAck2_rawH (b : Bool) : (recordAck2 b s).rawH = s.rawH := rfl
@[simp] theorem recordAck2_data16 (b : Bool) : (recordAck2 b s).data16 = s.data16 := rfl
@[simp] theorem recordAck2_tempC (b : Bool) : (recordAck2 b s).tempC = s.tempC := rfl
@[simp] theorem recordAck2_rhC (b : Bool) : (recordAck2 b s).rhC = s.rhC := rfl
@[simp] theorem recordAck2_rhNum (b : Bool) : (recordAck2 b s).rhNum = s.rhNum := rfl
@[simp] theorem recordAck2_ddir (b : Bool) : (recordAck2 b s).ddir = s.ddir := rfl
@[simp] theorem recordAck2_dout (b : Bool) : (recordAck2 b s).dout = s.dout := rfl
@[simp] theorem recordAck2_cdir (b : Bool) : (recordAck2 b s).cdir = s.cdir := rfl
@[simp] theorem recordAck2_cout (b : Bool) : (recordAck2 b s).cout = s.cout := rfl
@[simp] theorem recordAck2_cur (b : Bool) : (recordAck2 b s).cur = s.cur := rfl
@[simp] theorem recordAck2_upc (b : Bool) : (recordAck2 b s).upc = s.upc := rfl
@[simp] theorem recordAck2_la (b : Bool) : (recordAck2 b s).la = s.la := rfl
@[simp] theorem recordAck2_lb (b : Bool) : (recordAck2 b s).lb = s.lb := rfl
@[simp] theorem recordAck2_sh (b : Bool) : (recordAck2 b s).sh = s.sh := rfl
@[simp] theorem recordAck2_w (b : Bool) : (recordAck2 b s).w = s.w := rfl
@[simp] theorem recordAck2_cnt (b : Bool) : (recordAck2 b s).cnt = s.cnt := rfl
@[simp] theorem recordAck2_tmr (b : Bool) : (recordAck2 b s).tmr = s.tmr := rfl
@[simp] theorem recordAck2_a1 (b : Bool) : (recordAck2 b s).a1 = s.a1 := rfl
@[simp] theorem recordAck2_a2 (b : Bool) : (recordAck2 b s).a2 = b := rfl
@[simp] theorem recordAck2_rest (b : Bool) : (recordAck2 b s).rest = s.rest := rfl
@[simp] theorem recordAck2_draws (b : Bool) : (recordAck2 b s).draws = s.draws := rfl
@[simp] theorem recordAck2_drawCount (b : Bool) : (recordAck2 b s).drawCount = s.drawCount := rfl
@[simp] theorem recordAck2_host (b : Bool) : (recordAck2 b s).host = s.host := rfl
@[simp] theorem recordAck2_window (b : Bool) : (recordAck2 b s).window = s.window := rfl
@[simp] theorem recordAck2_rdata (b : Bool) : (recordAck2 b s).rdata = s.rdata := rfl
@[simp] theorem recordAck2_trace (b : Bool) : (recordAck2 b s).trace = s.trace := rfl
@[simp] theorem recordAck2_cycles (b : Bool) : (recordAck2 b s).cycles = s.cycles := rfl

/-! R108: one poll. -/

@[simp] theorem recordPoll_life : (recordPoll s).life = s.life := rfl
@[simp] theorem recordPoll_busy : (recordPoll s).busy = s.busy := rfl
@[simp] theorem recordPoll_done : (recordPoll s).done = s.done := rfl
@[simp] theorem recordPoll_err : (recordPoll s).err = s.err := rfl
@[simp] theorem recordPoll_reject : (recordPoll s).reject = s.reject := rfl
@[simp] theorem recordPoll_ack1 : (recordPoll s).ack1 = s.ack1 := rfl
@[simp] theorem recordPoll_ack2 : (recordPoll s).ack2 = s.ack2 := rfl
@[simp] theorem recordPoll_polls : (recordPoll s).polls = s.cnt + 1#7 := rfl
@[simp] theorem recordPoll_tValid : (recordPoll s).tValid = s.tValid := rfl
@[simp] theorem recordPoll_rhValid : (recordPoll s).rhValid = s.rhValid := rfl
@[simp] theorem recordPoll_d16Valid : (recordPoll s).d16Valid = s.d16Valid := rfl
@[simp] theorem recordPoll_cmdLast : (recordPoll s).cmdLast = s.cmdLast := rfl
@[simp] theorem recordPoll_opa : (recordPoll s).opa = s.opa := rfl
@[simp] theorem recordPoll_opb : (recordPoll s).opb = s.opb := rfl
@[simp] theorem recordPoll_rawT : (recordPoll s).rawT = s.rawT := rfl
@[simp] theorem recordPoll_rawH : (recordPoll s).rawH = s.rawH := rfl
@[simp] theorem recordPoll_data16 : (recordPoll s).data16 = s.data16 := rfl
@[simp] theorem recordPoll_tempC : (recordPoll s).tempC = s.tempC := rfl
@[simp] theorem recordPoll_rhC : (recordPoll s).rhC = s.rhC := rfl
@[simp] theorem recordPoll_rhNum : (recordPoll s).rhNum = s.rhNum := rfl
@[simp] theorem recordPoll_ddir : (recordPoll s).ddir = s.ddir := rfl
@[simp] theorem recordPoll_dout : (recordPoll s).dout = s.dout := rfl
@[simp] theorem recordPoll_cdir : (recordPoll s).cdir = s.cdir := rfl
@[simp] theorem recordPoll_cout : (recordPoll s).cout = s.cout := rfl
@[simp] theorem recordPoll_cur : (recordPoll s).cur = s.cur := rfl
@[simp] theorem recordPoll_upc : (recordPoll s).upc = s.upc := rfl
@[simp] theorem recordPoll_la : (recordPoll s).la = s.la := rfl
@[simp] theorem recordPoll_lb : (recordPoll s).lb = s.lb := rfl
@[simp] theorem recordPoll_sh : (recordPoll s).sh = s.sh := rfl
@[simp] theorem recordPoll_w : (recordPoll s).w = s.w := rfl
@[simp] theorem recordPoll_cnt : (recordPoll s).cnt = s.cnt + 1#7 := rfl
@[simp] theorem recordPoll_tmr : (recordPoll s).tmr = s.tmr := rfl
@[simp] theorem recordPoll_a1 : (recordPoll s).a1 = s.a1 := rfl
@[simp] theorem recordPoll_a2 : (recordPoll s).a2 = s.a2 := rfl
@[simp] theorem recordPoll_rest : (recordPoll s).rest = s.rest := rfl
@[simp] theorem recordPoll_draws : (recordPoll s).draws = s.draws := rfl
@[simp] theorem recordPoll_drawCount : (recordPoll s).drawCount = s.drawCount := rfl
@[simp] theorem recordPoll_host : (recordPoll s).host = s.host := rfl
@[simp] theorem recordPoll_window : (recordPoll s).window = s.window := rfl
@[simp] theorem recordPoll_rdata : (recordPoll s).rdata = s.rdata := rfl
@[simp] theorem recordPoll_trace : (recordPoll s).trace = s.trace := rfl
@[simp] theorem recordPoll_cycles : (recordPoll s).cycles = s.cycles := rfl

/-! R58: the temperature group. -/

@[simp] theorem commitT_life (r : Raw) : (commitT r s).life = s.life := rfl
@[simp] theorem commitT_busy (r : Raw) : (commitT r s).busy = s.busy := rfl
@[simp] theorem commitT_done (r : Raw) : (commitT r s).done = s.done := rfl
@[simp] theorem commitT_err (r : Raw) : (commitT r s).err = s.err := rfl
@[simp] theorem commitT_reject (r : Raw) : (commitT r s).reject = s.reject := rfl
@[simp] theorem commitT_ack1 (r : Raw) : (commitT r s).ack1 = s.ack1 := rfl
@[simp] theorem commitT_ack2 (r : Raw) : (commitT r s).ack2 = s.ack2 := rfl
@[simp] theorem commitT_polls (r : Raw) : (commitT r s).polls = s.polls := rfl
@[simp] theorem commitT_tValid (r : Raw) : (commitT r s).tValid = true := rfl
@[simp] theorem commitT_rhValid (r : Raw) : (commitT r s).rhValid = s.rhValid := rfl
@[simp] theorem commitT_d16Valid (r : Raw) : (commitT r s).d16Valid = s.d16Valid := rfl
@[simp] theorem commitT_cmdLast (r : Raw) : (commitT r s).cmdLast = s.cmdLast := rfl
@[simp] theorem commitT_opa (r : Raw) : (commitT r s).opa = s.opa := rfl
@[simp] theorem commitT_opb (r : Raw) : (commitT r s).opb = s.opb := rfl
@[simp] theorem commitT_rawT (r : Raw) : (commitT r s).rawT = r := rfl
@[simp] theorem commitT_rawH (r : Raw) : (commitT r s).rawH = s.rawH := rfl
@[simp] theorem commitT_data16 (r : Raw) : (commitT r s).data16 = s.data16 := rfl
@[simp] theorem commitT_tempC (r : Raw) : (commitT r s).tempC = calTemp r := rfl
@[simp] theorem commitT_rhC (r : Raw) : (commitT r s).rhC = s.rhC := rfl
@[simp] theorem commitT_rhNum (r : Raw) : (commitT r s).rhNum = s.rhNum := rfl
@[simp] theorem commitT_ddir (r : Raw) : (commitT r s).ddir = s.ddir := rfl
@[simp] theorem commitT_dout (r : Raw) : (commitT r s).dout = s.dout := rfl
@[simp] theorem commitT_cdir (r : Raw) : (commitT r s).cdir = s.cdir := rfl
@[simp] theorem commitT_cout (r : Raw) : (commitT r s).cout = s.cout := rfl
@[simp] theorem commitT_cur (r : Raw) : (commitT r s).cur = s.cur := rfl
@[simp] theorem commitT_upc (r : Raw) : (commitT r s).upc = s.upc := rfl
@[simp] theorem commitT_la (r : Raw) : (commitT r s).la = s.la := rfl
@[simp] theorem commitT_lb (r : Raw) : (commitT r s).lb = s.lb := rfl
@[simp] theorem commitT_sh (r : Raw) : (commitT r s).sh = s.sh := rfl
@[simp] theorem commitT_w (r : Raw) : (commitT r s).w = s.w := rfl
@[simp] theorem commitT_cnt (r : Raw) : (commitT r s).cnt = s.cnt := rfl
@[simp] theorem commitT_tmr (r : Raw) : (commitT r s).tmr = s.tmr := rfl
@[simp] theorem commitT_a1 (r : Raw) : (commitT r s).a1 = s.a1 := rfl
@[simp] theorem commitT_a2 (r : Raw) : (commitT r s).a2 = s.a2 := rfl
@[simp] theorem commitT_rest (r : Raw) : (commitT r s).rest = s.rest := rfl
@[simp] theorem commitT_draws (r : Raw) : (commitT r s).draws = s.draws := rfl
@[simp] theorem commitT_drawCount (r : Raw) : (commitT r s).drawCount = s.drawCount := rfl
@[simp] theorem commitT_host (r : Raw) : (commitT r s).host = s.host := rfl
@[simp] theorem commitT_window (r : Raw) : (commitT r s).window = s.window := rfl
@[simp] theorem commitT_rdata (r : Raw) : (commitT r s).rdata = s.rdata := rfl
@[simp] theorem commitT_trace (r : Raw) : (commitT r s).trace = s.trace := rfl
@[simp] theorem commitT_cycles (r : Raw) : (commitT r s).cycles = s.cycles := rfl

/-! R58: the humidity group. -/

@[simp] theorem commitRH_life (r : Raw) (t : Int) : (commitRH r t s).life = s.life := rfl
@[simp] theorem commitRH_busy (r : Raw) (t : Int) : (commitRH r t s).busy = s.busy := rfl
@[simp] theorem commitRH_done (r : Raw) (t : Int) : (commitRH r t s).done = s.done := rfl
@[simp] theorem commitRH_err (r : Raw) (t : Int) : (commitRH r t s).err = s.err := rfl
@[simp] theorem commitRH_reject (r : Raw) (t : Int) : (commitRH r t s).reject = s.reject := rfl
@[simp] theorem commitRH_ack1 (r : Raw) (t : Int) : (commitRH r t s).ack1 = s.ack1 := rfl
@[simp] theorem commitRH_ack2 (r : Raw) (t : Int) : (commitRH r t s).ack2 = s.ack2 := rfl
@[simp] theorem commitRH_polls (r : Raw) (t : Int) : (commitRH r t s).polls = s.polls := rfl
@[simp] theorem commitRH_tValid (r : Raw) (t : Int) : (commitRH r t s).tValid = s.tValid := rfl
@[simp] theorem commitRH_rhValid (r : Raw) (t : Int) : (commitRH r t s).rhValid = true := rfl
@[simp] theorem commitRH_d16Valid (r : Raw) (t : Int) : (commitRH r t s).d16Valid = s.d16Valid := rfl
@[simp] theorem commitRH_cmdLast (r : Raw) (t : Int) : (commitRH r t s).cmdLast = s.cmdLast := rfl
@[simp] theorem commitRH_opa (r : Raw) (t : Int) : (commitRH r t s).opa = s.opa := rfl
@[simp] theorem commitRH_opb (r : Raw) (t : Int) : (commitRH r t s).opb = s.opb := rfl
@[simp] theorem commitRH_rawT (r : Raw) (t : Int) : (commitRH r t s).rawT = s.rawT := rfl
@[simp] theorem commitRH_rawH (r : Raw) (t : Int) : (commitRH r t s).rawH = r := rfl
@[simp] theorem commitRH_data16 (r : Raw) (t : Int) : (commitRH r t s).data16 = s.data16 := rfl
@[simp] theorem commitRH_tempC (r : Raw) (t : Int) : (commitRH r t s).tempC = s.tempC := rfl
@[simp] theorem commitRH_rhC (r : Raw) (t : Int) : (commitRH r t s).rhC = BitVec.ofInt 64 (roundHum (humNum r t)) := rfl
@[simp] theorem commitRH_rhNum (r : Raw) (t : Int) : (commitRH r t s).rhNum = BitVec.ofInt 64 (humNum r t) := rfl
@[simp] theorem commitRH_ddir (r : Raw) (t : Int) : (commitRH r t s).ddir = s.ddir := rfl
@[simp] theorem commitRH_dout (r : Raw) (t : Int) : (commitRH r t s).dout = s.dout := rfl
@[simp] theorem commitRH_cdir (r : Raw) (t : Int) : (commitRH r t s).cdir = s.cdir := rfl
@[simp] theorem commitRH_cout (r : Raw) (t : Int) : (commitRH r t s).cout = s.cout := rfl
@[simp] theorem commitRH_cur (r : Raw) (t : Int) : (commitRH r t s).cur = s.cur := rfl
@[simp] theorem commitRH_upc (r : Raw) (t : Int) : (commitRH r t s).upc = s.upc := rfl
@[simp] theorem commitRH_la (r : Raw) (t : Int) : (commitRH r t s).la = s.la := rfl
@[simp] theorem commitRH_lb (r : Raw) (t : Int) : (commitRH r t s).lb = s.lb := rfl
@[simp] theorem commitRH_sh (r : Raw) (t : Int) : (commitRH r t s).sh = s.sh := rfl
@[simp] theorem commitRH_w (r : Raw) (t : Int) : (commitRH r t s).w = s.w := rfl
@[simp] theorem commitRH_cnt (r : Raw) (t : Int) : (commitRH r t s).cnt = s.cnt := rfl
@[simp] theorem commitRH_tmr (r : Raw) (t : Int) : (commitRH r t s).tmr = s.tmr := rfl
@[simp] theorem commitRH_a1 (r : Raw) (t : Int) : (commitRH r t s).a1 = s.a1 := rfl
@[simp] theorem commitRH_a2 (r : Raw) (t : Int) : (commitRH r t s).a2 = s.a2 := rfl
@[simp] theorem commitRH_rest (r : Raw) (t : Int) : (commitRH r t s).rest = s.rest := rfl
@[simp] theorem commitRH_draws (r : Raw) (t : Int) : (commitRH r t s).draws = s.draws := rfl
@[simp] theorem commitRH_drawCount (r : Raw) (t : Int) : (commitRH r t s).drawCount = s.drawCount := rfl
@[simp] theorem commitRH_host (r : Raw) (t : Int) : (commitRH r t s).host = s.host := rfl
@[simp] theorem commitRH_window (r : Raw) (t : Int) : (commitRH r t s).window = s.window := rfl
@[simp] theorem commitRH_rdata (r : Raw) (t : Int) : (commitRH r t s).rdata = s.rdata := rfl
@[simp] theorem commitRH_trace (r : Raw) (t : Int) : (commitRH r t s).trace = s.trace := rfl
@[simp] theorem commitRH_cycles (r : Raw) (t : Int) : (commitRH r t s).cycles = s.cycles := rfl

/-! R58: DATA16. -/

@[simp] theorem commitData16_life (v : Raw) : (commitData16 v s).life = s.life := rfl
@[simp] theorem commitData16_busy (v : Raw) : (commitData16 v s).busy = s.busy := rfl
@[simp] theorem commitData16_done (v : Raw) : (commitData16 v s).done = s.done := rfl
@[simp] theorem commitData16_err (v : Raw) : (commitData16 v s).err = s.err := rfl
@[simp] theorem commitData16_reject (v : Raw) : (commitData16 v s).reject = s.reject := rfl
@[simp] theorem commitData16_ack1 (v : Raw) : (commitData16 v s).ack1 = s.ack1 := rfl
@[simp] theorem commitData16_ack2 (v : Raw) : (commitData16 v s).ack2 = s.ack2 := rfl
@[simp] theorem commitData16_polls (v : Raw) : (commitData16 v s).polls = s.polls := rfl
@[simp] theorem commitData16_tValid (v : Raw) : (commitData16 v s).tValid = s.tValid := rfl
@[simp] theorem commitData16_rhValid (v : Raw) : (commitData16 v s).rhValid = s.rhValid := rfl
@[simp] theorem commitData16_d16Valid (v : Raw) : (commitData16 v s).d16Valid = true := rfl
@[simp] theorem commitData16_cmdLast (v : Raw) : (commitData16 v s).cmdLast = s.cmdLast := rfl
@[simp] theorem commitData16_opa (v : Raw) : (commitData16 v s).opa = s.opa := rfl
@[simp] theorem commitData16_opb (v : Raw) : (commitData16 v s).opb = s.opb := rfl
@[simp] theorem commitData16_rawT (v : Raw) : (commitData16 v s).rawT = s.rawT := rfl
@[simp] theorem commitData16_rawH (v : Raw) : (commitData16 v s).rawH = s.rawH := rfl
@[simp] theorem commitData16_data16 (v : Raw) : (commitData16 v s).data16 = v := rfl
@[simp] theorem commitData16_tempC (v : Raw) : (commitData16 v s).tempC = s.tempC := rfl
@[simp] theorem commitData16_rhC (v : Raw) : (commitData16 v s).rhC = s.rhC := rfl
@[simp] theorem commitData16_rhNum (v : Raw) : (commitData16 v s).rhNum = s.rhNum := rfl
@[simp] theorem commitData16_ddir (v : Raw) : (commitData16 v s).ddir = s.ddir := rfl
@[simp] theorem commitData16_dout (v : Raw) : (commitData16 v s).dout = s.dout := rfl
@[simp] theorem commitData16_cdir (v : Raw) : (commitData16 v s).cdir = s.cdir := rfl
@[simp] theorem commitData16_cout (v : Raw) : (commitData16 v s).cout = s.cout := rfl
@[simp] theorem commitData16_cur (v : Raw) : (commitData16 v s).cur = s.cur := rfl
@[simp] theorem commitData16_upc (v : Raw) : (commitData16 v s).upc = s.upc := rfl
@[simp] theorem commitData16_la (v : Raw) : (commitData16 v s).la = s.la := rfl
@[simp] theorem commitData16_lb (v : Raw) : (commitData16 v s).lb = s.lb := rfl
@[simp] theorem commitData16_sh (v : Raw) : (commitData16 v s).sh = s.sh := rfl
@[simp] theorem commitData16_w (v : Raw) : (commitData16 v s).w = s.w := rfl
@[simp] theorem commitData16_cnt (v : Raw) : (commitData16 v s).cnt = s.cnt := rfl
@[simp] theorem commitData16_tmr (v : Raw) : (commitData16 v s).tmr = s.tmr := rfl
@[simp] theorem commitData16_a1 (v : Raw) : (commitData16 v s).a1 = s.a1 := rfl
@[simp] theorem commitData16_a2 (v : Raw) : (commitData16 v s).a2 = s.a2 := rfl
@[simp] theorem commitData16_rest (v : Raw) : (commitData16 v s).rest = s.rest := rfl
@[simp] theorem commitData16_draws (v : Raw) : (commitData16 v s).draws = s.draws := rfl
@[simp] theorem commitData16_drawCount (v : Raw) : (commitData16 v s).drawCount = s.drawCount := rfl
@[simp] theorem commitData16_host (v : Raw) : (commitData16 v s).host = s.host := rfl
@[simp] theorem commitData16_window (v : Raw) : (commitData16 v s).window = s.window := rfl
@[simp] theorem commitData16_rdata (v : Raw) : (commitData16 v s).rdata = s.rdata := rfl
@[simp] theorem commitData16_trace (v : Raw) : (commitData16 v s).trace = s.trace := rfl
@[simp] theorem commitData16_cycles (v : Raw) : (commitData16 v s).cycles = s.cycles := rfl

/-! R174: hardware reset. -/

@[simp] theorem hardReset_life : (hardReset s).life = State.reset.life := rfl
@[simp] theorem hardReset_busy : (hardReset s).busy = State.reset.busy := rfl
@[simp] theorem hardReset_done : (hardReset s).done = State.reset.done := rfl
@[simp] theorem hardReset_err : (hardReset s).err = State.reset.err := rfl
@[simp] theorem hardReset_reject : (hardReset s).reject = State.reset.reject := rfl
@[simp] theorem hardReset_ack1 : (hardReset s).ack1 = State.reset.ack1 := rfl
@[simp] theorem hardReset_ack2 : (hardReset s).ack2 = State.reset.ack2 := rfl
@[simp] theorem hardReset_polls : (hardReset s).polls = State.reset.polls := rfl
@[simp] theorem hardReset_tValid : (hardReset s).tValid = State.reset.tValid := rfl
@[simp] theorem hardReset_rhValid : (hardReset s).rhValid = State.reset.rhValid := rfl
@[simp] theorem hardReset_d16Valid : (hardReset s).d16Valid = State.reset.d16Valid := rfl
@[simp] theorem hardReset_cmdLast : (hardReset s).cmdLast = State.reset.cmdLast := rfl
@[simp] theorem hardReset_opa : (hardReset s).opa = State.reset.opa := rfl
@[simp] theorem hardReset_opb : (hardReset s).opb = State.reset.opb := rfl
@[simp] theorem hardReset_rawT : (hardReset s).rawT = State.reset.rawT := rfl
@[simp] theorem hardReset_rawH : (hardReset s).rawH = State.reset.rawH := rfl
@[simp] theorem hardReset_data16 : (hardReset s).data16 = State.reset.data16 := rfl
@[simp] theorem hardReset_tempC : (hardReset s).tempC = State.reset.tempC := rfl
@[simp] theorem hardReset_rhC : (hardReset s).rhC = State.reset.rhC := rfl
@[simp] theorem hardReset_rhNum : (hardReset s).rhNum = State.reset.rhNum := rfl
@[simp] theorem hardReset_ddir : (hardReset s).ddir = State.reset.ddir := rfl
@[simp] theorem hardReset_dout : (hardReset s).dout = State.reset.dout := rfl
@[simp] theorem hardReset_cdir : (hardReset s).cdir = State.reset.cdir := rfl
@[simp] theorem hardReset_cout : (hardReset s).cout = State.reset.cout := rfl
@[simp] theorem hardReset_cur : (hardReset s).cur = State.reset.cur := rfl
@[simp] theorem hardReset_upc : (hardReset s).upc = State.reset.upc := rfl
@[simp] theorem hardReset_la : (hardReset s).la = State.reset.la := rfl
@[simp] theorem hardReset_lb : (hardReset s).lb = State.reset.lb := rfl
@[simp] theorem hardReset_sh : (hardReset s).sh = State.reset.sh := rfl
@[simp] theorem hardReset_w : (hardReset s).w = State.reset.w := rfl
@[simp] theorem hardReset_cnt : (hardReset s).cnt = State.reset.cnt := rfl
@[simp] theorem hardReset_tmr : (hardReset s).tmr = State.reset.tmr := rfl
@[simp] theorem hardReset_a1 : (hardReset s).a1 = State.reset.a1 := rfl
@[simp] theorem hardReset_a2 : (hardReset s).a2 = State.reset.a2 := rfl
@[simp] theorem hardReset_rest : (hardReset s).rest = State.reset.rest := rfl
@[simp] theorem hardReset_draws : (hardReset s).draws = s.draws := rfl
@[simp] theorem hardReset_drawCount : (hardReset s).drawCount = s.drawCount := rfl
@[simp] theorem hardReset_host : (hardReset s).host = s.host := rfl
@[simp] theorem hardReset_window : (hardReset s).window = s.window := rfl
@[simp] theorem hardReset_rdata : (hardReset s).rdata = s.rdata := rfl
@[simp] theorem hardReset_trace : (hardReset s).trace = State.reset.trace := rfl
@[simp] theorem hardReset_cycles : (hardReset s).cycles = State.reset.cycles := rfl

end Sys2Proof.Machine
end

