-- ==== Sys2Proof/Laws/Ops.lean ====
section
/-! SUPPORT. One lemma per shared operation that says everything it can do; later proofs cite these and do not unfold the
operations. -/

namespace Sys2Proof.Machine

/-! ## Guard -/

theorem codeFault_eq_none_iff (s : State) : codeFault s = none ↔ s.life ≠ 3#2 ∧ s.err.toNat ≤ 5 := by
  have h : 5#4 < s.err ↔ ¬ s.err.toNat ≤ 5 := by rw [BitVec.lt_def]; simp
  unfold codeFault
  by_cases h1 : s.life = 3#2 <;> by_cases h2 : s.err.toNat ≤ 5 <;> simp [h1, h2, h]

theorem guarded_of_legal {s : State} {k : State → Host.Outcome State Fault Refusal} (h1 : s.life ≠ 3#2)
    (h2 : s.err.toNat ≤ 5) : guarded s k = k s := by
  simp [guarded, (codeFault_eq_none_iff s).2 ⟨h1, h2⟩]

/-- What `guarded` can answer: a fault of an illegal code, or what it guards. -/
theorem guarded_cases (s : State) (k : State → Host.Outcome State Fault Refusal) :
    (s.life = 3#2 ∧ guarded s k = .fault .lifeThree)
      ∨ (s.life ≠ 3#2 ∧ 5 < s.err.toNat ∧ guarded s k = .fault .reservedErrCode)
      ∨ (s.life ≠ 3#2 ∧ s.err.toNat ≤ 5 ∧ guarded s k = k s) := by
  by_cases h1 : s.life = 3#2
  · exact .inl ⟨h1, by simp [guarded, codeFault, h1]⟩
  · by_cases h2 : s.err.toNat ≤ 5
    · exact .inr (.inr ⟨h1, h2, guarded_of_legal h1 h2⟩)
    · have h : 5#4 < s.err := by rw [BitVec.lt_def]; simpa using h2
      exact .inr (.inl ⟨h1, by omega, by simp [guarded, codeFault, h1, h]⟩)

theorem guarded_next {s t : State} {k : State → Host.Outcome State Fault Refusal} (h : guarded s k = .next t) :
    s.life ≠ 3#2 ∧ s.err.toNat ≤ 5 ∧ k s = .next t := by
  rcases guarded_cases s k with ⟨_, h'⟩ | ⟨_, _, h'⟩ | ⟨h1, h2, h'⟩
  · simp [h'] at h
  · simp [h'] at h
  · exact ⟨h1, h2, h' ▸ h⟩

/-! ## One step of the sequencer -/

/-- Everything `conclude` can do: abort, finish, or go on. -/
theorem conclude_cases (s : State) (f : Flow) :
    (∃ e, f = .raise e ∧ conclude (s, f) = complete e s)
      ∨ (f = .go [] ∧ conclude (s, f) = complete errNone s)
      ∨ (∃ i r, f = .go (i :: r) ∧ conclude (s, f) = goOn (i :: r) s) := by
  rcases f with rest | e
  · rcases rest with _ | ⟨i, r⟩
    · exact .inr (.inl ⟨rfl, rfl⟩)
    · exact .inr (.inr ⟨i, r, rfl, rfl⟩)
  · exact .inl ⟨e, rfl, rfl⟩

/-- Everything a sequencer step can do (R82, R97). -/
theorem microStep_next_iff (s t : State) :
    microStep s = .next t ↔ ∃ i r, s.rest = i :: r ∧ opFault i.op s = none ∧ t = advance i r s := by
  unfold microStep
  rcases hr : s.rest with _ | ⟨i, r⟩
  · simp
  · rcases hf : opFault i.op s with _ | f <;> simp [hf, eq_comm]

theorem microStep_of_rest {s : State} {i : MicroInstr} {r : List MicroInstr} (hr : s.rest = i :: r)
    (hf : opFault i.op s = none) : microStep s = .next (advance i r s) := by
  simp [microStep, hr, hf]

/-- A sequencer step refuses nothing. -/
theorem microStep_ne_refused (s : State) (x : Refusal) : microStep s ≠ .refused x := by
  unfold microStep
  rcases s.rest with _ | ⟨i, r⟩
  · simp
  · rcases h : opFault i.op s with _ | f <;> simp [h]

/-! ## Several steps -/

@[simp] theorem andThen_next (s : State) (k : State → Host.Outcome State Fault Refusal) : andThen (.next s) k = k s := rfl

@[simp] theorem andThen_fault (f : Fault) (k : State → Host.Outcome State Fault Refusal) :
    andThen (.fault f) k = .fault f := rfl

@[simp] theorem andThen_refused (r : Refusal) (k : State → Host.Outcome State Fault Refusal) :
    andThen (.refused r) k = .refused r := rfl

theorem andThen_eq_next {o : Host.Outcome State Fault Refusal} {k : State → Host.Outcome State Fault Refusal} {t : State}
    (h : andThen o k = .next t) : ∃ s, o = .next s ∧ k s = .next t := by
  rcases o with s | f | r
  · exact ⟨s, rfl, h⟩
  · simp at h
  · simp at h

@[simp] theorem runSeq_zero (s : State) : runSeq 0 s = .next s := rfl

/-- "While idle it takes no step" (R75). -/
theorem runSeq_idle {s : State} (n : Nat) (h : s.busy = false) : runSeq n s = .next s := by
  cases n <;> simp [runSeq, h]

theorem runSeq_busy {s : State} (n : Nat) (h : s.busy = true) :
    runSeq (n + 1) s = andThen (microStep s) (runSeq n) := by
  simp [runSeq, h]

theorem runSeq_cons {s : State} {i : MicroInstr} {r : List MicroInstr} (n : Nat) (hb : s.busy = true)
    (hr : s.rest = i :: r) (hf : opFault i.op s = none) : runSeq (n + 1) s = runSeq n (advance i r s) := by
  rw [runSeq_busy n hb, microStep_of_rest hr hf, andThen_next]

theorem runSeq_ne_refused (n : Nat) (s : State) (x : Refusal) : runSeq n s ≠ .refused x := by
  induction n generalizing s with
  | zero => simp
  | succ n ih =>
    by_cases hb : s.busy = true
    · rw [runSeq_busy n hb]
      rcases h : microStep s with s' | f | r
      · exact ih s'
      · simp
      · exact absurd h (microStep_ne_refused s r)
    · simp [runSeq_idle _ (Bool.eq_false_iff.2 hb)]

/-- A run of m + n steps is a run of m steps and then one of n: a host access may fall between any two (R59, R82). -/
theorem runSeq_add (m n : Nat) (s : State) :
    runSeq (m + n) s = andThen (runSeq m s) (runSeq n) := by
  induction m generalizing s with
  | zero => simp
  | succ m ih =>
    by_cases hb : s.busy = true
    · rw [Nat.succ_add_eq_add_succ, Nat.add_succ, runSeq_busy _ hb, runSeq_busy _ hb]
      rcases microStep s with s' | f | r
      · exact ih s'
      · rfl
      · rfl
    · have hb' := Bool.eq_false_iff.2 hb
      simp [runSeq_idle _ hb']

/-- A property that every sequencer step keeps holds after any number of them. -/
theorem runSeq_induct {P : State → Prop} (h : ∀ s t, P s → s.busy = true → microStep s = .next t → P t) (n : Nat)
    {s t : State} (hs : P s) (hr : runSeq n s = .next t) : P t := by
  induction n generalizing s with
  | zero => simp at hr; exact hr ▸ hs
  | succ n ih =>
    by_cases hb : s.busy = true
    · rw [runSeq_busy n hb] at hr
      rcases hm : microStep s with s' | f | r
      · exact ih (h s s' hs hb hm) (by simpa [hm] using hr)
      · simp [hm] at hr
      · simp [hm] at hr
    · rw [runSeq_idle _ (Bool.eq_false_iff.2 hb)] at hr
      cases hr; exact hs

/-! ## Presenting a command -/

theorem lifecycleGate_cases (k : Instr) (life : LifeCode) :
    lifecycleGate k life = .runs ∨ lifecycleGate k life = .noOp ∨ lifecycleGate k life = .lifecycle := by
  rcases lifecycleGate k life <;> simp

/-- A command that its gate lets run: it starts, and the sequencer takes the steps of the window (R78, R81). -/
theorem command_runs {k : Instr} {g : Option Stage} {prep : State → State} {routine : State → List MicroInstr} {s : State}
    (h1 : s.life ≠ 3#2) (h2 : s.err.toNat ≤ 5) (hb : s.busy = false) (hg : lifecycleGate k s.life = .runs) :
    command k g prep routine s =
      runSeq s.window
        (start k g (routine (prep (acceptCommon (encode k) s))) (prep (acceptCommon (encode k) s))) := by
  simp [command, guarded_of_legal h1 h2, present, hb, accept, hg]

/-- A command written while BUSY is rejected, and the running command goes on (R77). -/
theorem command_busy {k : Instr} {g : Option Stage} {prep : State → State} {routine : State → List MicroInstr} {s : State}
    (h1 : s.life ≠ 3#2) (h2 : s.err.toNat ≤ 5) (hb : s.busy = true) :
    command k g prep routine s = runSeq s.window (markReject s) := by
  simp [command, guarded_of_legal h1 h2, present, hb]

/-- A command that its lifecycle does not allow completes at once with LIFECYCLE (R80). -/
theorem command_lifecycle {k : Instr} {g : Option Stage} {prep : State → State} {routine : State → List MicroInstr}
    {s : State} (h1 : s.life ≠ 3#2) (h2 : s.err.toNat ≤ 5) (hb : s.busy = false)
    (hg : lifecycleGate k s.life = .lifecycle) :
    command k g prep routine s = .next (completeNow errLifecycle (acceptCommon (encode k) s)) := by
  simp [command, guarded_of_legal h1 h2, present, hb, accept, hg, runSeq_idle]

/-- CLOSE in CLOSED completes at once with NONE (R80, R141). -/
theorem command_noOp {k : Instr} {g : Option Stage} {prep : State → State} {routine : State → List MicroInstr}
    {s : State} (h1 : s.life ≠ 3#2) (h2 : s.err.toNat ≤ 5) (hb : s.busy = false)
    (hg : lifecycleGate k s.life = .noOp) :
    command k g prep routine s = .next (completeNow errNone (acceptCommon (encode k) s)) := by
  simp [command, guarded_of_legal h1 h2, present, hb, accept, hg, runSeq_idle]

/-- Whenever a command answers a next state, it does so by a run of the sequencer from what presenting it left. -/
theorem command_next {k : Instr} {g : Option Stage} {prep : State → State} {routine : State → List MicroInstr}
    {s t : State} (h : command k g prep routine s = .next t) :
    s.life ≠ 3#2 ∧ s.err.toNat ≤ 5 ∧ runSeq s.window (present k g prep routine s) = .next t :=
  guarded_next h

/-! ## The commands -/

theorem exec_openCmd (a : Code) (s : State) :
    exec (.openCmd a) s = command (.openCmd a) none id (fun _ => openRoutine) s := rfl

theorem exec_closeCmd (a : Code) (s : State) :
    exec (.closeCmd a) s = command (.closeCmd a) none id (fun _ => closeRoutine) s := rfl

theorem exec_resetCmd (a : Code) (s : State) :
    exec (.resetCmd a) s = command (.resetCmd a) none id (fun _ => connReset) s := rfl

theorem exec_readT (a : Code) (s : State) :
    exec (.readT a) s = command (.readT a) (some .temperature) clearTD16 (fun _ => readTRoutine) s := rfl

theorem exec_readRH (a : Code) (s : State) :
    exec (.readRH a) s = command (.readRH a) (some .temperature) clearAllValid (fun _ => readTRHRoutine) s := rfl

theorem exec_readTRH (a : Code) (s : State) :
    exec (.readTRH a) s = command (.readTRH a) (some .temperature) clearAllValid (fun _ => readTRHRoutine) s := rfl

theorem exec_engSend (a : Code) (s : State) :
    exec (.engSend a) s = command (.engSend a) none (latchCode a) (fun s => sendCmd (wireCode s)) s := rfl

theorem exec_engWait (a : Code) (s : State) :
    exec (.engWait a) s = command (.engWait a) none id (fun _ => waitReady) s := rfl

theorem exec_engGet16 (a : Code) (s : State) :
    exec (.engGet16 a) s = command (.engGet16 a) none clearD16 (fun _ => getData16) s := rfl

theorem exec_engSkipCrc (a : Code) (s : State) :
    exec (.engSkipCrc a) s = command (.engSkipCrc a) none id (fun _ => skipCrc) s := rfl

theorem exec_calT (a : Code) (s : State) :
    exec (.calT a) s = command (.calT a) none (fun s => clearT (latchA s)) (fun _ => [plain (.calc .calT)]) s := rfl

theorem exec_calRH (a : Code) (s : State) :
    exec (.calRH a) s = command (.calRH a) none (fun s => clearRH (latchAB s)) (fun _ => [plain (.calc .calRH)]) s := rfl

/-- Every command is a presentation of its own word (R76). -/
theorem exec_eq_command (i : Instr) (s : State) :
    ∃ g prep routine, exec i s = command i g prep routine s := by
  cases i <;> exact ⟨_, _, _, rfl⟩

/-- A command written while BUSY (R77), whichever it is. -/
theorem exec_busy (i : Instr) {s : State} (h1 : s.life ≠ 3#2) (h2 : s.err.toNat ≤ 5) (hb : s.busy = true) :
    exec i s = runSeq s.window (markReject s) := by
  obtain ⟨g, prep, routine, h⟩ := exec_eq_command i s
  rw [h, command_busy h1 h2 hb]

end Sys2Proof.Machine
end

