-- ==== Sys2Proof/Laws/PerInstr.lean ====
section
/-! SUPPORT. The family LegalWord: what the word of a command looks like (R65, R68), one lemma per constructor of `Instr`. -/

namespace Sys2Proof.Laws

/-- The word of a command is legal: its reserved fields are zero, OP and ARG8 are where R65 puts them, and it meets the match
and mask of R68. -/
def LegalWord.Statement (i : Instr) : Prop :=
  fieldRsv0 (encode i) = 0#4 ∧ fieldRsv1 (encode i) = 0#16 ∧ fieldOp (encode i) = i.opcode
    ∧ fieldArg8 (encode i) = i.arg8 ∧ encode i &&& 0xFFFF00FF#32 = i.opcode.setWidth 32

theorem LegalWord.fields (o : BitVec 4) (a : Code) :
    fieldRsv0 (0#16 ++ a ++ 0#4 ++ o) = 0#4 ∧ fieldRsv1 (0#16 ++ a ++ 0#4 ++ o) = 0#16
      ∧ fieldOp (0#16 ++ a ++ 0#4 ++ o) = o ∧ fieldArg8 (0#16 ++ a ++ 0#4 ++ o) = a
      ∧ (0#16 ++ a ++ 0#4 ++ o) &&& 0xFFFF00FF#32 = o.setWidth 32 := by
  revert o a
  decide +kernel

theorem LegalWord.openCmd (a : Code) : LegalWord.Statement (.openCmd a) := LegalWord.fields _ _
theorem LegalWord.closeCmd (a : Code) : LegalWord.Statement (.closeCmd a) := LegalWord.fields _ _
theorem LegalWord.resetCmd (a : Code) : LegalWord.Statement (.resetCmd a) := LegalWord.fields _ _
theorem LegalWord.readT (a : Code) : LegalWord.Statement (.readT a) := LegalWord.fields _ _
theorem LegalWord.readRH (a : Code) : LegalWord.Statement (.readRH a) := LegalWord.fields _ _
theorem LegalWord.readTRH (a : Code) : LegalWord.Statement (.readTRH a) := LegalWord.fields _ _
theorem LegalWord.engSend (c : Code) : LegalWord.Statement (.engSend c) := LegalWord.fields _ _
theorem LegalWord.engWait (a : Code) : LegalWord.Statement (.engWait a) := LegalWord.fields _ _
theorem LegalWord.engGet16 (a : Code) : LegalWord.Statement (.engGet16 a) := LegalWord.fields _ _
theorem LegalWord.engSkipCrc (a : Code) : LegalWord.Statement (.engSkipCrc a) := LegalWord.fields _ _
theorem LegalWord.calT (a : Code) : LegalWord.Statement (.calT a) := LegalWord.fields _ _
theorem LegalWord.calRH (a : Code) : LegalWord.Statement (.calRH a) := LegalWord.fields _ _

end Sys2Proof.Laws
end

