-- ==== Sys2Proof/Laws/Run.lean ====
section
/-! SUPPORT. How micro-programs run: a straight-line piece of a routine has one total effect on the state, which depends on
neither the window nor what follows it. The effect of each routine of 41_protocol_engine.md is given once, in closed form. -/

namespace Sys2Proof.Machine

/-! ## Draws -/

@[simp] theorem drawAt_skipDraws (s : State) (m n : Nat) : (s.skipDraws m).drawAt n = s.drawAt (m + n) := by
  simp [State.drawAt, State.skipDraws, Nat.add_assoc]

/-- The draws depend on the environment's fields only. -/
theorem drawAt_congr {s t : State} (hd : t.draws = s.draws) (hc : t.drawCount = s.drawCount) (n : Nat) :
    t.drawAt n = s.drawAt n := by
  simp [State.drawAt, hd, hc]

theorem drawAt_drop {s t : State} {m : Nat} (hd : t.draws = s.draws.drop m) (hc : t.drawCount = s.drawCount + m)
    (n : Nat) : t.drawAt n = s.drawAt (m + n) := by
  simp [State.drawAt, hd, hc, Nat.add_assoc]

theorem drawList_succ (s : State) (n len : Nat) :
    s.drawList n (len + 1) = s.drawAt n :: s.drawList (n + 1) len := by
  simp [State.drawList, List.range_succ_eq_map, Function.comp_def, Nat.add_assoc, Nat.add_comm 1]

theorem drawList_drop {s t : State} {m : Nat} (hd : t.draws = s.draws.drop m) (hc : t.drawCount = s.drawCount + m)
    (n len : Nat) : t.drawList n len = s.drawList (m + n) len := by
  simp [State.drawList, drawAt_drop hd hc, Nat.add_assoc]

@[simp] theorem drawList_length (s : State) (n len : Nat) : (s.drawList n len).length = len := by
  simp [State.drawList]

/-- States with the same environment answer the same draws. -/
theorem draws_congr {s t : State} (hd : t.draws = s.draws) (hc : t.drawCount = s.drawCount) :
    t.drawAt = s.drawAt ∧ t.drawList = s.drawList ∧ t.drawnWord = s.drawnWord ∧ t.wireMeasure = s.wireMeasure
      ∧ t.readyAfter = s.readyAfter ∧ t.neverReady = s.neverReady ∧ t.acked = s.acked := by
  have h : t.drawAt = s.drawAt := funext fun n => drawAt_congr hd hc n
  have hl : t.drawList = s.drawList := by funext n len; simp [State.drawList, h]
  refine ⟨h, hl, ?_, ?_, ?_, ?_, ?_⟩
  · funext n; simp [State.drawnWord, h]
  · funext c n k; simp [State.wireMeasure, h, hl]
  · funext n k; simp [State.readyAfter, h]
  · funext n; simp [State.neverReady, h]
  · funext n; simp [State.acked, h]

@[simp] theorem start_drawAt (k : Instr) (g : Option Stage) (r : List MicroInstr) (s : State) (n : Nat) :
    (start k g r s).drawAt n = s.drawAt n := rfl
@[simp] theorem acceptCommon_drawAt (v : Word) (s : State) (n : Nat) : (acceptCommon v s).drawAt n = s.drawAt n := rfl
@[simp] theorem latchCode_drawAt (c : Code) (s : State) (n : Nat) : (latchCode c s).drawAt n = s.drawAt n := rfl
@[simp] theorem clearD16_drawAt (s : State) (n : Nat) : (clearD16 s).drawAt n = s.drawAt n := rfl
@[simp] theorem clearTD16_drawAt (s : State) (n : Nat) : (clearTD16 s).drawAt n = s.drawAt n := rfl
@[simp] theorem clearAllValid_drawAt (s : State) (n : Nat) : (clearAllValid s).drawAt n = s.drawAt n := rfl

/-! ## Straight-line pieces -/

/-- The posts after which the pseudocode always goes on to what follows. -/
def Post.straight : Post → Bool
  | .ack2 => false
  | .poll => false
  | .grantData => false
  | .grantSck _ => false
  | .none => true
  | .clearCnt => true
  | .countUp => true
  | .clearShift => true
  | .shiftBit => true
  | .takeMsb => true
  | .takeLsb => true
  | .ack1 => true
  | .lifeReady => true
  | .lifeClosed => true
  | .enterStageH => true

/-- The pins let every micro-operation of a piece be performed (R86, R89), from the directions given. -/
def enabledFrom : List MicroInstr → Bool → Bool → Bool
  | [], _, _ => true
  | i :: p, ddir, cdir =>
    (match i.op with
      | .drv .data _ => ddir
      | .drv .sck _ => cdir
      | .sample => !ddir
      | .dir _ _ => true
      | .settle => true
      | .pollDly => true
      | .grant _ => true
      | .calc _ => true) && enabledFrom p (ddirAfter i.op ddir) (cdirAfter i.op cdir)

/-- What one step of a straight-line piece writes. -/
def effect (i : MicroInstr) (s : State) : State :=
  (applyPost i.post (opBit i.op s) [] (count i.op (opBit i.op s) (applyOp i.op s))).1

/-- What a straight-line piece writes. -/
def effects (p : List MicroInstr) (s : State) : State := p.foldl (fun s i => effect i s) s

@[simp] theorem effects_nil (s : State) : effects [] s = s := rfl

@[simp] theorem effects_cons (i : MicroInstr) (p : List MicroInstr) (s : State) :
    effects (i :: p) s = effects p (effect i s) := rfl

@[simp] theorem effects_append (p q : List MicroInstr) (s : State) :
    effects (p ++ q) s = effects q (effects p s) := by
  simp [effects]

/-- The state a step leaves does not depend on what follows it, and how it goes on only where it decides. -/
theorem applyPost_straight {p : Post} (h : p.straight = true) (b : Bool) (rest : List MicroInstr) (s : State) :
    applyPost p b rest s = ((applyPost p b [] s).1, .go rest) := by
  cases p <;> simp_all [Post.straight, applyPost]

theorem applyPost_fst (p : Post) (b : Bool) (rest : List MicroInstr) (s : State) :
    (applyPost p b rest s).1 = (applyPost p b [] s).1 := by
  cases p <;> rfl

theorem opBit_rest (op : MicroOp) (s : State) (r : List MicroInstr) : opBit op (goOn r s) = opBit op s := by
  cases op <;> rfl

theorem effect_rest (i : MicroInstr) (s : State) (r : List MicroInstr) :
    effect i (goOn r s) = goOn r (effect i s) := by
  rcases i with ⟨op, post⟩
  unfold effect
  rw [opBit_rest]
  rcases op with ⟨p, m⟩ | ⟨p, v⟩ | _ | _ | _ | p | k
  · cases p <;> cases post <;> rfl
  · cases p <;> cases post <;> rfl
  · cases post <;> rfl
  · cases post <;> rfl
  · cases post <;> rfl
  · cases post <;> rfl
  · cases k <;> cases post <;> rfl

theorem effects_rest (p : List MicroInstr) (s : State) (r : List MicroInstr) :
    effects p (goOn r s) = goOn r (effects p s) := by
  induction p generalizing s with
  | nil => rfl
  | cons i p ih => rw [effects_cons, effects_cons, effect_rest, ih]

@[simp] theorem effect_busy (i : MicroInstr) (s : State) : (effect i s).busy = s.busy := by
  rcases i with ⟨op, post⟩
  rcases op with ⟨p, m⟩ | ⟨p, v⟩ | _ | _ | _ | p | k
  · cases p <;> cases post <;> rfl
  · cases p <;> cases post <;> rfl
  · cases post <;> rfl
  · cases post <;> rfl
  · cases post <;> rfl
  · cases post <;> rfl
  · cases k <;> cases post <;> rfl

theorem effect_ddir (i : MicroInstr) (s : State) : (effect i s).ddir = ddirAfter i.op s.ddir := by
  rcases i with ⟨op, post⟩
  rcases op with ⟨p, m⟩ | ⟨p, v⟩ | _ | _ | _ | p | k
  · cases p <;> cases post <;> rfl
  · cases p <;> cases post <;> rfl
  · cases post <;> rfl
  · cases post <;> rfl
  · cases post <;> rfl
  · cases post <;> rfl
  · cases k <;> cases post <;> rfl

theorem effect_cdir (i : MicroInstr) (s : State) : (effect i s).cdir = cdirAfter i.op s.cdir := by
  rcases i with ⟨op, post⟩
  rcases op with ⟨p, m⟩ | ⟨p, v⟩ | _ | _ | _ | p | k
  · cases p <;> cases post <;> rfl
  · cases p <;> cases post <;> rfl
  · cases post <;> rfl
  · cases post <;> rfl
  · cases post <;> rfl
  · cases post <;> rfl
  · cases k <;> cases post <;> rfl

theorem opFault_of_enabled {i : MicroInstr} {p : List MicroInstr} {s : State}
    (h : enabledFrom (i :: p) s.ddir s.cdir = true) : opFault i.op s = none := by
  rcases i with ⟨op, post⟩
  rcases op with ⟨p, m⟩ | ⟨p, v⟩ | _ | _ | _ | p | k
  · rfl
  · cases p <;> simp_all [enabledFrom, opFault]
  all_goals simp_all [enabledFrom, opFault]

/-- One straight step with more to come. -/
theorem advance_straight {i : MicroInstr} (h : i.post.straight = true) (j : MicroInstr) (r : List MicroInstr)
    (s : State) : advance i (j :: r) s = goOn (j :: r) (effect i s) := by
  unfold advance effect
  rw [applyPost_straight h]
  rfl

/-- One straight step with nothing to come: the command finishes (R83). -/
theorem advance_last {i : MicroInstr} (h : i.post.straight = true) (s : State) :
    advance i [] s = complete errNone (effect i s) := by
  unfold advance effect
  rw [applyPost_straight h]
  rfl

/-- A straight-line piece runs through, and the run goes on with what follows it. -/
theorem run_straight {p : List MicroInstr} {j : MicroInstr} {r : List MicroInstr} (n : Nat) {s : State}
    (hb : s.busy = true) (hr : s.rest = p ++ j :: r) (hp : p.all (fun i => i.post.straight) = true)
    (he : enabledFrom p s.ddir s.cdir = true) :
    runSeq (n + p.length) s = runSeq n (goOn (j :: r) (effects p s)) := by
  induction p generalizing s with
  | nil =>
    have : s = goOn (j :: r) s := by
      rw [← List.nil_append (j :: r), ← hr]
      rfl
    simpa using congrArg (runSeq n) this
  | cons i p ih =>
    obtain ⟨k, q, hk⟩ : ∃ k q, p ++ j :: r = k :: q := by cases p <;> simp
    rw [List.all_cons, Bool.and_eq_true] at hp
    rw [List.length_cons, ← Nat.add_assoc, runSeq_cons _ hb (hr.trans (List.cons_append ..)) (opFault_of_enabled he), hk,
      advance_straight hp.1]
    rw [enabledFrom, Bool.and_eq_true] at he
    rw [ih (s := goOn (k :: q) (effect i s)) (by simpa using hb) hk.symm hp.2
      (by simpa [effect_ddir, effect_cdir] using he.2), effects_rest]
    rfl

/-- A straight-line piece that ends the routine finishes the command (R83). -/
theorem run_straight_end {p : List MicroInstr} (n : Nat) {s : State} (hne : p ≠ []) (hb : s.busy = true)
    (hr : s.rest = p) (hp : p.all (fun i => i.post.straight) = true) (he : enabledFrom p s.ddir s.cdir = true) :
    runSeq (n + p.length) s = .next (complete errNone (effects p s)) := by
  induction p generalizing s with
  | nil => exact absurd rfl hne
  | cons i p ih =>
    rw [List.all_cons, Bool.and_eq_true] at hp
    rw [List.length_cons, ← Nat.add_assoc, runSeq_cons _ hb hr (opFault_of_enabled he)]
    rcases p with _ | ⟨k, q⟩
    · rw [advance_last hp.1, runSeq_idle _ rfl]; rfl
    · rw [enabledFrom, Bool.and_eq_true] at he
      rw [advance_straight hp.1, ih (by simp) (by simpa using hb) rfl hp.2
        (by simpa [effect_ddir, effect_cdir] using he.2), effects_rest]
      rfl

/-! ## The effect of each routine, in closed form -/

/-- A run of the cheap simplifications every closed form below needs. -/
theorem bv_ofNat_shift (w a b : Nat) (x : BitVec w) :
    x + BitVec.ofNat w a + BitVec.ofNat w b = x + BitVec.ofNat w (a + b) := by
  rw [BitVec.add_assoc, BitVec.ofNat_add_ofNat]

theorem effects_pulse (p : Post) (hp : p = .none ∨ p = .countUp) (s : State) :
    effects (pulse p) s = { s with
      cout := false, tmr := 0, upc := s.upc + 4#10, cnt := if p = .countUp then s.cnt + 1#7 else s.cnt
      trace := wirePulse.reverse ++ s.trace, cycles := s.cycles + (2 + 2 * Config.settleCycles) } := by
  rcases hp with rfl | rfl <;>
    simp [effect, pulse, sckUp, sckDown, plain, applyPost, applyOp, count, wireEvent, opCycles, wirePulse,
      BitVec.add_assoc] <;> omega

theorem effects_pulses (k : Nat) (s : State) :
    effects (repeatBlock (k + 1) (pulse .countUp)) s = { s with
      cout := false, tmr := 0, upc := s.upc + BitVec.ofNat 10 (4 * (k + 1)), cnt := s.cnt + BitVec.ofNat 7 (k + 1)
      trace := (List.replicate (k + 1) wirePulse).flatten.reverse ++ s.trace
      cycles := s.cycles + (k + 1) * (2 + 2 * Config.settleCycles) } := by
  induction k generalizing s with
  | zero => simp [repeatBlock, effects_pulse]
  | succ k ih =>
    rw [repeatBlock, effects_append, effects_pulse _ (.inr rfl), ih]
    have e1 : (List.replicate (k + 1 + 1) wirePulse).flatten.reverse
        = (List.replicate (k + 1) wirePulse).flatten.reverse ++ wirePulse.reverse := by
      rw [List.replicate_succ (n := k + 1), List.flatten_cons, List.reverse_append]
    simp only [e1, State.mk.injEq, true_and, if_true, List.append_assoc, bv_ofNat_shift]
    refine ⟨by congr 2; omega, by congr 2; omega, by ring⟩

theorem effects_connReset (s : State) :
    effects connReset s = { s with
      ddir := true, dout := true, cdir := true, cout := false, tmr := 0, upc := s.upc + 43#10, cnt := 10#7
      trace := wireReset.reverse ++ s.trace, cycles := s.cycles + (23 + 20 * Config.settleCycles) } := by
  rw [connReset, effects_append, Config.resetPulses, effects_pulses]
  have e1 : wireReset.reverse = (List.replicate 10 wirePulse).flatten.reverse
      ++ [.drv .data true, .dir .sck .out, .dir .data .out] := by
    simp only [wireReset, List.reverse_append]; rfl
  simp only [e1, List.append_assoc, effects_cons, effects_nil, effect, plain, applyPost, applyOp, count, wireEvent, opCycles,
    PinDir.bit, State.mk.injEq, true_and, BitVec.add_assoc]
  refine ⟨by congr 1, by rfl, by rfl, by ring⟩

theorem effects_sendStart (s : State) :
    effects sendStart s = { s with
      ddir := true, dout := true, cdir := true, cout := false, tmr := 0, upc := s.upc + 13#10, cnt := 0#7
      trace := ((wireSend 0#8 false false).take 13).reverse ++ s.trace
      cycles := s.cycles + (9 + 4 * Config.settleCycles) } := by
  simp [effect, sendStart, sckUp, sckDown, plain, applyPost, applyOp, count, wireEvent, opCycles, wireSend, PinDir.bit,
    BitVec.add_assoc]
  omega

theorem effects_sendBit (b : Bool) (s : State) :
    effects (sendBit b) s = { s with
      dout := b, cout := false, tmr := 0, upc := s.upc + 5#10, cnt := s.cnt + 1#7
      trace := wirePulse.reverse ++ (.drv .data b :: s.trace)
      cycles := s.cycles + (3 + 2 * Config.settleCycles) } := by
  rw [sendBit, effects_cons, effects_pulse _ (.inr rfl)]
  simp [effect, plain, applyPost, applyOp, count, wireEvent, opCycles, BitVec.add_assoc]
  omega

theorem effects_sendBits (c : Code) (s : State) :
    effects (sendBits c) s = { s with
      dout := c.getLsbD 0, cout := false, tmr := 0, upc := s.upc + 40#10, cnt := s.cnt + 8#7
      trace := ([7, 6, 5, 4, 3, 2, 1, 0].map fun i => .drv .data (c.getLsbD i) :: wirePulse).flatten.reverse ++ s.trace
      cycles := s.cycles + (24 + 16 * Config.settleCycles) } := by
  simp only [sendBits, effects_append, effects_sendBit]
  simp [BitVec.add_assoc]
  omega

/-- Parts 1 to 3 of SEND_CMD up to its last micro-operation, the second acknowledgement sample. -/
theorem effects_sendToAck (c : Code) (s : State) :
    effects (sendStart ++ sendBits c ++ (sckUp ++ [plain (.dir .data .inp), ⟨.sample, .ack1⟩] ++ sckDown .none)) s = { s with
      ddir := false, dout := c.getLsbD 0, cdir := true, cout := false, tmr := 0, upc := s.upc + 59#10, cnt := 8#7
      a1 := s.drawAt 0, ack1 := s.drawAt 0, draws := s.draws.drop 1, drawCount := s.drawCount + 1
      trace := ((wireSend c (s.drawAt 0) false).take 59).reverse ++ s.trace
      cycles := s.cycles + (37 + 22 * Config.settleCycles) } := by
  simp only [effects_append, effects_sendStart, effects_sendBits]
  simp [effect, sckUp, sckDown, plain, applyPost, applyOp, count, opBit, recordAck1, wireEvent, opCycles, wireSend, wirePulse,
    PinDir.bit, BitVec.add_assoc, State.skipDraws, State.drawAt]
  omega

/-- SHIFT_IN8's accumulator after the samples `bits` (R111). -/
def shifted (sh : Raw) (bits : List Bool) : Raw :=
  bits.foldl (fun sh b => 2#16 * sh + (BitVec.ofBool b).setWidth 16) sh

/-- What one bit of SHIFT_IN8 writes up to the settle that ends it. -/
theorem effects_shiftBit (s : State) (p : Post) (hp : p = .none ∨ p = .clearShift) :
    effects [⟨.drv .sck true, p⟩, plain .settle, ⟨.sample, .shiftBit⟩, plain (.drv .sck false)] s = { s with
      cout := false, tmr := 0, upc := s.upc + 4#10
      cnt := if p = .clearShift then 0#7 else s.cnt
      sh := 2#16 * (if p = .clearShift then 0#16 else s.sh) + (BitVec.ofBool (s.drawAt 0)).setWidth 16
      draws := s.draws.drop 1, drawCount := s.drawCount + 1
      trace := [.drv .sck false, .sample (s.drawAt 0), .settle, .drv .sck true] ++ s.trace
      cycles := s.cycles + (3 + Config.settleCycles) } := by
  rcases hp with rfl | rfl <;>
    simp [effect, plain, applyPost, applyOp, count, opBit, wireEvent, opCycles, BitVec.add_assoc, State.skipDraws,
      State.drawAt] <;> omega

/-- One bit of SHIFT_IN8 but the last (R111). -/
theorem effects_shiftIn (s : State) (p : Post) (hp : p = .none ∨ p = .clearShift) :
    effects (shiftIn p .countUp) s = { s with
      cout := false, tmr := 0, upc := s.upc + 5#10
      cnt := (if p = .clearShift then 0#7 else s.cnt) + 1#7
      sh := shifted (if p = .clearShift then 0#16 else s.sh) [s.drawAt 0]
      draws := s.draws.drop 1, drawCount := s.drawCount + 1
      trace := (wireShift [s.drawAt 0]).reverse ++ s.trace
      cycles := s.cycles + (3 + 2 * Config.settleCycles) } := by
  have h : shiftIn p .countUp
      = [⟨.drv .sck true, p⟩, plain .settle, ⟨.sample, .shiftBit⟩, plain (.drv .sck false)] ++ [⟨.settle, .countUp⟩] := rfl
  rw [h, effects_append, effects_shiftBit s p hp]
  simp [effect, applyPost, applyOp, count, wireEvent, opCycles, BitVec.add_assoc, shifted, wireShift]
  omega

/-- Bits 2 to k + 1 of SHIFT_IN8, for k at most 6 (R111). -/
theorem effects_shiftIns (k : Nat) (s : State) :
    effects (repeatBlock (k + 1) (shiftIn .none .countUp)) s = { s with
      cout := false, tmr := 0, upc := s.upc + BitVec.ofNat 10 (5 * (k + 1)), cnt := s.cnt + BitVec.ofNat 7 (k + 1)
      sh := shifted s.sh (s.drawList 0 (k + 1))
      draws := s.draws.drop (k + 1), drawCount := s.drawCount + (k + 1)
      trace := (wireShift (s.drawList 0 (k + 1))).reverse ++ s.trace
      cycles := s.cycles + (k + 1) * (3 + 2 * Config.settleCycles) } := by
  induction k generalizing s with
  | zero => simp [repeatBlock, effects_shiftIn, State.drawList]
  | succ k ih =>
    rw [repeatBlock, effects_append, effects_shiftIn s .none (.inl rfl), ih, drawList_succ s 0 (k + 1)]
    rw [drawList_drop (s := s) (m := 1) rfl rfl]
    simp only [State.mk.injEq, true_and, bv_ofNat_shift, List.drop_drop, reduceCtorEq, if_false]
    refine ⟨by congr 2; omega, by rfl, by congr 2; omega, by congr 1; omega, by omega, ?_, by ring⟩
    simp [wireShift]

/-- The word of SHIFT_IN8 after its eight samples (R111). -/
def shiftedByte (bits : List Bool) : Raw := shifted 0#16 bits

theorem shifted_append (sh : Raw) (a b : List Bool) : shifted sh (a ++ b) = shifted (shifted sh a) b := by
  simp [shifted]

/-- SHIFT_IN8 up to the settle that ends it (R111). -/
theorem effects_shiftIn8_body (s : State) :
    effects (shiftIn .clearShift .countUp ++ repeatBlock 6 (shiftIn .none .countUp)
        ++ [⟨.drv .sck true, .none⟩, plain .settle, ⟨.sample, .shiftBit⟩, plain (.drv .sck false)]) s = { s with
      cout := false, tmr := 0, upc := s.upc + 39#10, cnt := 7#7
      sh := shiftedByte (s.drawList 0 8)
      draws := s.draws.drop 8, drawCount := s.drawCount + 8
      trace := ((wireShift (s.drawList 0 8)).reverse.drop 1) ++ s.trace
      cycles := s.cycles + (24 + 15 * Config.settleCycles) } := by
  rw [effects_append, effects_append, effects_shiftIn s _ (.inr rfl), effects_shiftIns, effects_shiftBit _ _ (.inl rfl)]
  have e1 : s.drawList 0 8 = s.drawAt 0 :: (s.drawList 1 6 ++ [s.drawAt 7]) := rfl
  rw [e1]
  simp only [State.mk.injEq, true_and, List.drop_drop, reduceCtorEq, if_false, if_true, shiftedByte, shifted, wireShift,
    State.drawList, State.drawAt, List.getElem?_drop, List.foldl_append, List.foldl_cons, List.foldl_nil, Nat.add_zero,
    Nat.add_assoc]
  refine ⟨by simp [BitVec.add_assoc], by rfl, by rfl, ?_, by ring⟩
  simp

/-- SHIFT_IN8 of the first byte, with what GET_DATA16 does with it (R111, R112). -/
theorem effects_shiftIn8_msb (s : State) :
    effects (shiftIn8 .takeMsb) s = { s with
      cout := false, tmr := 0, upc := s.upc + 40#10, cnt := 8#7
      sh := shiftedByte (s.drawList 0 8), w := (shiftedByte (s.drawList 0 8)).extractLsb' 0 8 ++ 0#8
      draws := s.draws.drop 8, drawCount := s.drawCount + 8
      trace := (wireShift (s.drawList 0 8)).reverse ++ s.trace
      cycles := s.cycles + (24 + 16 * Config.settleCycles) } := by
  have h : shiftIn8 .takeMsb = shiftIn .clearShift .countUp ++ repeatBlock 6 (shiftIn .none .countUp)
      ++ [⟨.drv .sck true, .none⟩, plain .settle, ⟨.sample, .shiftBit⟩, plain (.drv .sck false)]
      ++ [⟨.settle, .takeMsb⟩] := rfl
  rw [h, effects_append, effects_shiftIn8_body]
  simp [effect, applyPost, applyOp, count, wireEvent, opCycles, wireShift, State.drawList, List.range_succ,
    BitVec.add_assoc]
  omega

/-- SHIFT_IN8 of the second byte, with what GET_DATA16 does with it (R111, R112, R114). -/
theorem effects_shiftIn8_lsb (s : State) :
    effects (shiftIn8 .takeLsb) s = { s with
      cout := false, tmr := 0, upc := s.upc + 40#10, cnt := 8#7
      sh := shiftedByte (s.drawList 0 8)
      w := s.w ||| (0#8 ++ (shiftedByte (s.drawList 0 8)).extractLsb' 0 8)
      data16 := s.w ||| (0#8 ++ (shiftedByte (s.drawList 0 8)).extractLsb' 0 8), d16Valid := true
      draws := s.draws.drop 8, drawCount := s.drawCount + 8
      trace := (wireShift (s.drawList 0 8)).reverse ++ s.trace
      cycles := s.cycles + (24 + 16 * Config.settleCycles) } := by
  have h : shiftIn8 .takeLsb = shiftIn .clearShift .countUp ++ repeatBlock 6 (shiftIn .none .countUp)
      ++ [⟨.drv .sck true, .none⟩, plain .settle, ⟨.sample, .shiftBit⟩, plain (.drv .sck false)]
      ++ [⟨.settle, .takeLsb⟩] := rfl
  rw [h, effects_append, effects_shiftIn8_body]
  simp [effect, applyPost, applyOp, count, wireEvent, opCycles, wireShift, State.drawList, List.range_succ,
    BitVec.add_assoc, commitData16]
  omega

/-- A byte shifted in is the number its samples write, the first the most significant (R111). -/
theorem shiftedByte_eq (a b c d e f g h : Bool) :
    (shiftedByte [a, b, c, d, e, f, g, h]).extractLsb' 0 8
      = BitVec.ofNat 8 (a.toNat * 128 + b.toNat * 64 + c.toNat * 32 + d.toNat * 16 + e.toNat * 8 + f.toNat * 4
          + g.toNat * 2 + h.toNat) := by
  revert a b c d e f g h
  decide

/-- `msb * 256 OR lsb = msb * 256 + lsb` (R113). -/
theorem combine_bytes (m l : Nat) (hm : m < 256) (hl : l < 256) :
    (BitVec.ofNat 8 m ++ 0#8) ||| (0#8 ++ BitVec.ofNat 8 l) = BitVec.ofNat 16 (m * 256 + l) := by
  apply BitVec.eq_of_toNat_eq
  have h1 : m % 2 ^ 8 = m := Nat.mod_eq_of_lt hm
  have h2 : l % 2 ^ 8 = l := Nat.mod_eq_of_lt hl
  have h3 : m <<< 8 + l = m <<< 8 ||| l := Nat.shiftLeft_add_eq_or_of_lt hl m
  rw [BitVec.toNat_or, BitVec.toNat_append, BitVec.toNat_append, BitVec.toNat_ofNat, BitVec.toNat_ofNat, BitVec.toNat_ofNat,
    h1, h2]
  simp only [BitVec.toNat_ofNat, Nat.zero_mod, Nat.or_zero, Nat.zero_shiftLeft, Nat.zero_or, ← h3]
  rw [Nat.shiftLeft_eq, Nat.mod_eq_of_lt (by omega)]

theorem drawList_eight (s : State) (n : Nat) :
    s.drawList n 8 = [s.drawAt n, s.drawAt (n + 1), s.drawAt (n + 2), s.drawAt (n + 3), s.drawAt (n + 4), s.drawAt (n + 5),
      s.drawAt (n + 6), s.drawAt (n + 7)] := rfl

/-- The two bytes make the word of R113. -/
theorem drawnWord_eq (s : State) (n : Nat) :
    (shiftedByte (s.drawList n 8)).extractLsb' 0 8 ++ 0#8
      ||| (0#8 ++ (shiftedByte (s.drawList (n + 8) 8)).extractLsb' 0 8) = s.drawnWord n := by
  have hb : ∀ b : Bool, b.toNat ≤ 1 := fun b => Bool.toNat_le b
  rw [drawList_eight, drawList_eight, shiftedByte_eq, shiftedByte_eq, combine_bytes]
  · simp only [State.drawnWord, Finset.sum_range_succ, Finset.sum_range_zero, Nat.add_assoc]
    congr 1
    simp
    ring
  · have := hb (s.drawAt n); have := hb (s.drawAt (n + 1)); have := hb (s.drawAt (n + 2)); have := hb (s.drawAt (n + 3))
    have := hb (s.drawAt (n + 4)); have := hb (s.drawAt (n + 5)); have := hb (s.drawAt (n + 6)); have := hb (s.drawAt (n + 7))
    simp only [Nat.add_assoc] at *; omega
  · have := hb (s.drawAt (n + 8)); have := hb (s.drawAt (n + 9)); have := hb (s.drawAt (n + 10))
    have := hb (s.drawAt (n + 11)); have := hb (s.drawAt (n + 12)); have := hb (s.drawAt (n + 13))
    have := hb (s.drawAt (n + 14)); have := hb (s.drawAt (n + 15))
    simp only [Nat.add_assoc, Nat.reduceAdd] at *; omega

theorem effects_getData16 (s : State) :
    effects getData16 s = { s with
      ddir := false, dout := false, cdir := true, cout := false, tmr := 0, upc := s.upc + 89#10, cnt := 8#7
      sh := shiftedByte (s.drawList 8 8), w := s.drawnWord 0, data16 := s.drawnWord 0, d16Valid := true
      draws := s.draws.drop 16, drawCount := s.drawCount + 16
      trace := (wireGet (s.drawList 0 8) (s.drawList 8 8)).reverse ++ s.trace
      cycles := s.cycles + (55 + 34 * Config.settleCycles) } := by
  rw [← drawnWord_eq]
  simp only [getData16, effects_append, effects_shiftIn8_msb, effects_pulse _ (.inl rfl), effects_shiftIn8_lsb, effects_cons,
    effects_nil, effect, plain, applyPost, applyOp, count, wireEvent, opCycles, PinDir.bit, State.mk.injEq, true_and,
    State.drawList, State.drawAt, List.getElem?_drop, List.drop_drop, wireGet, Nat.zero_add, reduceCtorEq, if_false,
    Nat.add_assoc]
  refine ⟨by simp [BitVec.add_assoc], ?_, by ring⟩
  simp only [List.reverse_append, List.append_assoc]
  rfl

theorem effects_skipCrc (s : State) :
    effects skipCrc s = { s with
      ddir := true, dout := true, cdir := true, cout := false, tmr := 0, upc := s.upc + 7#10
      trace := wireSkip.reverse ++ s.trace, cycles := s.cycles + (5 + 2 * Config.settleCycles) } := by
  rw [skipCrc, effects_append, effects_pulse _ (.inl rfl)]
  simp [effect, plain, applyPost, applyOp, count, wireEvent, opCycles, PinDir.bit, BitVec.add_assoc, wireSkip, wirePulse]
  omega

/-! ## The routines that decide -/

/-- A conclusion does not depend on what the state listed as still to come. -/
theorem conclude_goOn (rest : List MicroInstr) (s : State) (f : Flow) : conclude (goOn rest s, f) = conclude (s, f) := by
  rcases f with (_ | ⟨i, r⟩) | e <;> rfl

/-- What SEND_CMD(c) writes (R102 to R105). -/
def afterSend (c : Code) (s : State) : State :=
  { s with
    ddir := false, dout := c.getLsbD 0, cdir := true, cout := false, tmr := 0, upc := s.upc + 60#10, cnt := 8#7
    a1 := s.drawAt 0, ack1 := s.drawAt 0, a2 := s.drawAt 1, ack2 := s.drawAt 1
    draws := s.draws.drop 2, drawCount := s.drawCount + 2
    trace := (wireSend c (s.drawAt 0) (s.drawAt 1)).reverse ++ s.trace
    cycles := s.cycles + (38 + 22 * Config.settleCycles) }

/-- SEND_CMD runs its 60 micro-operations and then goes on or raises HANDSHAKE (R105). -/
theorem run_sendCmd {c : Code} {r : List MicroInstr} (n : Nat) {s : State} (hb : s.busy = true)
    (hr : s.rest = sendCmd c ++ r) :
    runSeq (n + 60) s = runSeq n (conclude (afterSend c s,
      if s.drawAt 0 || !s.drawAt 1 then .raise errHandshake else .go r)) := by
  have hl : (sendStart ++ sendBits c ++ (sckUp ++ [plain (.dir .data .inp), ⟨.sample, .ack1⟩] ++ sckDown .none)).length = 59 := rfl
  have hr' : s.rest = (sendStart ++ sendBits c ++ (sckUp ++ [plain (.dir .data .inp), ⟨.sample, .ack1⟩] ++ sckDown .none))
      ++ ⟨.sample, .ack2⟩ :: r := by
    rw [hr]; simp [sendCmd, sendAck]
  have h := run_straight (n + 1) hb hr' rfl rfl
  rw [hl] at h
  rw [show n + 60 = n + 1 + 59 from rfl, h, effects_sendToAck]
  rw [runSeq_cons n (by simpa using hb) rfl rfl]
  congr 1
  unfold advance
  simp only [opBit, applyPost, applyOp, handshakeFails, recordAck2, goOn, count, wireEvent, opCycles, State.skipDraws,
    State.drawAt, List.getElem?_drop, List.drop_drop, Nat.add_assoc, Nat.add_zero, Nat.reduceAdd]
  rw [← conclude_goOn s.rest]
  congr 2
  simp only [goOn, afterSend, State.drawAt, State.mk.injEq, true_and, Nat.add_zero]
  refine ⟨by simp [BitVec.add_assoc], ?_, by ring⟩
  have e : ∀ a1 a2, wireSend c a1 a2 = (wireSend c a1 false).take 59 ++ [.sample a2] := fun _ _ => rfl
  rw [e _ (s.draws[1]?.getD (Config.draw (s.drawCount + 1))), List.reverse_append]
  rfl

/-- What k polls with the samples `bs` write (R108). -/
def afterPolls (bs : List Bool) (s : State) : State :=
  { s with
    tmr := 0, upc := s.upc + BitVec.ofNat 10 (2 * bs.length)
    cnt := s.cnt + BitVec.ofNat 7 bs.length, polls := s.cnt + BitVec.ofNat 7 bs.length
    draws := s.draws.drop bs.length, drawCount := s.drawCount + bs.length
    trace := (bs.map fun b => [WireEvent.pollDly, .sample b]).flatten.reverse ++ s.trace
    cycles := s.cycles + bs.length * (Config.pollCycles + 1) }

theorem afterPolls_cons (b c : Bool) (bs : List Bool) (s : State) :
    afterPolls (c :: bs) (afterPolls [b] s) = afterPolls (b :: c :: bs) s := by
  simp only [afterPolls, State.mk.injEq, true_and, bv_ofNat_shift, List.drop_drop, List.length_cons, List.length_nil]
  refine ⟨by congr 2; omega, by congr 2; omega, by congr 2; omega, by congr 1; omega, by omega, by simp, by ring⟩

/-- One poll (R108): it returns, raises, or goes on. -/
theorem run_poll {r : List MicroInstr} (n : Nat) {s : State} (hb : s.busy = true) (hd : s.ddir = false)
    (hr : s.rest = pollAgain r) :
    runSeq (n + 2) s = runSeq n (conclude (afterPolls [s.drawAt 0] s,
      if s.drawAt 0 = false then .go r
      else if s.cnt + 1#7 = Config.pollMax then .raise errReadyTimeout else .go (pollAgain r))) := by
  have e1 : advance ⟨.pollDly, .none⟩ (⟨.sample, .poll⟩ :: r) s
      = goOn (⟨.sample, .poll⟩ :: r) (effect ⟨.pollDly, .none⟩ s) := advance_straight rfl _ _ _
  have hf : opFault .sample (goOn (⟨.sample, .poll⟩ :: r) (effect ⟨.pollDly, .none⟩ s)) = none := by
    simp [opFault, effect_ddir, ddirAfter, hd]
  have e2 : effect ⟨.sample, .poll⟩ (effect ⟨.pollDly, .none⟩ s) = afterPolls [s.drawAt 0] s := by
    simp only [effect, opBit, applyPost, applyOp, recordPoll, count, wireEvent, opCycles, State.skipDraws, State.drawAt,
      Nat.add_zero, afterPolls, State.mk.injEq, true_and]
    refine ⟨by rfl, by simp [BitVec.add_assoc], by rfl, by rfl, by rfl, by simp, by simp; ring⟩
  have e3 : opBit .sample (effect ⟨.pollDly, .none⟩ (goOn (⟨.sample, .poll⟩ :: r) s)) = s.drawAt 0 :=
    drawAt_congr (s := s) rfl rfl 0
  have e4 : ∀ b t, t.cnt = s.cnt → (applyPost .poll b r (count .sample b (applyOp .sample t))).2
      = if b = false then .go r else if s.cnt + 1#7 = Config.pollMax then .raise errReadyTimeout
        else .go (pollAgain r) := by
    intro b t ht
    rw [← ht]; rfl
  rw [runSeq_cons (n + 1) hb hr rfl, e1, runSeq_cons n (by simpa using hb) rfl hf]
  refine congrArg (runSeq n) ?_
  rw [← conclude_goOn (⟨.sample, .poll⟩ :: r), ← e2, ← effect_rest]
  unfold advance
  refine congrArg conclude (Prod.ext (applyPost_fst _ _ _ _) ?_)
  exact (congrArg (fun b => (applyPost .poll b r (count .sample b (applyOp .sample (effect ⟨.pollDly, .none⟩
    (goOn (⟨.sample, .poll⟩ :: r) s))))).2) e3).trans (e4 _ _ rfl)

/-- Ready-polling whose k-th sample is the first low one (R109). -/
theorem run_polls_ready {r : List MicroInstr} (k n j : Nat) {s : State} (hb : s.busy = true) (hd : s.ddir = false)
    (hr : s.rest = pollAgain r) (hc : s.cnt = BitVec.ofNat 7 j) (hj : j + k < 100)
    (hs : ∀ i, i < k → s.drawAt i = true) (hk : s.drawAt k = false) :
    runSeq (n + 2 * (k + 1)) s = runSeq n (conclude (afterPolls (List.replicate k true ++ [false]) s, .go r)) := by
  induction k generalizing s j with
  | zero => rw [run_poll n hb hd hr, hk]; rfl
  | succ k ih =>
    have h0 : s.drawAt 0 = true := hs 0 (by omega)
    have hne : ¬ s.cnt + 1#7 = Config.pollMax := by
      rw [hc, BitVec.ofNat_add_ofNat, Config.pollMax]
      intro h
      have := congrArg BitVec.toNat h
      simp only [BitVec.toNat_ofNat] at this
      omega
    rw [show n + 2 * (k + 1 + 1) = n + 2 * (k + 1) + 2 by omega, run_poll _ hb hd hr, h0]
    simp only [hne, if_false, reduceCtorEq]
    rw [show conclude (afterPolls [true] s, Flow.go (pollAgain r)) = goOn (pollAgain r) (afterPolls [true] s) from rfl]
    rw [ih (j + 1) (s := goOn (pollAgain r) (afterPolls [true] s)) hb hd rfl
      (by simp [afterPolls, hc, BitVec.ofNat_add_ofNat]) (by omega)
      (fun i hi => by
        rw [drawAt_drop (s := s) (m := 1) rfl rfl]
        exact hs _ (by omega))
      (by rw [drawAt_drop (s := s) (m := 1) rfl rfl, Nat.add_comm]; exact hk)]
    have e : ∀ t : State, afterPolls (List.replicate k true ++ [false]) (goOn (pollAgain r) t)
        = goOn (pollAgain r) (afterPolls (List.replicate k true ++ [false]) t) := fun _ => rfl
    rw [e, conclude_goOn]
    rcases k with _ | k
    · rw [show List.replicate 0 true ++ [false] = [false] from rfl, afterPolls_cons]; rfl
    · rw [List.replicate_succ, List.cons_append, afterPolls_cons]; rfl

/-- Ready-polling whose samples are all high, from a count of 100 − k (R109). -/
theorem run_polls_timeout {r : List MicroInstr} (k n : Nat) {s : State} (hb : s.busy = true) (hd : s.ddir = false)
    (hr : s.rest = pollAgain r) (hc : s.cnt = BitVec.ofNat 7 (99 - k)) (hj : k ≤ 99)
    (hs : ∀ i, i < k + 1 → s.drawAt i = true) :
    runSeq (n + 2 * (k + 1)) s
      = .next (complete errReadyTimeout (afterPolls (List.replicate (k + 1) true) s)) := by
  induction k generalizing s with
  | zero =>
    rw [run_poll n hb hd hr, hs 0 (by omega), hc]
    exact runSeq_idle n rfl
  | succ k ih =>
    have h0 : s.drawAt 0 = true := hs 0 (by omega)
    have hne : ¬ s.cnt + 1#7 = Config.pollMax := by
      rw [hc, BitVec.ofNat_add_ofNat, Config.pollMax]
      intro h
      have := congrArg BitVec.toNat h
      simp only [BitVec.toNat_ofNat] at this
      omega
    rw [show n + 2 * (k + 1 + 1) = n + 2 * (k + 1) + 2 by omega, run_poll _ hb hd hr, h0]
    simp only [hne, if_false, reduceCtorEq]
    rw [show conclude (afterPolls [true] s, Flow.go (pollAgain r)) = goOn (pollAgain r) (afterPolls [true] s) from rfl]
    rw [ih (s := goOn (pollAgain r) (afterPolls [true] s)) hb hd rfl
      (by simp only [goOn_cnt, afterPolls, hc, List.length_singleton, BitVec.ofNat_add_ofNat]; congr 1; omega) (by omega)
      (fun i hi => by
        rw [drawAt_drop (s := s) (m := 1) rfl rfl]
        exact hs _ (by omega))]
    rw [List.replicate_succ (n := k + 1), List.replicate_succ (n := k), ← afterPolls_cons]; rfl

/-- What WAIT_READY writes with the samples `bs` (R108). -/
def afterWait (bs : List Bool) (s : State) : State :=
  { s with
    ddir := false, tmr := 0, upc := s.upc + BitVec.ofNat 10 (1 + 2 * bs.length)
    cnt := BitVec.ofNat 7 bs.length, polls := BitVec.ofNat 7 bs.length
    draws := s.draws.drop bs.length, drawCount := s.drawCount + bs.length
    trace := (wireWait bs).reverse ++ s.trace
    cycles := s.cycles + (1 + bs.length * (Config.pollCycles + 1)) }

theorem afterWait_eq (bs : List Bool) (s : State) :
    afterPolls bs (effect ⟨.dir .data .inp, .clearCnt⟩ s) = afterWait bs s := by
  simp only [afterPolls, effect, applyPost, applyOp, count, wireEvent, opCycles, PinDir.bit, afterWait, State.mk.injEq,
    true_and, wireWait, BitVec.add_assoc, Nat.add_assoc]
  refine ⟨by simp, by rw [BitVec.ofNat_add_ofNat], by simp, by simp⟩

/-- The first step of WAIT_READY: DATA senses and CNT starts at 0 (R108). -/
def sensed (s : State) : State := effect ⟨.dir .data .inp, .clearCnt⟩ s

@[simp] theorem sensed_busy (s : State) : (sensed s).busy = s.busy := rfl
@[simp] theorem sensed_ddir (s : State) : (sensed s).ddir = false := rfl
@[simp] theorem sensed_cnt (s : State) : (sensed s).cnt = 0#7 := rfl
@[simp] theorem sensed_drawAt (s : State) (n : Nat) : (sensed s).drawAt n = s.drawAt n := rfl

@[simp] theorem goOn_drawAt (r : List MicroInstr) (s : State) (n : Nat) : (goOn r s).drawAt n = s.drawAt n := rfl

theorem afterPolls_goOn (bs : List Bool) (r : List MicroInstr) (s : State) :
    afterPolls bs (goOn r s) = goOn r (afterPolls bs s) := rfl

/-- WAIT_READY's first step leads to its polls. -/
theorem run_sensed {r : List MicroInstr} (n : Nat) {s : State} (hb : s.busy = true) (hr : s.rest = waitReady ++ r) :
    runSeq (n + 1) s = runSeq n (goOn (pollAgain r) (sensed s)) := by
  rw [runSeq_cons (i := ⟨.dir .data .inp, .clearCnt⟩) (r := pollAgain r) n hb hr rfl]
  rfl

/-- WAIT_READY that returns (R108, R109). -/
theorem run_waitReady {r : List MicroInstr} {k : Nat} (n : Nat) {s : State} (hb : s.busy = true)
    (hr : s.rest = waitReady ++ r) (h : s.readyAfter 0 k) :
    runSeq (n + (1 + 2 * k)) s
      = runSeq n (conclude (afterWait (List.replicate (k - 1) true ++ [false]) s, .go r)) := by
  obtain ⟨h1, h2, h3, h4⟩ := h
  obtain ⟨k, rfl⟩ : ∃ m, k = m + 1 := ⟨k - 1, by omega⟩
  simp only [Nat.zero_add, Nat.add_sub_cancel] at h3 h4
  rw [show n + (1 + 2 * (k + 1)) = n + 2 * (k + 1) + 1 by omega, run_sensed _ hb hr,
    run_polls_ready (r := r) k n 0 (by simpa using hb) (by simp) (by simp) (by simp) (by omega) (by simpa using h3)
      (by simpa using h4), afterPolls_goOn, conclude_goOn, ← afterWait_eq, Nat.add_sub_cancel]
  rfl

/-- WAIT_READY that times out (R108, R109). -/
theorem run_waitReady_timeout {r : List MicroInstr} (n : Nat) {s : State} (hb : s.busy = true)
    (hr : s.rest = waitReady ++ r) (h : s.neverReady 0) :
    runSeq (n + 201) s = .next (complete errReadyTimeout (afterWait (List.replicate 100 true) s)) := by
  rw [show n + 201 = n + 2 * (99 + 1) + 1 by omega, run_sensed _ hb hr,
    run_polls_timeout (r := r) 99 n (by simpa using hb) (by simp) (by simp) (by simp) (by omega)
      (fun i hi => by simpa using h i hi), afterPolls_goOn, ← afterWait_eq]
  rfl

/-- The samples of a ready-poll that returns (R109). -/
theorem readyAfter_drawList {s : State} {n k : Nat} (h : s.readyAfter n k) :
    List.replicate (k - 1) true ++ [false] = s.drawList n k := by
  obtain ⟨h1, -, h3, h4⟩ := h
  obtain ⟨k, rfl⟩ : ∃ m, k = m + 1 := ⟨k - 1, by omega⟩
  simp only [Nat.add_sub_cancel] at h3 h4
  rw [State.drawList, List.range_succ, List.map_append, List.map_singleton, h4, Nat.add_sub_cancel]
  congr 1
  refine List.ext_getElem (by simp) fun j hj _ => ?_
  simp only [List.length_replicate] at hj
  simp [h3 j hj]

theorem neverReady_drawList {s : State} {n : Nat} (h : s.neverReady n) :
    List.replicate 100 true = s.drawList n 100 := by
  refine List.ext_getElem (by simp) fun j hj _ => ?_
  simp only [List.length_replicate] at hj
  rw [List.getElem_replicate]
  simp [State.drawList, h j hj]

theorem readyAfter_drop {s t : State} {m : Nat} (hd : t.draws = s.draws.drop m) (hc : t.drawCount = s.drawCount + m)
    (n k : Nat) : t.readyAfter n k ↔ s.readyAfter (m + n) k := by
  simp [State.readyAfter, drawAt_drop hd hc, Nat.add_assoc]

theorem neverReady_drop {s t : State} {m : Nat} (hd : t.draws = s.draws.drop m) (hc : t.drawCount = s.drawCount + m)
    (n : Nat) : t.neverReady n ↔ s.neverReady (m + n) := by
  simp [State.neverReady, drawAt_drop hd hc, Nat.add_assoc]

theorem drawnWord_drop {s t : State} {m : Nat} (hd : t.draws = s.draws.drop m) (hc : t.drawCount = s.drawCount + m)
    (n : Nat) : t.drawnWord n = s.drawnWord (m + n) := by
  simp [State.drawnWord, drawAt_drop hd hc, Nat.add_assoc]

/-- What MEASURE(c) writes where its handshake passes and its poll returns after k samples (R142). -/
def afterMeasure (c : Code) (k : Nat) (s : State) : State :=
  { s with
    ddir := true, dout := true, cdir := true, cout := false, tmr := 0, upc := s.upc + BitVec.ofNat 10 (157 + 2 * k)
    cnt := 8#7, a1 := s.drawAt 0, ack1 := s.drawAt 0, a2 := s.drawAt 1, ack2 := s.drawAt 1, polls := BitVec.ofNat 7 k
    sh := shiftedByte (s.drawList (k + 10) 8), w := s.drawnWord (k + 2), data16 := s.drawnWord (k + 2), d16Valid := true
    draws := s.draws.drop (k + 18), drawCount := s.drawCount + (k + 18)
    trace := (s.wireMeasure c 0 k).reverse ++ s.trace
    cycles := s.cycles + cyclesMeasure k }

@[simp] theorem afterSend_busy (c : Code) (s : State) : (afterSend c s).busy = s.busy := rfl
@[simp] theorem afterWait_busy (bs : List Bool) (s : State) : (afterWait bs s).busy = s.busy := rfl
@[simp] theorem afterMeasure_busy (c : Code) (k : Nat) (s : State) : (afterMeasure c k s).busy = s.busy := rfl

/-- GET_DATA16 and SKIP_CRC together (R112, R116). -/
theorem effects_shiftOut (s : State) :
    effects (getData16 ++ skipCrc) s = { s with
      ddir := true, dout := true, cdir := true, cout := false, tmr := 0, upc := s.upc + 96#10, cnt := 8#7
      sh := shiftedByte (s.drawList 8 8), w := s.drawnWord 0, data16 := s.drawnWord 0, d16Valid := true
      draws := s.draws.drop 16, drawCount := s.drawCount + 16
      trace := (wireGet (s.drawList 0 8) (s.drawList 8 8) ++ wireSkip).reverse ++ s.trace
      cycles := s.cycles + (60 + 36 * Config.settleCycles) } := by
  rw [effects_append, effects_getData16, effects_skipCrc]
  simp only [State.mk.injEq, true_and, List.reverse_append, List.append_assoc, Nat.add_assoc]
  exact ⟨by rw [BitVec.add_assoc]; rfl, by ring⟩

/-- SEND_CMD, WAIT_READY and the rest of MEASURE, put together (R142). -/
theorem effects_measure {c : Code} {k : Nat} {s : State} (h : s.readyAfter 2 k) :
    effects (getData16 ++ skipCrc) (afterWait (List.replicate (k - 1) true ++ [false]) (afterSend c s))
      = afterMeasure c k s := by
  rw [readyAfter_drawList h]
  have hd : (afterWait (s.drawList 2 k) (afterSend c s)).draws = s.draws.drop (k + 2) := by
    simp [afterWait, afterSend, Nat.add_comm]
  have hc : (afterWait (s.drawList 2 k) (afterSend c s)).drawCount = s.drawCount + (k + 2) := by
    simp [afterWait, afterSend]; omega
  have hu : (afterWait (s.drawList 2 k) (afterSend c s)).upc = s.upc + BitVec.ofNat 10 (61 + 2 * k) := by
    simp only [afterWait, afterSend, drawList_length]
    rw [show (60#10 : BitVec 10) = BitVec.ofNat 10 60 from rfl, bv_ofNat_shift]; congr 2; omega
  have ht : (afterWait (s.drawList 2 k) (afterSend c s)).trace
      = (wireSend c (s.drawAt 0) (s.drawAt 1) ++ wireWait (s.drawList 2 k)).reverse ++ s.trace := by
    simp [afterWait, afterSend]
  have hy : (afterWait (s.drawList 2 k) (afterSend c s)).cycles
      = s.cycles + (39 + 22 * Config.settleCycles + k * (Config.pollCycles + 1)) := by
    simp only [afterWait, afterSend, drawList_length]; ring
  rw [effects_shiftOut, drawList_drop hd hc, drawList_drop hd hc, drawnWord_drop hd hc, hd, hc, hu, ht, hy]
  have hk : BitVec.ofNat 7 (s.drawList 2 k).length = BitVec.ofNat 7 k := by rw [drawList_length]
  unfold afterMeasure
  rw [State.mk.injEq]
  refine ⟨rfl, rfl, rfl, rfl, rfl, rfl, rfl, hk, rfl, rfl, rfl, rfl, rfl, rfl, rfl, rfl, rfl, rfl, rfl, rfl, rfl, rfl, rfl, rfl, rfl,
    ?_, rfl, rfl, rfl, rfl, rfl, rfl, rfl, rfl, rfl, ?_, ?_, rfl, rfl, rfl, ?_, ?_⟩
  · rw [show (96#10 : BitVec 10) = BitVec.ofNat 10 96 from rfl, bv_ofNat_shift]; congr 2; omega
  · rw [List.drop_drop]
  · omega
  · rw [State.wireMeasure, show k + 2 + 8 = 0 + 10 + k by omega, show k + 2 + 0 = 0 + 2 + k by omega]
    simp only [List.reverse_append, List.append_assoc, Nat.zero_add]
  · rw [cyclesMeasure]; ring

/-- MEASURE that succeeds (R142). -/
theorem run_measure {c : Code} {j : MicroInstr} {r : List MicroInstr} {k : Nat} (n : Nat) {s : State} (hb : s.busy = true)
    (hr : s.rest = measureRoutine c ++ j :: r) (ha : s.acked 0) (h : s.readyAfter 2 k) :
    runSeq (n + (157 + 2 * k)) s = runSeq n (goOn (j :: r) (afterMeasure c k s)) := by
  have hr1 : s.rest = sendCmd c ++ (waitReady ++ (getData16 ++ (skipCrc ++ j :: r))) := by
    rw [hr]; simp only [measureRoutine, List.append_assoc]
  rw [show n + (157 + 2 * k) = n + 96 + (1 + 2 * k) + 60 by omega, run_sendCmd _ hb hr1, ha.1, ha.2]
  rw [show conclude (afterSend c s, if (false || !true) = true then Flow.raise errHandshake
      else Flow.go (waitReady ++ (getData16 ++ (skipCrc ++ j :: r))))
      = goOn (waitReady ++ (getData16 ++ (skipCrc ++ j :: r))) (afterSend c s) from rfl]
  have h2 : (goOn (waitReady ++ (getData16 ++ (skipCrc ++ j :: r))) (afterSend c s)).readyAfter 0 k :=
    (readyAfter_drop (s := s) (m := 2) rfl rfl 0 k).2 h
  rw [run_waitReady (n + 96) (by simpa using hb) rfl h2]
  have e : ∀ bs r (t : State), afterWait bs (goOn r t) = goOn r (afterWait bs t) := fun _ _ _ => rfl
  rw [e, conclude_goOn]
  have hr2 : (goOn (getData16 ++ (skipCrc ++ j :: r))
      (afterWait (List.replicate (k - 1) true ++ [false]) (afterSend c s))).rest = (getData16 ++ skipCrc) ++ j :: r := by
    simp
  have h3 := run_straight n (s := goOn (getData16 ++ (skipCrc ++ j :: r))
      (afterWait (List.replicate (k - 1) true ++ [false]) (afterSend c s))) hb hr2 rfl rfl
  rw [show (getData16 ++ skipCrc).length = 96 from rfl] at h3
  rw [show conclude (afterWait (List.replicate (k - 1) true ++ [false]) (afterSend c s),
      Flow.go (getData16 ++ (skipCrc ++ j :: r)))
      = goOn (getData16 ++ (skipCrc ++ j :: r)) (afterWait (List.replicate (k - 1) true ++ [false]) (afterSend c s)) from rfl,
    h3, effects_rest, effects_measure h]
  rfl

/-- MEASURE whose handshake fails (R105, R142). -/
theorem run_measure_nack {c : Code} {r : List MicroInstr} (n : Nat) {s : State} (hb : s.busy = true)
    (hr : s.rest = measureRoutine c ++ r) (ha : ¬ s.acked 0) :
    runSeq (n + 60) s = .next (complete errHandshake (afterSend c s)) := by
  have hr1 : s.rest = sendCmd c ++ (waitReady ++ (getData16 ++ (skipCrc ++ r))) := by
    rw [hr]; simp only [measureRoutine, List.append_assoc]
  have hf : (s.drawAt 0 || !s.drawAt 1) = true := by
    unfold State.acked at ha
    cases h0 : s.drawAt 0 <;> cases h1 : s.drawAt 1 <;> simp_all
  rw [run_sendCmd _ hb hr1, hf]
  exact runSeq_idle n rfl

/-- MEASURE whose poll times out (R109, R142). -/
theorem run_measure_timeout {c : Code} {r : List MicroInstr} (n : Nat) {s : State} (hb : s.busy = true)
    (hr : s.rest = measureRoutine c ++ r) (ha : s.acked 0) (h : s.neverReady 2) :
    runSeq (n + 261) s
      = .next (complete errReadyTimeout (afterWait (List.replicate 100 true) (afterSend c s))) := by
  have hr1 : s.rest = sendCmd c ++ (waitReady ++ (getData16 ++ (skipCrc ++ r))) := by
    rw [hr]; simp only [measureRoutine, List.append_assoc]
  rw [show n + 261 = n + 201 + 60 by omega, run_sendCmd _ hb hr1, ha.1, ha.2]
  rw [show conclude (afterSend c s, if (false || !true) = true then Flow.raise errHandshake
      else Flow.go (waitReady ++ (getData16 ++ (skipCrc ++ r))))
      = goOn (waitReady ++ (getData16 ++ (skipCrc ++ r))) (afterSend c s) from rfl]
  rw [run_waitReady_timeout n (by simpa using hb) rfl ((neverReady_drop (s := s) (m := 2) rfl rfl 0).2 h)]
  rfl

end Sys2Proof.Machine
end

