-- ==== Sys2Proof/Tests/Slice0.lean ====
section
/-! SUPPORT. Tests against the spec's written-out encodings and its vectors (95_test_vectors.md), the smoke test of the
well-formedness checks, and for each statement of Obligations.lean that has hypotheses a witness that meets them. Every
expected value is the spec's. -/

set_option maxRecDepth 20000

namespace Sys2Proof.Tests

open Sys2Proof Sys2Proof.Machine

/-! ## Decoding: words written out from R65 and R67 -/

theorem test_decode_open : decode 0b0000000000000000_00000000_0000_0001#32 = .ok (.openCmd 0x00#8) := by decide
theorem test_decode_close : decode 0b0000000000000000_00000000_0000_0010#32 = .ok (.closeCmd 0x00#8) := by decide
theorem test_decode_reset : decode 0b0000000000000000_11111111_0000_0011#32 = .ok (.resetCmd 0xFF#8) := by decide
theorem test_decode_readT : decode 0b0000000000000000_00000000_0000_0100#32 = .ok (.readT 0x00#8) := by decide
theorem test_decode_readRH : decode 0b0000000000000000_00000000_0000_0101#32 = .ok (.readRH 0x00#8) := by decide
theorem test_decode_readTRH : decode 0b0000000000000000_00000000_0000_0110#32 = .ok (.readTRH 0x00#8) := by decide
theorem test_decode_engSend : decode 0b0000000000000000_00000011_0000_1000#32 = .ok (.engSend 0x03#8) := by decide
theorem test_decode_engWait : decode 0b0000000000000000_00000000_0000_1001#32 = .ok (.engWait 0x00#8) := by decide
theorem test_decode_engGet16 : decode 0b0000000000000000_00000000_0000_1010#32 = .ok (.engGet16 0x00#8) := by decide
theorem test_decode_engSkipCrc : decode 0b0000000000000000_00000000_0000_1011#32 = .ok (.engSkipCrc 0x00#8) := by decide
theorem test_decode_calT : decode 0b0000000000000000_00000000_0000_1100#32 = .ok (.calT 0x00#8) := by decide
theorem test_decode_calRH : decode 0b0000000000000000_00000000_0000_1101#32 = .ok (.calRH 0x00#8) := by decide

/-- The illegal words of 95_test_vectors.md section 2.1. -/
theorem test_decode_illegal :
    decode 0x00000000#32 = .error .unassignedOp ∧ decode 0x00000007#32 = .error .unassignedOp
      ∧ decode 0x0000000E#32 = .error .unassignedOp ∧ decode 0x0000000F#32 = .error .unassignedOp
      ∧ decode 0x00000013#32 = .error .reservedBits ∧ decode 0x00010003#32 = .error .reservedBits
      ∧ decode 0x80000004#32 = .error .reservedBits := by decide

theorem test_decodeTableWord : decodeTableWord 32 0x0000FF08 = some (.engSend 0xFF#8) ∧ decodeTableWord 32 0xE = none := by decide

/-! ## Well-formedness: an ill-formed access for each check, which the check and the machine refuse -/

theorem test_illformed_width : (HostAccess.read 8 0x04#6).wellFormed = false := by decide
theorem test_illformed_alignment : (HostAccess.write 32 0x02#6 0#32).wellFormed = false := by decide

/-- The refusal of an outcome. -/
def refusalOf (o : Host.Outcome State Fault Refusal) : Option Refusal :=
  match o with
  | .next _ => none
  | .fault _ => none
  | .refused r => some r

/-- 95_test_vectors.md section 2.12: a byte read at offset 0x05. -/
theorem test_byteRead_refused :
    refusalOf (step { State.reset with host := [⟨.access (.read 8 0x05#6), 0⟩] }) = some .accessWidth := by decide
theorem test_misalignedWrite_refused :
    refusalOf (step { State.reset with host := [⟨.access (.write 32 0x02#6 1#32), 0⟩] }) = some .misalignedAccess := by decide

/-! ## Small states -/

/-- "Fresh READY" of 95_test_vectors.md, with a full window and the draws to come. -/
def readyState (draws : List Bool) : State :=
  { State.reset with
    life := lifeReady, done := true, ddir := true, cdir := true, cmdLast := 1#32, window := 716, draws := draws }

/-- After reset, with a full window and the draws to come. -/
def freshState (draws : List Bool) : State := { State.reset with window := 716, draws := draws }

/-- The bits of a word, most significant first. -/
def bits (v : Raw) : List Bool :=
  [v.getLsbD 15, v.getLsbD 14, v.getLsbD 13, v.getLsbD 12, v.getLsbD 11, v.getLsbD 10, v.getLsbD 9, v.getLsbD 8, v.getLsbD 7,
    v.getLsbD 6, v.getLsbD 5, v.getLsbD 4, v.getLsbD 3, v.getLsbD 2, v.getLsbD 1, v.getLsbD 0]

/-- What is asked of the next state. -/
def after {α : Type} (o : Host.Outcome State Fault Refusal) (f : State → α) : Option α :=
  match o with
  | .next s => some (f s)
  | .fault _ => none
  | .refused _ => none

/-- STATUS and PINS. -/
def seen (s : State) : Word × Word := (statusWord s, pinsWord s)

/-! ## One command each (95_test_vectors.md sections 2.1 to 2.10) -/

theorem test_open_granted :
    after (exec (.openCmd 0#8) (freshState [true, true])) seen = some (0x00000006#32, 0x7#32) := by decide
theorem test_open_refused :
    after (exec (.openCmd 0#8) (freshState [false, true])) (fun s => (seen s, s.drawCount))
      = some ((0x00000102#32, 0x2#32), 2) := by decide
theorem test_close :
    after (exec (.closeCmd 0#8) (readyState [])) seen = some (0x0000000A#32, 0x2#32) := by decide
theorem test_close_uninit :
    after (exec (.closeCmd 0#8) (freshState [])) seen = some (0x00000402#32, 0x2#32) := by decide
theorem test_reset :
    after (exec (.resetCmd 0#8) (readyState [])) (fun s => (seen s, s.upc)) = some ((0x00000006#32, 0x7#32), 43#10) := by
  decide +kernel
theorem test_engSend_ok :
    after (exec (.engSend 0x80#8) (readyState [false, true])) (fun s => (seen s, s.upc))
      = some ((0x00002006#32, 0x4#32), 60#10) := by decide +kernel
theorem test_engSend_badAck :
    after (exec (.engSend 0x03#8) (readyState [true, false])) seen = some (0x00001206#32, 0x6#32) := by decide +kernel
theorem test_engWait_ready :
    after (exec (.engWait 0#8) (readyState [true, true, false])) (fun s => (statusWord s, s.upc))
      = some (0x000C0006#32, 7#10) := by decide +kernel
theorem test_engWait_timeout :
    after (exec (.engWait 0#8) (readyState (List.replicate 100 true))) (fun s => (statusWord s, s.upc))
      = some (0x01900306#32, 201#10) := by decide +kernel
theorem test_engGet16 :
    after (exec (.engGet16 0#8) (readyState
        [true, false, true, false, false, true, false, true, true, true, false, false, false, false, true, true]))
      (fun s => (s.data16, seen s, s.upc)) = some (0xA5C3#16, (0x00010006#32, 0x4#32), 89#10) := by decide +kernel
theorem test_engSkipCrc :
    after (exec (.engSkipCrc 0#8) { readyState [] with ddir := false, dout := false }) (fun s => (pinsWord s, s.upc))
      = some (0x7#32, 7#10) := by decide
theorem test_calT :
    after (exec (.calT 0#8) { freshState [] with opa := 0x00010001#32 }) (fun s => (s.tempC, s.rawT, statusWord s))
      = some (0xFFFFF057#32, 1#16, 0x00004002#32) := by decide
theorem test_calRH_tie :
    after (exec (.calRH 0#8) { freshState [] with opb := 0xFFFFF072#32 }) (fun s => (s.rhNum, s.rhC))
      = some (0xFFFFFFF9B9A7A280#64, 0xFFFFFFFFFFFFFEF3#64) := by decide
theorem test_calRH_extreme :
    after (exec (.calRH 0#8) { freshState [] with opa := 65535#32, opb := 0x80000000#32 }) (fun s => (s.rhNum, s.rhC))
      = some (0xF05844D6DBB716ED#64, 0xFFFFFFFD5F9D4295#64) := by decide
theorem test_readT :
    after (exec (.readT 0#8) (readyState ([false, true, false] ++ bits 0x196E#16))) (fun s => (s.tempC, seen s, s.upc))
      = some (2500#32, (0x00056006#32, 0x7#32), 160#10) := by decide +kernel
theorem test_readT_lifecycle :
    after (exec (.readT 0#8) { freshState [] with tValid := true, rhValid := true }) statusWord = some 0x0000C402#32 := by
  decide
theorem test_readTRH_stageHFails :
    after (exec (.readTRH 0#8) (readyState ([false, true, true, false] ++ bits 0x196E#16 ++ [false, false])))
      (fun s => (s.tempC, s.data16, seen s, s.upc))
      = some (2500#32, 0x196E#16, (0x00094206#32, 0x6#32), 222#10) := by decide +kernel
theorem test_readRH :
    after (exec (.readRH 0#8) (readyState
        ([false, true, true, true, false] ++ bits 0x196E#16 ++ [false, true, false] ++ bits 0x1388#16)))
      (fun s => (s.tempC, s.rhC, s.rhNum, s.data16, seen s, s.upc))
      = some (2500#32, 14157#64, 1415657000000#64, 0x1388#16, (0x0005E006#32, 0x7#32), 324#10) := by decide +kernel

/-- P5: a command written while READ_T runs. -/
theorem test_reject :
    after (exec (.resetCmd 0#8) { readyState [] with busy := true, done := false, cmdLast := 4#32, window := 0 })
      (fun s => (statusWord s, s.cmdLast)) = some (0x00020005#32, 4#32) := by decide

/-- 95_test_vectors.md section 2.12, and the illegal word of section 2.1 in UNINIT. -/
theorem test_host_writes :
    after (step { State.reset with host := [⟨.access (writeAt 0x08#6 0x12345678#32), 0⟩] }) (fun s => hostRead 0x08#6 s)
        = some 0x12345678#32
      ∧ after (step { State.reset with host := [⟨.access (writeAt 0x10#6 5#32), 0⟩] }) (fun s => hostRead 0x10#6 s) = some 0#32
      ∧ after (step { State.reset with host := [⟨.access (writeAt 0x00#6 7#32), 0⟩] }) (fun s => (statusWord s, s.cmdLast))
        = some (0x00000502#32, 7#32) := by decide

/-- The register names of R48 and the expansion of `SEND_RH` and `CALRH 0, -3982` (R74, P3 step 6). -/
theorem test_program :
    turnsOf [.sendRH] = [atOnce (.write 32 0x00#6 0x00000508#32)]
      ∧ (turnsOf [.calRH 0#32 (-3982)]).take 3
        = [atOnce (.write 32 0x08#6 0#32), atOnce (.write 32 0x0C#6 0xFFFFF072#32), atOnce (.write 32 0x00#6 0x0000000D#32)] := by
  decide

/-! ## Witnesses: for each statement that has hypotheses, a state and operands that meet all of them -/

/-- A state in which READ_T has just been accepted. -/
def busyState : State :=
  { readyState [] with
    busy := true, done := false, cmdLast := 4#32, cur := some ⟨.readT 0#8, some .temperature⟩, rest := readTRoutine, window := 0 }

/-- CLOSED, after CLOSE. -/
def closedState : State := { State.reset with life := lifeClosed, done := true }

/-- The draws of a measurement whose poll takes one sample and whose word is v. -/
def good (v : Raw) : List Bool := [false, true, false] ++ bits v

/-- The draws of a measurement whose poll takes a hundred samples and whose word is v. -/
def late (v : Raw) : List Bool := [false, true] ++ List.replicate 99 true ++ [false] ++ bits v

theorem idle_ready (draws : List Bool) {n : Nat} (h : n ≤ 716) : (readyState draws).idleFor n :=
  ⟨(by decide : lifeReady ≠ 3#2), (by decide : errNone.toNat ≤ 5), rfl, h⟩
theorem idle_fresh (draws : List Bool) {n : Nat} (h : n ≤ 716) : (freshState draws).idleFor n :=
  ⟨(by decide : lifeUninit ≠ 3#2), (by decide : errNone.toNat ≤ 5), rfl, h⟩
theorem idle_reset : State.reset.idleFor 0 := ⟨by decide, by decide, rfl, by decide⟩
theorem busy_legal : busyState.legalCodes := ⟨by decide, by decide⟩

theorem witness_DecodeAndEncodeAgree :
    (Instr.engSend 0xFF#8).wellFormed = true ∧ decode 0x0000FF08#32 = .ok (.engSend 0xFF#8) := by decide

theorem witness_LegalWordsAreExactlyThose :
    (Instr.readT 0xFF#8).opcode = (Instr.readT 0#8).opcode ∧ (Instr.readT 0xFF#8).arg8 = 0xFF#8 := by decide

theorem witness_StepRunsTheDecodedCommand :
    { State.reset with host := [⟨.access (writeAt 0x00#6 0x0000000C#32), 1⟩] }.host
        = [⟨.access (writeAt 0x00#6 0x0000000C#32), 1⟩] ∧ decode 0x0000000C#32 = .ok (.calT 0#8) := by decide

theorem witness_FetchWordRunsNext : decodeTableWord 32 0x00000308 = some (.engSend 0x03#8) := by decide

theorem witness_StatusLayout :
    ({ State.reset with host := [⟨.access (readAt 0x04#6), 0⟩] } : State).legalCodes
      ∧ ({ State.reset with host := [⟨.access (writeAt 0x04#6 0xFFFFFFFF#32), 0⟩] } : State).legalCodes :=
  ⟨⟨by decide, by decide⟩, ⟨by decide, by decide⟩⟩

theorem witness_PinsShowThePinState :
    ({ busyState with host := [⟨.access (writeAt 0x30#6 0xFFFFFFFF#32), 0⟩] } : State).legalCodes :=
  ⟨by decide, by decide⟩

theorem witness_WritesStoreOnlyOperands :
    ({ busyState with host := [⟨.access (writeAt 0x08#6 0xFFFFFFFF#32), 0⟩] } : State).legalCodes
      ∧ ({ busyState with host := [⟨.access (writeAt 0x0C#6 0xFFFFFFFF#32), 0⟩] } : State).legalCodes
      ∧ ({ busyState with host := [⟨.access (writeAt 0x3C#6 0xFFFFFFFF#32), 0⟩] } : State).legalCodes
      ∧ 0x3C#6 ∈ [0x04#6, 0x10#6, 0x14#6, 0x18#6, 0x1C#6, 0x20#6, 0x24#6, 0x28#6, 0x2C#6, 0x30#6, 0x34#6, 0x38#6, 0x3C#6] :=
  ⟨⟨by decide, by decide⟩, ⟨by decide, by decide⟩, ⟨by decide, by decide⟩, by decide⟩

theorem witness_MalformedAccessesAreRefused :
    ({ State.reset with host := [⟨.access (.write 31 0x00#6 1#32), 0⟩] } : State).legalCodes
      ∧ (HostAccess.write 31 0x00#6 1#32).fullWord = false
      ∧ ({ State.reset with host := [⟨.access (.write 32 0x01#6 1#32), 0⟩] } : State).legalCodes
      ∧ (HostAccess.write 32 0x01#6 1#32).fullWord = true ∧ (HostAccess.write 32 0x01#6 1#32).off.extractLsb' 0 2 ≠ 0#2 :=
  ⟨⟨by decide, by decide⟩, by decide, ⟨by decide, by decide⟩, by decide, by decide⟩

theorem witness_ReadsHaveNoSideEffect : (0x3C#6 : Offset).extractLsb' 0 2 = 0#2 := by decide

theorem witness_BusyWriteIsRejected :
    busyState.legalCodes ∧ busyState.busy = true ∧ busyState.window = 0
      ∧ ({ busyState with host := [⟨.access (writeAt 0x00#6 7#32), 0⟩] } : State).legalCodes
      ∧ ({ busyState with host := [⟨.access (writeAt 0x00#6 7#32), 0⟩] } : State).busy = true :=
  ⟨busy_legal, rfl, rfl, ⟨by decide, by decide⟩, rfl⟩

theorem witness_RejectedCommandDisturbsNothing : busyState.busy = true := by decide

theorem witness_IllegalWordCompletesAtOnce :
    ({ State.reset with host := [⟨.access (writeAt 0x00#6 0x80000004#32), 9⟩] } : State).idleFor 0
      ∧ decode 0x80000004#32 = .error .reservedBits ∧ decode 0x00000000#32 = .error .unassignedOp :=
  ⟨⟨by decide, by decide, rfl, by decide⟩, by decide, by decide⟩

theorem witness_LifecycleViolationCompletesAtOnce :
    (closedState.idleFor 0 ∧ (Instr.openCmd 0#8).opcode = 0x1#4 ∧ closedState.life ≠ lifeUninit)
      ∧ (State.reset.idleFor 0 ∧ (Instr.closeCmd 0#8).opcode = 0x2#4 ∧ State.reset.life = lifeUninit)
      ∧ (closedState.idleFor 0 ∧ closedState.life = lifeClosed)
      ∧ (State.reset.idleFor 0 ∧ (Instr.engSkipCrc 0#8).opcode ∈ [0x3#4, 0x4#4, 0x5#4, 0x6#4, 0x8#4, 0x9#4, 0xA#4, 0xB#4]
        ∧ State.reset.life ≠ lifeReady) :=
  ⟨⟨⟨by decide, by decide, rfl, by decide⟩, by decide, by decide⟩, ⟨idle_reset, by decide, by decide⟩,
    ⟨⟨by decide, by decide, rfl, by decide⟩, by decide⟩, ⟨idle_reset, by decide, by decide⟩⟩

theorem witness_CommandStartsInItsAcceptanceStep :
    (State.reset.idleFor 0 ∧ State.reset.window = 0 ∧ (Instr.openCmd 0#8).runsIn State.reset.life = true)
      ∧ (closedState.idleFor 0 ∧ closedState.window = 0 ∧ (Instr.calRH 0#8).runsIn closedState.life = true)
      ∧ (Instr.readTRH 0#8).runsIn lifeReady = true :=
  ⟨⟨idle_reset, rfl, by decide⟩, ⟨⟨by decide, by decide, rfl, by decide⟩, rfl, by decide⟩, by decide⟩

theorem witness_OpenWithBothGrants :
    (freshState [true, true]).idleFor 4 ∧ (freshState [true, true]).life = lifeUninit
      ∧ (freshState [true, true]).drawAt 0 = true ∧ (freshState [true, true]).drawAt 1 = true :=
  ⟨idle_fresh _ (by decide), rfl, rfl, rfl⟩

theorem witness_OpenWithAGrantRefused :
    (freshState [true, false]).idleFor 2 ∧ (freshState [true, false]).life = lifeUninit
      ∧ ¬((freshState [true, false]).drawAt 0 = true ∧ (freshState [true, false]).drawAt 1 = true) :=
  ⟨idle_fresh _ (by decide), rfl, by decide⟩

theorem witness_CloseReleasesThePins : (readyState []).idleFor 2 ∧ (readyState []).life = lifeReady :=
  ⟨idle_ready _ (by decide), rfl⟩

theorem witness_CloseIsIdempotent :
    (closedState.idleFor 0 ∧ closedState.life = lifeClosed) ∧ ((readyState []).idleFor 2 ∧ (readyState []).life = lifeReady)
      ∧ (State.reset.idleFor 0 ∧ State.reset.life = lifeUninit) :=
  ⟨⟨⟨by decide, by decide, rfl, by decide⟩, rfl⟩, ⟨idle_ready _ (by decide), rfl⟩, ⟨idle_reset, rfl⟩⟩

/-- Fresh READY meets the invariant. -/
theorem ready_inv (draws : List Bool) : MachineInv (readyState draws) := by
  constructor <;> simp [readyState, State.reset, parked, lifeReady, errNone]

/-- So does CLOSED after CLOSE. -/
theorem closed_inv : MachineInv closedState := by
  constructor <;> simp [closedState, State.reset, parked, lifeReady, lifeClosed, errNone]

/-- So does a command in the middle of its run, SCK high. -/
def midCommand : State :=
  { readyState [] with
    busy := true, done := false, cmdLast := 0xB#32, cur := some ⟨.engSkipCrc 0#8, none⟩, cout := true
    rest := [plain .settle] ++ sckDown .none, upc := 4#10, trace := [.drv .sck true, .drv .data true], window := 1 }

theorem mid_inv : MachineInv midCommand := by
  constructor <;>
    simp [midCommand, readyState, State.reset, sckDown, plain, safeFrom, opSafe, postSafe, settleNext, parked,
      cdirAfter, coutAfter, lifeAfter, lifeReady, errNone]

theorem witness_LifecycleNeverGoesBack :
    MachineInv { closedState with host := [⟨.quiet, 1⟩] }
      ∧ (step { closedState with host := [⟨.quiet, 1⟩] } = .next { closedState with host := [], window := 1 })
      ∧ ∀ n ts, ({ closedState with host := [⟨.quiet, 1⟩] } : State).host ≠ ⟨.rst, n⟩ :: ts :=
  ⟨⟨closed_inv.1, closed_inv.2, closed_inv.3, closed_inv.4, closed_inv.5, closed_inv.6, closed_inv.7, closed_inv.8,
    closed_inv.9, closed_inv.10, closed_inv.11, closed_inv.12⟩, rfl, by intro n ts h; cases h⟩

theorem witness_ResetPulsesTheClockTenTimes : (readyState []).idleFor 43 ∧ (readyState []).life = lifeReady :=
  ⟨idle_ready _ (by decide), rfl⟩

theorem witness_EngSendSendsItsCode : (readyState [false, true]).idleFor 60 ∧ (readyState [false, true]).life = lifeReady :=
  ⟨idle_ready _ (by decide), rfl⟩

theorem witness_CodeGoesOutMostSignificantBitFirst :
    (readyState [true, true]).idleFor 60 ∧ (readyState [true, true]).life = lifeReady := ⟨idle_ready _ (by decide), rfl⟩

/-- At the two ends of k's range. -/
theorem witness_EngWaitReturnsAtTheFirstLowSample :
    ((readyState [false]).idleFor (1 + 2 * 1) ∧ (readyState [false]).life = lifeReady ∧ (readyState [false]).readyAfter 0 1)
      ∧ ((readyState (List.replicate 99 true ++ [false])).idleFor (1 + 2 * 100)
        ∧ (readyState (List.replicate 99 true ++ [false])).readyAfter 0 100) :=
  ⟨⟨idle_ready _ (by decide), rfl, by decide, by decide, by decide, rfl⟩,
    ⟨idle_ready _ (by decide), by decide, by decide, by decide, rfl⟩⟩

theorem witness_EngWaitTimesOutAfterAHundredSamples :
    (readyState (List.replicate 100 true)).idleFor 201 ∧ (readyState (List.replicate 100 true)).life = lifeReady
      ∧ (readyState (List.replicate 100 true)).neverReady 0 :=
  ⟨idle_ready _ (by decide), rfl, by unfold State.neverReady; decide⟩

theorem witness_EngGet16CommitsItsWord : (readyState (bits 0x8001#16)).idleFor 89 ∧ (readyState (bits 0x8001#16)).life = lifeReady :=
  ⟨idle_ready _ (by decide), rfl⟩

theorem witness_ShiftInLaw :
    (readyState (bits 0x8001#16)).idleFor 89 ∧ (readyState (bits 0x8001#16)).life = lifeReady
      ∧ ∀ j, j < 16 → (readyState (bits 0x8001#16)).drawAt j = (0x8001#16 : Raw).getLsbD (15 - j) :=
  ⟨idle_ready _ (by decide), rfl, by decide⟩

theorem witness_EngSkipCrcPulsesOnce : (readyState []).idleFor 7 ∧ (readyState []).life = lifeReady :=
  ⟨idle_ready _ (by decide), rfl⟩

theorem witness_MicroOperationCounts :
    ((Instr.engGet16 0#8).opcode, 89) ∈ [(0x2#4, 2), (0x3#4, 43), (0x8#4, 60), (0xA#4, 89), (0xB#4, 7), (0xC#4, 1), (0xD#4, 1)]
      ∧ (readyState []).idleFor 0 ∧ (Instr.engGet16 0#8).runsIn (readyState []).life = true :=
  ⟨by decide, idle_ready _ (by decide), by decide⟩

theorem witness_CalTCommitsTheTemperature : (freshState []).idleFor 1 ∧ (readyState []).idleFor 1 :=
  ⟨idle_fresh _ (by decide), idle_ready _ (by decide)⟩

theorem witness_CalRHCommitsTheHumidity : (freshState []).idleFor 1 ∧ (readyState []).idleFor 1 :=
  ⟨idle_fresh _ (by decide), idle_ready _ (by decide)⟩

theorem witness_HumidityRoundsToNearest : (-250000000 : Int) % 100000000 = 50000000 := by decide

theorem witness_CalibrationHasNoBranchDiscontinuity :
    (-26950000000 : Int) ≤ 35750000000 ∧ (65535#16 : Raw).toNat = (65534#16 : Raw).toNat + 1 := by decide

theorem acked_good (v : Raw) : (readyState (good v)).acked 0 := ⟨rfl, rfl⟩
theorem ready_good (v : Raw) : (readyState (good v)).readyAfter 2 1 := ⟨by decide, by decide, by simp, rfl⟩
theorem acked_late (v : Raw) : (readyState (late v)).acked 0 := ⟨rfl, rfl⟩
theorem ready_late : (readyState (late 0x0000#16)).readyAfter 2 100 := ⟨by decide, by decide, by decide, rfl⟩

/-- At the two ends of k's range. -/
theorem witness_ReadTSucceeds :
    ((readyState (good 0x196E#16)).idleFor (158 + 2 * 1) ∧ (readyState (good 0x196E#16)).life = lifeReady
        ∧ (readyState (good 0x196E#16)).acked 0 ∧ (readyState (good 0x196E#16)).readyAfter 2 1)
      ∧ ((readyState (late 0x0000#16)).idleFor (158 + 2 * 100) ∧ (readyState (late 0x0000#16)).acked 0
        ∧ (readyState (late 0x0000#16)).readyAfter 2 100) :=
  ⟨⟨idle_ready _ (by decide), rfl, acked_good _, ready_good _⟩, ⟨idle_ready _ (by decide), acked_late _, ready_late⟩⟩

/-- The draws of a poll that times out. -/
def silent : List Bool := [false, true] ++ List.replicate 100 true

theorem never_silent : (readyState silent).neverReady 2 := by unfold State.neverReady; decide

theorem witness_ReadTFails :
    ((readyState [true, true]).idleFor 60 ∧ (readyState [true, true]).life = lifeReady ∧ ¬(readyState [true, true]).acked 0)
      ∧ ((readyState silent).idleFor 261 ∧ (readyState silent).life = lifeReady ∧ (readyState silent).acked 0
        ∧ (readyState silent).neverReady 2) :=
  ⟨⟨idle_ready _ (by decide), rfl, by unfold State.acked; decide⟩, ⟨idle_ready _ (by decide), rfl, ⟨rfl, rfl⟩, never_silent⟩⟩

/-- The draws of a composite read whose polls take one sample each. -/
def both : List Bool := good 0x196E#16 ++ good 0x1388#16

/-- The draws of a composite read whose polls take a hundred samples each. -/
def bothLate : List Bool := late 0x196E#16 ++ late 0x1388#16

/-- At the two ends of k's and m's range; the second takes the whole window of 716. -/
theorem witness_ReadTRHSucceeds :
    ((readyState both).idleFor (316 + 2 * (1 + 1)) ∧ (readyState both).life = lifeReady ∧ (readyState both).acked 0
        ∧ (readyState both).readyAfter 2 1 ∧ (readyState both).acked (1 + 18) ∧ (readyState both).readyAfter (1 + 20) 1)
      ∧ ((readyState bothLate).idleFor (316 + 2 * (100 + 100)) ∧ (readyState bothLate).acked 0
        ∧ (readyState bothLate).readyAfter 2 100 ∧ (readyState bothLate).acked (100 + 18)
        ∧ (readyState bothLate).readyAfter (100 + 20) 100) :=
  ⟨⟨idle_ready _ (by decide), rfl, ⟨rfl, rfl⟩, ⟨by decide, by decide, by decide, rfl⟩, ⟨rfl, rfl⟩,
      ⟨by decide, by decide, by decide, rfl⟩⟩,
    ⟨idle_ready _ (by decide), ⟨rfl, rfl⟩, ⟨by decide, by decide, by decide, rfl⟩, ⟨rfl, rfl⟩,
      ⟨by decide, by decide, by decide, rfl⟩⟩⟩

theorem witness_ReadTRHFailsInItsTemperatureStage :
    (readyState [false, false]).life = lifeReady ∧ (readyState [false, false]).idleFor 60
      ∧ ¬(readyState [false, false]).acked 0 ∧ (readyState silent).life = lifeReady ∧ (readyState silent).idleFor 261
      ∧ (readyState silent).acked 0 ∧ (readyState silent).neverReady 2 :=
  ⟨rfl, idle_ready _ (by decide), by unfold State.acked; decide, rfl, idle_ready _ (by decide), ⟨rfl, rfl⟩, never_silent⟩

theorem witness_ReadTRHFailsInItsHumidityStage :
    ((readyState (good 0x196E#16 ++ [false, false])).acked 0 ∧ (readyState (good 0x196E#16 ++ [false, false])).readyAfter 2 1
        ∧ (readyState (good 0x196E#16 ++ [false, false])).idleFor (218 + 2 * 1)
        ∧ ¬(readyState (good 0x196E#16 ++ [false, false])).acked (1 + 18))
      ∧ ((readyState (late 0x196E#16 ++ silent)).acked 0 ∧ (readyState (late 0x196E#16 ++ silent)).readyAfter 2 100
        ∧ (readyState (late 0x196E#16 ++ silent)).idleFor (419 + 2 * 100)
        ∧ (readyState (late 0x196E#16 ++ silent)).acked (100 + 18)
        ∧ (readyState (late 0x196E#16 ++ silent)).neverReady (100 + 20)) :=
  ⟨⟨⟨rfl, rfl⟩, ⟨by decide, by decide, by decide, rfl⟩, idle_ready _ (by decide), by unfold State.acked; decide⟩,
    ⟨⟨rfl, rfl⟩, ⟨by decide, by decide, by decide, rfl⟩, idle_ready _ (by decide), ⟨rfl, rfl⟩,
      by unfold State.neverReady; decide⟩⟩

theorem witness_CompositeReadIsExact :
    (Instr.readRH 0#8 = .readTRH 0#8 ∨ Instr.readRH 0#8 = .readRH 0#8)
      ∧ (readyState both).idleFor (316 + 2 * (1 + 1)) ∧ (readyState both).life = lifeReady ∧ (readyState both).acked 0
      ∧ (readyState both).readyAfter 2 1 ∧ (readyState both).acked (1 + 18) ∧ (readyState both).readyAfter (1 + 20) 1 :=
  ⟨.inr rfl, idle_ready _ (by decide), rfl, ⟨rfl, rfl⟩, ⟨by decide, by decide, by decide, rfl⟩, ⟨rfl, rfl⟩,
    ⟨by decide, by decide, by decide, rfl⟩⟩

theorem witness_EngineSequenceIsOneReadStage :
    (readyState (good 0xFFFF#16)).idleFor (158 + 2 * 1) ∧ (readyState (good 0xFFFF#16)).life = lifeReady
      ∧ (readyState (good 0xFFFF#16)).acked 0 ∧ (readyState (good 0xFFFF#16)).readyAfter 2 1 :=
  ⟨idle_ready _ (by decide), rfl, acked_good _, ready_good _⟩

theorem witness_OnlyEngSendReadsArg8 :
    (Instr.readT 0xFF#8).opcode = (Instr.readT 0#8).opcode ∧ (Instr.readT 0xFF#8).opcode ≠ 0x8#4 := by decide

theorem witness_HardwareResetTakesOneStep : ({ midCommand with host := [⟨.rst, 0⟩] } : State).host = [⟨.rst, 0⟩] := rfl

theorem witness_StepKeepsInv :
    MachineInv midCommand ∧ step midCommand = .next { midCommand with
      tmr := 0, upc := 5#10, trace := [.settle, .drv .sck true, .drv .data true], cycles := 0 + Config.settleCycles
      rest := sckDown .none } := ⟨mid_inv, rfl⟩

theorem witness_NoModelFaultIsReached : MachineInv midCommand ∧ MachineInv (readyState []) := ⟨mid_inv, ready_inv _⟩

theorem witness_EveryCommandCompletes : (readyState []).idleFor 716 ∧ (freshState []).idleFor 716 :=
  ⟨idle_ready _ (by decide), idle_fresh _ (by decide)⟩

theorem witness_TimingContractIsKept :
    MachineInv { readyState [] with window := 0 } ∧ ({ readyState [] with window := 0 } : State).busy = false
      ∧ (Instr.resetCmd 0#8).runsIn lifeReady = true
      ∧ ∃ t, exec (.resetCmd 0#8) { readyState [] with window := 0 } = .next t :=
  ⟨⟨(ready_inv []).1, (ready_inv []).2, (ready_inv []).3, (ready_inv []).4, (ready_inv []).5, (ready_inv []).6,
    (ready_inv []).7, (ready_inv []).8, (ready_inv []).9, (ready_inv []).10, (ready_inv []).11, (ready_inv []).12⟩, rfl,
    by decide, _, rfl⟩

theorem witness_IdleTakesNoStep :
    ((readyState []).legalCodes ∧ (readyState []).host = [] ∧ (readyState []).busy = false)
      ∧ (midCommand.legalCodes ∧ midCommand.host = [] ∧ midCommand.busy = true
        ∧ ∃ t, microStep midCommand = .next t) :=
  ⟨⟨⟨by decide, by decide⟩, rfl, rfl⟩, ⟨⟨by decide, by decide⟩, rfl, rfl, _, rfl⟩⟩

theorem witness_CommandFrame :
    ({ readyState [] with window := 0 } : State).busy = false
      ∧ (∃ t, exec (.calT 0#8) { readyState [] with window := 0 } = .next t)
      ∧ (Instr.calT 0#8).writesRH = false ∧ (Instr.calT 0#8).writesD16 = false ∧ (Instr.calT 0#8).writesAck = false
      ∧ (Instr.calT 0#8).writesPolls = false ∧ (Instr.calT 0#8).writesLife = false ∧ (Instr.calT 0#8).writesDir = false
      ∧ (Instr.calT 0#8).writesLatch = false ∧ (Instr.resetCmd 0#8).writesT = false :=
  ⟨rfl, ⟨_, rfl⟩, by decide, by decide, by decide, by decide, by decide, by decide, by decide, by decide⟩

theorem witness_RunningCommandIgnoresHostWrites : busyState.busy = true := by decide

/-- An outcome that can be looked into is a next state. -/
theorem next_of_after {α : Type} {o : Host.Outcome State Fault Refusal} {f : State → α} {x : α} (h : after o f = some x) :
    ∃ t, o = .next t := by
  cases o with
  | next t => exact ⟨t, rfl⟩
  | fault _ => cases h
  | refused _ => cases h

/-- The draws of a composite read whose polls take three samples and one. -/
def threeThenOne : List Bool :=
  [false, true, true, true, false] ++ bits 0x196E#16 ++ [false, true, false] ++ bits 0x1388#16

theorem witness_CommandsLastAtLeastTheirDelays :
    ((readyState []).idleFor 43 ∧ (readyState []).life = lifeReady ∧ ∃ t, exec (.resetCmd 0#8) (readyState []) = .next t)
      ∧ ((readyState (List.replicate 100 true)).idleFor 201 ∧ (readyState (List.replicate 100 true)).neverReady 0
        ∧ ∃ t, exec (.engWait 0#8) (readyState (List.replicate 100 true)) = .next t)
      ∧ ((readyState (good 0x196E#16)).idleFor (158 + 2 * 1) ∧ (readyState (good 0x196E#16)).acked 0
        ∧ (readyState (good 0x196E#16)).readyAfter 2 1 ∧ ∃ t, exec (.readT 0#8) (readyState (good 0x196E#16)) = .next t)
      ∧ ((readyState threeThenOne).idleFor (316 + 2 * (3 + 1)) ∧ (readyState threeThenOne).acked 0
        ∧ (readyState threeThenOne).readyAfter 2 3 ∧ (readyState threeThenOne).acked (3 + 18)
        ∧ (readyState threeThenOne).readyAfter (3 + 20) 1 ∧ ∃ t, exec (.readRH 0#8) (readyState threeThenOne) = .next t) :=
  ⟨⟨idle_ready _ (by decide), rfl, next_of_after test_reset⟩,
    ⟨idle_ready _ (by decide), witness_EngWaitTimesOutAfterAHundredSamples.2.2, next_of_after test_engWait_timeout⟩,
    ⟨idle_ready _ (by decide), acked_good _, ready_good _, next_of_after test_readT⟩,
    ⟨idle_ready _ (by decide), ⟨rfl, rfl⟩, ⟨by decide, by decide, by decide, rfl⟩, ⟨rfl, rfl⟩,
      ⟨by decide, by decide, by decide, rfl⟩, next_of_after test_readRH⟩⟩

end Sys2Proof.Tests
end

/-! The family of scope (R6, R189 to R192): the delay parameters cover their delays, and so the cycles of a command do. The
runs of RESET, of ENG_WAIT that times out and of the reads that succeed are given once, as a whole next state. -/

section
namespace Sys2Proof.Machine

/-! ## The delay parameters (R6) -/

/-- `T_SETTLE_MIN` as a function of its margin. With the margin a variable, unfolding it leaves no closed term that Lean would
try to evaluate in unary. -/
def settleMinPsWith (margin : Nat) : Nat := Config.settleCycles * 10 ^ 12 / Config.clkHz - margin

theorem settleMinPs_eq : Config.settleMinPs = settleMinPsWith Config.settleMargin := rfl

theorem settleMinPsWith_mul_clkHz_le (margin : Nat) :
    settleMinPsWith margin * Config.clkHz ≤ Config.settleCycles * 10 ^ 12 :=
  (Nat.mul_le_mul_right _ (Nat.sub_le _ margin)).trans (Nat.div_mul_le_self _ _)

/-- `P_SETTLE_CYCLES` at `P_CLK_HZ` last `T_SETTLE_MIN` at least. -/
theorem settleMinPs_mul_clkHz_le : Config.settleMinPs * Config.clkHz ≤ Config.settleCycles * 10 ^ 12 := by
  rw [settleMinPs_eq]
  exact settleMinPsWith_mul_clkHz_le _

/-- `P_POLL_CYCLES` at `P_CLK_HZ` last 10 ms at least. -/
theorem clkHz_le_pollCycles : Config.clkHz ≤ 100 * Config.pollCycles := by
  have hpos : 0 < Config.pollCycles := Config.pollCyclesPos.pos
  have hmod : Config.clkHzRaw % (100 * Config.pollCycles) < 100 * Config.pollCycles := Nat.mod_lt _ (by omega)
  unfold Config.clkHz
  omega

/-- Settles O59: the parameters are positive by their type, and each bound is the one its definition divides out. -/
theorem delayParametersCoverTheDelays : Obligations.DelayParametersCoverTheDelays :=
  ⟨Config.settleCyclesPos.pos, Config.pollCyclesPos.pos, Config.calCyclesPos.pos, Nat.le_add_right _ _,
    settleMinPs_mul_clkHz_le, clkHz_le_pollCycles⟩

/-- A command that counted k poll delays and n settle delays at least lasted as long as they do (R191). -/
theorem lastedAtLeast_of_delays {t : State} {k n : Nat}
    (h : k * Config.pollCycles + n * Config.settleCycles ≤ t.cycles) :
    t.lastedAtLeast (k * pollMinPs + n * Config.settleMinPs) := by
  have hpoll := Nat.mul_le_mul_left (k * 10 ^ 10) clkHz_le_pollCycles
  have hsettle := Nat.mul_le_mul_left n settleMinPs_mul_clkHz_le
  have hcycles := Nat.mul_le_mul_right (10 ^ 12) h
  unfold State.lastedAtLeast pollMinPs
  linarith

theorem lastedAtLeast_of_settles {t : State} {n : Nat} (h : n * Config.settleCycles ≤ t.cycles) :
    t.lastedAtLeast (n * Config.settleMinPs) := by
  have hd : 0 * Config.pollCycles + n * Config.settleCycles ≤ t.cycles := by rwa [Nat.zero_mul, Nat.zero_add]
  have ht := lastedAtLeast_of_delays hd
  rwa [Nat.zero_mul, Nat.zero_add] at ht

theorem lastedAtLeast_of_polls {t : State} {k : Nat} (h : k * Config.pollCycles ≤ t.cycles) :
    t.lastedAtLeast (k * pollMinPs) := by
  have hd : k * Config.pollCycles + 0 * Config.settleCycles ≤ t.cycles := by rwa [Nat.zero_mul, Nat.add_zero]
  have ht := lastedAtLeast_of_delays hd
  rwa [Nat.zero_mul, Nat.add_zero] at ht

/-! ## Calibration steps -/

/-- A `CALC` counts P_CAL_CYCLES (R99), whatever it commits. -/
theorem effect_calc_cycles (k : CalcKind) (p : Post) (s : State) :
    (effect ⟨.calc k, p⟩ s).cycles = s.cycles + Config.calCycles := by
  cases k <;> cases p <;> rfl

theorem effect_calc_draws (k : CalcKind) (p : Post) (s : State) : (effect ⟨.calc k, p⟩ s).draws = s.draws := by
  cases k <;> cases p <;> rfl

theorem effect_calc_drawCount (k : CalcKind) (p : Post) (s : State) :
    (effect ⟨.calc k, p⟩ s).drawCount = s.drawCount := by
  cases k <;> cases p <;> rfl

/-! ## The runs of the composite reads -/

/-- What READ_T's routine writes where it succeeds (R144). -/
def afterReadT (k : Nat) (s : State) : State :=
  effect (plain (.calc .stageT)) (afterMeasure Config.cmdTemp k s)

/-- What READ_TRH's temperature stage writes where it succeeds (R145). -/
def afterStageT (k : Nat) (s : State) : State :=
  effect ⟨.calc .stageT, .enterStageH⟩ (afterMeasure Config.cmdTemp k s)

/-- What READ_TRH's routine writes where both its stages succeed (R145). -/
def afterReadTRH (k m : Nat) (s : State) : State :=
  effect (plain (.calc .stageH)) (afterMeasure Config.cmdHumi m (afterStageT k s))

theorem afterReadT_cycles (k : Nat) (s : State) :
    (afterReadT k s).cycles = s.cycles + cyclesMeasure k + Config.calCycles :=
  effect_calc_cycles _ _ _

theorem afterStageT_cycles (k : Nat) (s : State) :
    (afterStageT k s).cycles = s.cycles + cyclesMeasure k + Config.calCycles :=
  effect_calc_cycles _ _ _

theorem afterReadTRH_cycles (k m : Nat) (s : State) :
    (afterReadTRH k m s).cycles = s.cycles + cyclesMeasure k + cyclesMeasure m + 2 * Config.calCycles := by
  have h : (afterReadTRH k m s).cycles = (afterStageT k s).cycles + cyclesMeasure m + Config.calCycles :=
    effect_calc_cycles _ _ _
  rw [h, afterStageT_cycles]
  ring

/-- The temperature stage takes k + 18 draws. -/
theorem afterStageT_draws (k : Nat) (s : State) : (afterStageT k s).draws = s.draws.drop (k + 18) :=
  effect_calc_draws _ _ _

theorem afterStageT_drawCount (k : Nat) (s : State) : (afterStageT k s).drawCount = s.drawCount + (k + 18) :=
  effect_calc_drawCount _ _ _

theorem acked_drop {s t : State} {m : Nat} (hd : t.draws = s.draws.drop m) (hc : t.drawCount = s.drawCount + m)
    (n : Nat) : t.acked n ↔ s.acked (m + n) := by
  simp [State.acked, drawAt_drop hd hc, Nat.add_assoc]

theorem afterMeasure_goOn (c : Code) (k : Nat) (r : List MicroInstr) (s : State) :
    afterMeasure c k (goOn r s) = goOn r (afterMeasure c k s) := rfl

/-- Completion leaves nothing to perform, whatever was left (R83). -/
theorem complete_goOn (e : ErrCode) (r : List MicroInstr) (s : State) : complete e (goOn r s) = complete e s := rfl

/-- A routine whose last micro-operation is a `CALC` finishes with it (R83, R91). -/
theorem run_calc_last (k : CalcKind) (n : Nat) {s : State} (hb : s.busy = true) :
    runSeq (n + 1) (goOn [plain (.calc k)] s) = .next (complete errNone (effect (plain (.calc k)) s)) := by
  rw [runSeq_cons (s := goOn [plain (.calc k)] s) n hb rfl rfl, advance_last rfl, runSeq_idle n (complete_busy ..), effect_rest,
    complete_goOn]

/-- READ_T's routine where its handshake passes and its poll returns (R144). -/
theorem run_readT {k : Nat} (n : Nat) {s : State} (hb : s.busy = true) (hr : s.rest = readTRoutine) (ha : s.acked 0)
    (h : s.readyAfter 2 k) : runSeq (n + (158 + 2 * k)) s = .next (complete errNone (afterReadT k s)) := by
  rw [show n + (158 + 2 * k) = n + 1 + (157 + 2 * k) by omega, run_measure (n + 1) hb hr ha h]
  exact run_calc_last .stageT n hb

/-- READ_TRH's temperature stage where its handshake passes and its poll returns (R145). -/
theorem run_stageT {k : Nat} (n : Nat) {s : State} (hb : s.busy = true) (hr : s.rest = readTRHRoutine) (ha : s.acked 0)
    (h : s.readyAfter 2 k) :
    runSeq (n + (158 + 2 * k)) s
      = runSeq n (goOn (measureRoutine Config.cmdHumi ++ [plain (.calc .stageH)]) (afterStageT k s)) := by
  have hr' : s.rest = measureRoutine Config.cmdTemp
      ++ ⟨.calc .stageT, .enterStageH⟩ :: (measureRoutine Config.cmdHumi ++ [plain (.calc .stageH)]) := by
    rw [hr, readTRHRoutine, List.append_assoc, List.append_assoc]; rfl
  obtain ⟨j, r, hj⟩ : ∃ j r, measureRoutine Config.cmdHumi ++ [plain (.calc .stageH)] = j :: r := ⟨_, _, rfl⟩
  rw [show n + (158 + 2 * k) = n + 1 + (157 + 2 * k) by omega, run_measure (n + 1) hb hr' ha h,
    runSeq_cons n (by simpa using hb) (goOn_rest ..) rfl, hj, advance_straight rfl, effect_rest]
  rfl

/-- READ_TRH's routine where both handshakes pass and both polls return (R145). -/
theorem run_readTRH {k m : Nat} (n : Nat) {s : State} (hb : s.busy = true) (hr : s.rest = readTRHRoutine)
    (ha : s.acked 0) (h : s.readyAfter 2 k) (ha' : s.acked (k + 18)) (h' : s.readyAfter (k + 20) m) :
    runSeq (n + (316 + 2 * (k + m))) s = .next (complete errNone (afterReadTRH k m s)) := by
  have hb₂ : (afterStageT k s).busy = true := (effect_busy _ _).trans hb
  rw [show n + (316 + 2 * (k + m)) = n + 1 + (157 + 2 * m) + (158 + 2 * k) by omega, run_stageT _ hb hr ha h]
  generalize hu : goOn (measureRoutine Config.cmdHumi ++ [plain (.calc .stageH)]) (afterStageT k s) = u
  have hd : u.draws = s.draws.drop (k + 18) := by rw [← hu, goOn_draws, afterStageT_draws]
  have hc : u.drawCount = s.drawCount + (k + 18) := by rw [← hu, goOn_drawCount, afterStageT_drawCount]
  rw [run_measure (n + 1) (by rw [← hu]; exact hb₂) (by rw [← hu, goOn_rest]) ((acked_drop hd hc 0).2 ha')
    ((readyAfter_drop hd hc 2 m).2 h'), ← hu, run_calc_last _ n (by simpa using hb₂), afterMeasure_goOn, effect_rest,
    complete_goOn]
  rfl

/-! ## The commands from READY, each with its whole next state -/

section
variable {s : State} (a : Code)

/-- RESET (R101). -/
theorem exec_resetCmd_ready (hi : s.idleFor 43) (hl : s.life = lifeReady) :
    exec (.resetCmd a) s = .next (complete errNone (effects connReset
      (start (.resetCmd a) none connReset (acceptCommon (encode (.resetCmd a)) s)))) := by
  obtain ⟨h1, h2, hb, hw⟩ := hi
  rw [exec_resetCmd, command_runs h1 h2 hb (by rw [hl]; rfl), ← Nat.sub_add_cancel hw]
  exact run_straight_end (p := connReset) _ (by simp [connReset]) rfl rfl rfl rfl

/-- ENG_WAIT whose samples are all high (R109, R110). -/
theorem exec_engWait_neverReady (hi : s.idleFor 201) (hl : s.life = lifeReady) (hn : s.neverReady 0) :
    exec (.engWait a) s = .next (complete errReadyTimeout (afterWait (List.replicate 100 true)
      (start (.engWait a) none waitReady (acceptCommon (encode (.engWait a)) s)))) := by
  obtain ⟨h1, h2, hb, hw⟩ := hi
  rw [exec_engWait, command_runs h1 h2 hb (by rw [hl]; rfl), ← Nat.sub_add_cancel hw]
  exact run_waitReady_timeout (r := []) _ rfl rfl hn

/-- READ_T that succeeds (R144). -/
theorem exec_readT_succeeds {k : Nat} (hi : s.idleFor (158 + 2 * k)) (hl : s.life = lifeReady) (ha : s.acked 0)
    (h : s.readyAfter 2 k) :
    exec (.readT a) s = .next (complete errNone (afterReadT k
      (start (.readT a) (some .temperature) readTRoutine (clearTD16 (acceptCommon (encode (.readT a)) s))))) := by
  obtain ⟨h1, h2, hb, hw⟩ := hi
  rw [exec_readT, command_runs h1 h2 hb (by rw [hl]; rfl), ← Nat.sub_add_cancel hw]
  exact run_readT _ rfl rfl ha h

/-- READ_TRH and READ_RH are one command under two words (R146). -/
theorem exec_readTRH_or_readRH {i : Instr} (hi : i = .readTRH a ∨ i = .readRH a) (s : State) :
    exec i s = command i (some .temperature) clearAllValid (fun _ => readTRHRoutine) s := by
  rcases hi with rfl | rfl <;> rfl

/-- READ_TRH and READ_RH that succeed (R145, R146). -/
theorem exec_readTRH_succeeds {i : Instr} {k m : Nat} (hk : i = .readTRH a ∨ i = .readRH a)
    (hi : s.idleFor (316 + 2 * (k + m))) (hl : s.life = lifeReady) (ha : s.acked 0) (h : s.readyAfter 2 k)
    (ha' : s.acked (k + 18)) (h' : s.readyAfter (k + 20) m) :
    exec i s = .next (complete errNone (afterReadTRH k m
      (start i (some .temperature) readTRHRoutine (clearAllValid (acceptCommon (encode i) s))))) := by
  obtain ⟨h1, h2, hb, hw⟩ := hi
  have hg : lifecycleGate i s.life = .runs := by rcases hk with rfl | rfl <;> rw [hl] <;> rfl
  rw [exec_readTRH_or_readRH a hk, command_runs h1 h2 hb hg, ← Nat.sub_add_cancel hw]
  exact run_readTRH _ rfl rfl ha h ha' h'

/-! ## The cycles of those commands (R191) -/

variable {t : State}

theorem exec_resetCmd_cycles (hi : s.idleFor 43) (hl : s.life = lifeReady) (ht : exec (.resetCmd a) s = .next t) :
    t.cycles = 23 + 20 * Config.settleCycles := by
  rw [exec_resetCmd_ready a hi hl, effects_connReset] at ht
  cases ht
  exact Nat.zero_add _

theorem exec_engWait_neverReady_cycles (hi : s.idleFor 201) (hl : s.life = lifeReady) (hn : s.neverReady 0)
    (ht : exec (.engWait a) s = .next t) : t.cycles = 1 + 100 * (Config.pollCycles + 1) := by
  rw [exec_engWait_neverReady a hi hl hn] at ht
  cases ht
  exact Nat.zero_add _

theorem exec_readT_succeeds_cycles {k : Nat} (hi : s.idleFor (158 + 2 * k)) (hl : s.life = lifeReady) (ha : s.acked 0)
    (h : s.readyAfter 2 k) (ht : exec (.readT a) s = .next t) : t.cycles = cyclesMeasure k + Config.calCycles := by
  rw [exec_readT_succeeds a hi hl ha h] at ht
  cases ht
  rw [complete_cycles, afterReadT_cycles]
  exact congrArg (· + Config.calCycles) (Nat.zero_add _)

theorem exec_readTRH_succeeds_cycles {i : Instr} {k m : Nat} (hk : i = .readTRH a ∨ i = .readRH a)
    (hi : s.idleFor (316 + 2 * (k + m))) (hl : s.life = lifeReady) (ha : s.acked 0) (h : s.readyAfter 2 k)
    (ha' : s.acked (k + 18)) (h' : s.readyAfter (k + 20) m) (ht : exec i s = .next t) :
    t.cycles = cyclesMeasure k + cyclesMeasure m + 2 * Config.calCycles := by
  rw [exec_readTRH_succeeds a hk hi hl ha h ha' h'] at ht
  cases ht
  rw [complete_cycles, afterReadTRH_cycles]
  exact congrArg (· + cyclesMeasure m + 2 * Config.calCycles) (Nat.zero_add _)

end

/-- MEASURE with k polls counts k poll delays and 58 settle delays at least. -/
theorem delays_le_cyclesMeasure (k : Nat) : k * Config.pollCycles + 58 * Config.settleCycles ≤ cyclesMeasure k := by
  rw [cyclesMeasure, Nat.mul_add]
  omega

/-- Settles O60: each command's cycle count (R191) covers its poll and settle delays, and those last what R6 asks. -/
theorem commandsLastAtLeastTheirDelays : Obligations.CommandsLastAtLeastTheirDelays := by
  refine ⟨fun a s t hi hl ht => ?_, fun a s t hi hl hn ht => ?_, fun a s t k hi hl ha h ht => ?_,
    fun a i s t k m hk hi hl ha h ha' h' ht => ?_⟩
  · have hc := exec_resetCmd_cycles a hi hl ht
    exact lastedAtLeast_of_settles (by omega)
  · have hc := exec_engWait_neverReady_cycles a hi hl hn ht
    exact lastedAtLeast_of_polls (k := 100) (by omega)
  · have hc := exec_readT_succeeds_cycles a hi hl ha h ht
    have hk := delays_le_cyclesMeasure k
    exact lastedAtLeast_of_delays (by omega)
  · have hc := exec_readTRH_succeeds_cycles a hk hi hl ha h ha' h' ht
    have hm := Nat.add_le_add (delays_le_cyclesMeasure k) (delays_le_cyclesMeasure m)
    refine lastedAtLeast_of_delays ?_
    rw [Nat.add_mul]
    omega

end Sys2Proof.Machine
end

/-! One step of the sequencer, said once: what its micro-operation writes (`effect`), how the pseudocode goes on (`flowOf`), and
which groups of registers each micro-operation leaves alone. -/

section
namespace Sys2Proof.Machine

/-! ## How a step goes on -/

/-- How the pseudocode goes on after the micro-operation `i` with `r` behind it (R84). -/
def flowOf (i : MicroInstr) (r : List MicroInstr) (s : State) : Flow :=
  (applyPost i.post (opBit i.op s) r (count i.op (opBit i.op s) (applyOp i.op s))).2

/-- A step writes its effect and then ends or goes on. -/
theorem advance_eq_conclude (i : MicroInstr) (r : List MicroInstr) (s : State) :
    advance i r s = conclude (effect i s, flowOf i r s) :=
  congrArg conclude (Prod.ext (applyPost_fst _ _ _ _) rfl)

/-- Everything the pseudocode can do after the post `p`, in the state `u` it left: go on with `r`, raise one of the codes of
R149, poll again (R108), or ask for SCK's grant (R138). -/
inductive Continues (p : Post) (r : List MicroInstr) (u : State) : Flow → Prop
  | onward : Continues p r u (.go r)
  | abort (e : ErrCode) (he : e.toNat ≤ 5) (hp : p = .ack2 ∨ p = .poll ∨ ∃ g, p = .grantSck g) :
      Continues p r u (.raise e)
  | pollAgain (hp : p = .poll) (hc : u.cnt ≠ Config.pollMax) : Continues p r u (.go (pollAgain r))
  | askSck (b : Bool) (hp : p = .grantData) : Continues p r u (.go (⟨.grant .sck, .grantSck b⟩ :: r))

theorem applyPost_continues (p : Post) (b : Bool) (r : List MicroInstr) (s : State) :
    Continues p r (applyPost p b r s).1 (applyPost p b r s).2 := by
  cases p with
  | ack2 =>
    change Continues .ack2 r (recordAck2 b s) (if handshakeFails (recordAck2 b s) then .raise errHandshake else .go r)
    split_ifs
    · exact .abort _ (by decide) (.inl rfl)
    · exact .onward
  | poll =>
    change Continues .poll r (recordPoll s) (if b = false then .go r
      else if (recordPoll s).cnt = Config.pollMax then .raise errReadyTimeout else .go (pollAgain r))
    split_ifs with _ hc
    · exact .onward
    · exact .abort _ (by decide) (.inr (.inl rfl))
    · exact .pollAgain rfl hc
  | grantData => exact .askSck b rfl
  | grantSck g =>
    change Continues (.grantSck g) r s (if g && b then .go r else .raise errPinAcq)
    split_ifs
    · exact .onward
    · exact .abort _ (by decide) (.inr (.inr ⟨g, rfl⟩))
  | none | clearCnt | countUp | clearShift | shiftBit | takeMsb | takeLsb | ack1 | lifeReady | lifeClosed | enterStageH =>
    exact .onward

theorem flowOf_continues (i : MicroInstr) (r : List MicroInstr) (s : State) :
    Continues i.post r (effect i s) (flowOf i r s) := by
  have h := applyPost_continues i.post (opBit i.op s) r (count i.op (opBit i.op s) (applyOp i.op s))
  rwa [applyPost_fst] at h

/-- What is still to come after a step: nothing after a raise. -/
def Flow.todo : Flow → List MicroInstr
  | .go r => r
  | .raise _ => []

/-- A step completes the command or goes on with what is still to come. -/
theorem advance_cases (i : MicroInstr) (r : List MicroInstr) (s : State) :
    (∃ e, e.toNat ≤ 5 ∧ (flowOf i r s).todo = [] ∧ advance i r s = complete e (effect i s))
      ∨ ((flowOf i r s).todo ≠ [] ∧ advance i r s = goOn (flowOf i r s).todo (effect i s)) := by
  rw [advance_eq_conclude]
  have h := flowOf_continues i r s
  rcases conclude_cases (effect i s) (flowOf i r s) with ⟨e, hf, hc⟩ | ⟨hf, hc⟩ | ⟨j, q, hf, hc⟩
  · rw [hf] at h
    rw [hc, hf]
    cases h with
    | abort e he => exact .inl ⟨e, he, rfl, rfl⟩
  · exact .inl ⟨errNone, by decide, by rw [hf]; rfl, hc⟩
  · rw [hc, hf]
    exact .inr ⟨List.cons_ne_nil j q, rfl⟩

/-! ## What one step writes -/

/-- A micro-operation itself writes none of these. -/
theorem applyOp_control (op : MicroOp) (s : State) :
    (applyOp op s).life = s.life ∧ (applyOp op s).done = s.done ∧ (applyOp op s).err = s.err ∧ (applyOp op s).cur = s.cur
      ∧ (applyOp op s).upc = s.upc ∧ (applyOp op s).cnt = s.cnt := by
  rcases op with ⟨_ | _, m⟩ | ⟨_ | _, v⟩ | _ | _ | _ | p | ⟨_ | _ | _ | _⟩ <;>
    exact ⟨rfl, rfl, rfl, rfl, rfl, rfl⟩

/-- Of these a post writes LIFE at most, and keeps CUR naming a command where it does. -/
theorem applyPost_control (p : Post) (b : Bool) (s : State) :
    (applyPost p b [] s).1.life = lifeAfter p s.life ∧ (applyPost p b [] s).1.done = s.done
      ∧ (applyPost p b [] s).1.err = s.err ∧ (applyPost p b [] s).1.cur.isSome = s.cur.isSome
      ∧ (applyPost p b [] s).1.upc = s.upc ∧ (applyPost p b [] s).1.cout = s.cout := by
  cases p with
  | enterStageH => exact ⟨rfl, rfl, rfl, Option.isSome_map, rfl, rfl⟩
  | _ => exact ⟨rfl, rfl, rfl, rfl, rfl, rfl⟩

/-- LIFE follows the post; DONE and ERR stay, CUR names a command as before, and UPC counts one micro-operation more (R82). -/
theorem effect_control (i : MicroInstr) (s : State) :
    (effect i s).life = lifeAfter i.post s.life ∧ (effect i s).done = s.done ∧ (effect i s).err = s.err
      ∧ (effect i s).cur.isSome = s.cur.isSome ∧ (effect i s).upc = s.upc + 1#10 := by
  obtain ⟨hl, hd, he, hc, hu, -⟩ := applyOp_control i.op s
  obtain ⟨hl', hd', he', hc', hu', -⟩ :=
    applyPost_control i.post (opBit i.op s) (count i.op (opBit i.op s) (applyOp i.op s))
  rw [effect, hl', hd', he', hc', hu', count_life, count_done, count_err, count_cur, count_upc, hl, hd, he, hc, hu]
  exact ⟨rfl, rfl, rfl, rfl, rfl⟩

/-- SCK's latch follows the micro-operation. -/
theorem effect_cout (i : MicroInstr) (s : State) : (effect i s).cout = coutAfter i.op s.cout := by
  obtain ⟨-, -, -, -, -, ho⟩ := applyPost_control i.post (opBit i.op s) (count i.op (opBit i.op s) (applyOp i.op s))
  rw [effect, ho, count_cout]
  rcases i.op with ⟨_ | _, m⟩ | ⟨_ | _, v⟩ | _ | _ | _ | p | ⟨_ | _ | _ | _⟩ <;> rfl

/-- CNT follows the post, whatever bit was drawn. -/
theorem effect_cnt (i : MicroInstr) (s : State) : (effect i s).cnt = (applyPost i.post false [] s).1.cnt := by
  have hp : ∀ p b (u : State), u.cnt = s.cnt → (applyPost p b [] u).1.cnt = (applyPost p false [] s).1.cnt := by
    intro p b u h
    cases p with
    | countUp | takeMsb | takeLsb | poll => exact congrArg (· + 1#7) h
    | clearCnt | clearShift => rfl
    | none | shiftBit | ack1 | ack2 | grantData | grantSck g | lifeReady | lifeClosed | enterStageH => exact h
  obtain ⟨-, -, -, -, -, hc⟩ := applyOp_control i.op s
  exact hp _ _ _ hc

/-! ## Groups of registers -/

/-- The groups of registers of R44's table of writers, and what only acceptance and the host write. -/
inductive Group where
  | temp | hum | data16 | ack | polls | life | dirs | latches
  /-- CMD_LAST, REJECT, the operands, their latched copies and the host's side: no sequencer step writes them. -/
  | fixed
  deriving DecidableEq, Repr

/-- The type of a group's value. -/
def Group.Val : Group → Type
  | .temp => Raw × Word × Bool
  | .hum => Raw × Wide × Wide × Bool
  | .data16 => Raw × Bool
  | .ack => Bool × Bool
  | .polls => BitVec 7
  | .life => LifeCode
  | .dirs => Bool × Bool
  | .latches => Bool × Bool
  | .fixed => Word × Bool × Word × Word × Word × Word × List Turn × Nat × Word

/-- A group's value in a state. -/
def Group.view (g : Group) (s : State) : g.Val :=
  match g with
  | .temp => (s.rawT, s.tempC, s.tValid)
  | .hum => (s.rawH, s.rhNum, s.rhC, s.rhValid)
  | .data16 => (s.data16, s.d16Valid)
  | .ack => (s.ack1, s.ack2)
  | .polls => s.polls
  | .life => s.life
  | .dirs => (s.ddir, s.cdir)
  | .latches => (s.dout, s.cout)
  | .fixed => (s.cmdLast, s.reject, s.opa, s.opb, s.la, s.lb, s.host, s.window, s.rdata)

/-! Two states agree on a group when they agree on its registers. -/

theorem view_temp_iff {s t : State} :
    Group.view .temp t = Group.view .temp s ↔ t.rawT = s.rawT ∧ t.tempC = s.tempC ∧ t.tValid = s.tValid := by
  change (t.rawT, t.tempC, t.tValid) = (s.rawT, s.tempC, s.tValid) ↔ _
  simp only [Prod.mk.injEq]

theorem view_hum_iff {s t : State} :
    Group.view .hum t = Group.view .hum s ↔
      t.rawH = s.rawH ∧ t.rhNum = s.rhNum ∧ t.rhC = s.rhC ∧ t.rhValid = s.rhValid := by
  change (t.rawH, t.rhNum, t.rhC, t.rhValid) = (s.rawH, s.rhNum, s.rhC, s.rhValid) ↔ _
  simp only [Prod.mk.injEq]

theorem view_data16_iff {s t : State} :
    Group.view .data16 t = Group.view .data16 s ↔ t.data16 = s.data16 ∧ t.d16Valid = s.d16Valid := by
  change (t.data16, t.d16Valid) = (s.data16, s.d16Valid) ↔ _
  simp only [Prod.mk.injEq]

theorem view_ack_iff {s t : State} :
    Group.view .ack t = Group.view .ack s ↔ t.ack1 = s.ack1 ∧ t.ack2 = s.ack2 := by
  change (t.ack1, t.ack2) = (s.ack1, s.ack2) ↔ _
  simp only [Prod.mk.injEq]

theorem view_dirs_iff {s t : State} :
    Group.view .dirs t = Group.view .dirs s ↔ t.ddir = s.ddir ∧ t.cdir = s.cdir := by
  change (t.ddir, t.cdir) = (s.ddir, s.cdir) ↔ _
  simp only [Prod.mk.injEq]

theorem view_latches_iff {s t : State} :
    Group.view .latches t = Group.view .latches s ↔ t.dout = s.dout ∧ t.cout = s.cout := by
  change (t.dout, t.cout) = (s.dout, s.cout) ↔ _
  simp only [Prod.mk.injEq]

theorem view_fixed_iff {s t : State} :
    Group.view .fixed t = Group.view .fixed s ↔
      t.cmdLast = s.cmdLast ∧ t.reject = s.reject ∧ t.opa = s.opa ∧ t.opb = s.opb ∧ t.la = s.la ∧ t.lb = s.lb
        ∧ t.host = s.host ∧ t.window = s.window ∧ t.rdata = s.rdata := by
  change (t.cmdLast, t.reject, t.opa, t.opb, t.la, t.lb, t.host, t.window, t.rdata)
    = (s.cmdLast, s.reject, s.opa, s.opb, s.la, s.lb, s.host, s.window, s.rdata) ↔ _
  simp only [Prod.mk.injEq]

/-- The group a micro-operation writes, if any (R85 to R91). -/
def opGroup (op : MicroOp) : Option Group :=
  match op with
  | .dir _ _ => some .dirs
  | .drv _ _ => some .latches
  | .settle => none
  | .pollDly => none
  | .sample => none
  | .grant _ => none
  | .calc .calT => some .temp
  | .calc .calRH => some .hum
  | .calc .stageT => some .temp
  | .calc .stageH => some .hum

/-- The group a post writes, if any (R84). -/
def postGroup (p : Post) : Option Group :=
  match p with
  | .takeLsb => some .data16
  | .ack1 => some .ack
  | .ack2 => some .ack
  | .poll => some .polls
  | .lifeReady => some .life
  | .lifeClosed => some .life
  | .none => none
  | .clearCnt => none
  | .countUp => none
  | .clearShift => none
  | .shiftBit => none
  | .takeMsb => none
  | .grantData => none
  | .grantSck _ => none
  | .enterStageH => none

/-- The step of `i` leaves the group alone. -/
def MicroInstr.spares (i : MicroInstr) (g : Group) : Bool := opGroup i.op != some g && postGroup i.post != some g

theorem applyOp_view {op : MicroOp} {g : Group} (h : opGroup op ≠ some g) (s : State) :
    g.view (applyOp op s) = g.view s := by
  cases op with
  | dir p m =>
    cases g with
    | dirs => exact absurd rfl h
    | _ => cases p <;> rfl
  | drv p v =>
    cases g with
    | latches => exact absurd rfl h
    | _ => cases p <;> rfl
  | settle | pollDly | sample | grant p => cases g <;> rfl
  | _ =>
    rename_i k
    cases k with
    | calT | stageT =>
      cases g with
      | temp => exact absurd rfl h
      | _ => rfl
    | calRH | stageH =>
      cases g with
      | hum => exact absurd rfl h
      | _ => rfl

theorem count_view (op : MicroOp) (b : Bool) (g : Group) (s : State) : g.view (count op b s) = g.view s := by
  cases g <;> rfl

theorem applyPost_view {p : Post} {g : Group} (h : postGroup p ≠ some g) (b : Bool) (s : State) :
    g.view (applyPost p b [] s).1 = g.view s := by
  cases p with
  | takeLsb =>
    cases g with
    | data16 => exact absurd rfl h
    | _ => rfl
  | ack1 | ack2 =>
    cases g with
    | ack => exact absurd rfl h
    | _ => rfl
  | poll =>
    cases g with
    | polls => exact absurd rfl h
    | _ => rfl
  | lifeReady | lifeClosed =>
    cases g with
    | life => exact absurd rfl h
    | _ => rfl
  | none | clearCnt | countUp | clearShift | shiftBit | takeMsb | grantData | grantSck _ | enterStageH => cases g <;> rfl

/-- A group that the post leaves alone is as the micro-operation itself leaves it. -/
theorem effect_view_of_post {i : MicroInstr} {g : Group} (h : postGroup i.post ≠ some g) (s : State) :
    g.view (effect i s) = g.view (applyOp i.op s) := by
  rw [effect, applyPost_view h, count_view]

/-- A step leaves alone every group but the ones of its micro-operation and its post. -/
theorem effect_view {i : MicroInstr} {g : Group} (h : i.spares g = true) (s : State) :
    g.view (effect i s) = g.view s := by
  rw [MicroInstr.spares, Bool.and_eq_true, bne_iff_ne, bne_iff_ne] at h
  rw [effect_view_of_post h.2, applyOp_view h.1]

theorem conclude_view (g : Group) (s : State) (f : Flow) : g.view (conclude (s, f)) = g.view s := by
  rcases conclude_cases s f with ⟨e, -, h⟩ | ⟨-, h⟩ | ⟨i, r, -, h⟩ <;> rw [h] <;> cases g <;> rfl

/-- No sequencer step writes the fixed group. -/
theorem spares_fixed (i : MicroInstr) : i.spares .fixed = true := by
  rcases i with ⟨op, p⟩
  have ho : opGroup op ≠ some .fixed := by rcases op with _ | _ | _ | _ | _ | _ | ⟨_ | _ | _ | _⟩ <;> simp [opGroup]
  have hp : postGroup p ≠ some .fixed := by cases p <;> simp [postGroup]
  simp [MicroInstr.spares, ho, hp]

/-- What a post adds to the micro-operations still to come writes no more than the post itself. -/
theorem todo_spares {i : MicroInstr} {r : List MicroInstr} {g : Group} (hi : i.spares g = true)
    (hr : ∀ j ∈ r, j.spares g = true) (s : State) : ∀ j ∈ (flowOf i r s).todo, j.spares g = true := by
  have h := flowOf_continues i r s
  generalize flowOf i r s = f at h
  cases h with
  | onward => exact hr
  | abort e => simp [Flow.todo]
  | pollAgain hp =>
    rw [MicroInstr.spares, hp, Bool.and_eq_true] at hi
    have hd : MicroInstr.spares ⟨.pollDly, .none⟩ g = true := by cases g <;> rfl
    have hs : MicroInstr.spares ⟨.sample, .poll⟩ g = true := by simpa [MicroInstr.spares, opGroup] using hi.2
    exact List.forall_mem_cons.2 ⟨hd, List.forall_mem_cons.2 ⟨hs, hr⟩⟩
  | askSck b =>
    have hg : MicroInstr.spares ⟨.grant .sck, .grantSck b⟩ g = true := by cases g <;> rfl
    exact List.forall_mem_cons.2 ⟨hg, hr⟩

/-- A group that nothing still to come writes keeps its value, however many steps are taken. -/
theorem runSeq_view {g : Group} {n : Nat} {s t : State} (hr : ∀ j ∈ s.rest, j.spares g = true)
    (h : runSeq n s = .next t) : g.view t = g.view s := by
  have hstep : ∀ u v : State, (g.view u = g.view s ∧ ∀ j ∈ u.rest, j.spares g = true) → u.busy = true →
      microStep u = .next v → g.view v = g.view s ∧ ∀ j ∈ v.rest, j.spares g = true := by
    intro u v ⟨hv, hu⟩ _ hm
    obtain ⟨i, r, hir, -, rfl⟩ := (microStep_next_iff u v).1 hm
    rw [hir, List.forall_mem_cons] at hu
    refine ⟨by rw [advance_eq_conclude, conclude_view, effect_view hu.1, hv], ?_⟩
    have hq := todo_spares hu.1 hu.2 u
    rcases advance_cases i r u with ⟨e, -, -, ha⟩ | ⟨-, ha⟩
    · rw [ha, complete_rest]; simp
    · rwa [ha, goOn_rest]
  exact (runSeq_induct hstep n ⟨rfl, hr⟩ h).1

end Sys2Proof.Machine
end

/-! The twelve commands in one form, and one step of the machine, said once: what it does before the sequencer takes its steps
(`Entered`), and how many of them it takes. -/

section
namespace Sys2Proof.Machine

/-! ## The commands in one form -/

/-- What acceptance of a command that runs latches and clears (R67, R81). -/
def prepareFor (i : Instr) (s : State) : State :=
  match i with
  | .openCmd _ => s
  | .closeCmd _ => s
  | .resetCmd _ => s
  | .readT _ => clearTD16 s
  | .readRH _ => clearAllValid s
  | .readTRH _ => clearAllValid s
  | .engSend c => latchCode c s
  | .engWait _ => s
  | .engGet16 _ => clearD16 s
  | .engSkipCrc _ => s
  | .calT _ => clearT (latchA s)
  | .calRH _ => clearRH (latchAB s)

/-- The micro-program of a command, from the operands latched in `s`. -/
def routineOf (i : Instr) (s : State) : List MicroInstr :=
  match i with
  | .openCmd _ => openRoutine
  | .closeCmd _ => closeRoutine
  | .resetCmd _ => connReset
  | .readT _ => readTRoutine
  | .readRH _ => readTRHRoutine
  | .readTRH _ => readTRHRoutine
  | .engSend _ => sendCmd (wireCode s)
  | .engWait _ => waitReady
  | .engGet16 _ => getData16
  | .engSkipCrc _ => skipCrc
  | .calT _ => [plain (.calc .calT)]
  | .calRH _ => [plain (.calc .calRH)]

/-- The state a command's acceptance prepares (R78, R81). -/
def preparedFor (i : Instr) (s : State) : State := prepareFor i (acceptCommon (encode i) s)

/-- The state in which a command has just started (R81). -/
def startOf (i : Instr) (s : State) : State :=
  start i i.firstStage (routineOf i (preparedFor i s)) (preparedFor i s)

/-- What acceptance of a command that runs writes (R67, R78, R81), in one equation. -/
theorem startOf_eq (i : Instr) (s : State) :
    startOf i s = { s with
      cmdLast := encode i, done := false, err := errNone, reject := false, busy := true, upc := 0#10
      cur := some ⟨i, i.firstStage⟩, la := i.latchedA s.opa s.la, lb := i.latchedB s.opb s.lb
      tValid := s.tValid && !i.writesT, rhValid := s.rhValid && !i.writesRH, d16Valid := s.d16Valid && !i.writesD16
      rest := routineOf i (preparedFor i s), trace := [], cycles := 0 } := by
  cases i <;>
    simp [startOf, preparedFor, prepareFor, start, acceptCommon, clearT, clearRH, clearD16, clearTD16, clearAllValid, latchA,
      latchAB, latchCode, Instr.latchedA, Instr.latchedB, Instr.writesT, Instr.writesRH, Instr.writesD16, Instr.opIn,
      Instr.opcode, Instr.arg8, Instr.firstStage]

theorem routineOf_ne_nil (i : Instr) (s : State) : routineOf i s ≠ [] := by
  cases i <;> exact List.cons_ne_nil _ _

theorem startOf_rest_ne_nil (i : Instr) (s : State) : (startOf i s).rest ≠ [] := routineOf_ne_nil i _

/-- Every command is the presentation of its own preparation and routine (R76, R81). -/
theorem exec_eq (i : Instr) (s : State) : exec i s = command i i.firstStage (prepareFor i) (routineOf i) s := by
  cases i <;> rfl

/-- `Instr.runsIn` is the column "runs" of R137's table. -/
theorem lifecycleGate_runs_iff (i : Instr) (life : LifeCode) :
    lifecycleGate i life = .runs ↔ i.runsIn life = true := by
  revert life
  cases i with
  | openCmd a => exact (by decide : ∀ l, lifecycleGate (.openCmd 0#8) l = .runs ↔ (Instr.openCmd 0#8).runsIn l = true)
  | closeCmd a => exact (by decide : ∀ l, lifecycleGate (.closeCmd 0#8) l = .runs ↔ (Instr.closeCmd 0#8).runsIn l = true)
  | calT a => exact fun _ => ⟨fun _ => rfl, fun _ => rfl⟩
  | calRH a => exact fun _ => ⟨fun _ => rfl, fun _ => rfl⟩
  | resetCmd a | readT a | readRH a | readTRH a | engSend a | engWait a | engGet16 a | engSkipCrc a =>
    exact (by decide : ∀ l, gateReady l = .runs ↔ (l == lifeReady) = true)

/-- A command that runs: it starts, and the sequencer takes the steps of the window. -/
theorem exec_runs {i : Instr} {s : State} (h1 : s.life ≠ 3#2) (h2 : s.err.toNat ≤ 5) (hb : s.busy = false)
    (hr : i.runsIn s.life = true) : exec i s = runSeq s.window (startOf i s) := by
  rw [exec_eq, command_runs h1 h2 hb ((lifecycleGate_runs_iff i s.life).2 hr)]
  rfl

/-- A command that does not run completes in its acceptance step, with NONE or LIFECYCLE (R80). -/
theorem exec_atOnce {i : Instr} {s : State} (h1 : s.life ≠ 3#2) (h2 : s.err.toNat ≤ 5) (hb : s.busy = false)
    (hr : i.runsIn s.life = false) :
    ∃ e, e.toNat ≤ 5 ∧ exec i s = .next (completeNow e (acceptCommon (encode i) s)) := by
  rw [exec_eq]
  rcases lifecycleGate_cases i s.life with hg | hg | hg
  · rw [(lifecycleGate_runs_iff i s.life).1 hg] at hr
    cases hr
  · exact ⟨_, by decide, command_noOp h1 h2 hb hg⟩
  · exact ⟨_, by decide, command_lifecycle h1 h2 hb hg⟩

/-! ## One step of the machine -/

/-- The next turn is taken off the schedule, if there is one (R59). -/
def turnTaken (s : State) : State :=
  match s.host with
  | [] => s
  | t :: ts => takeTurn t ts s

/-- Everything an input can do to the state before the sequencer takes its steps (R53, R76 to R81). -/
inductive Entered (s : State) : State → Prop
  | quiet : Entered s s
  | read (v : Word) : Entered s { s with rdata := v }
  | write (off : Offset) (v : Word) : Entered s (hostWrite off v s)
  | rejected (hb : s.busy = true) : Entered s (markReject s)
  | atOnce (v : Word) (e : ErrCode) (hb : s.busy = false) (he : e.toNat ≤ 5) :
      Entered s (completeNow e (acceptCommon v s))
  | started (i : Instr) (hb : s.busy = false) (hr : i.runsIn s.life = true) : Entered s (startOf i s)

/-- A step that is no hardware reset and no malformed access enters, and the sequencer takes steps from there. -/
def StepRuns (s : State) : Prop :=
  ∃ n u, Entered (turnTaken s) u ∧ step s = guarded s fun _ => runSeq n u

theorem turnTaken_cons {s : State} {t : Turn} {ts : List Turn} (hh : s.host = t :: ts) :
    turnTaken s = takeTurn t ts s := by
  rw [turnTaken, hh]

theorem step_idle {s : State} (hh : s.host = []) : step s = guarded s (runSeq 1) := by
  rw [step, hh, idleTurn]

/-- An input that presents no command. -/
theorem step_other {s : State} {x : Input} {n : Nat} {ts : List Turn} (hh : s.host = ⟨x, n⟩ :: ts)
    (hc : commandWord x = none) : step s = otherTurn x (takeTurn ⟨x, n⟩ ts s) := by
  rw [step, hh]
  simp only [hc]

/-- A write of a legal word to CMD. -/
theorem step_command {s : State} {x : Input} {n : Nat} {ts : List Turn} {v : Word} {i : Instr}
    (hh : s.host = ⟨x, n⟩ :: ts) (hc : commandWord x = some v) (hd : decode v = .ok i) :
    step s = exec i (takeTurn ⟨x, n⟩ ts s) := by
  rw [step, hh]
  simp only [hc, hd]

/-- A write of an illegal word to CMD. -/
theorem step_illegal {s : State} {x : Input} {n : Nat} {ts : List Turn} {v : Word} {e : Illegal}
    (hh : s.host = ⟨x, n⟩ :: ts) (hc : commandWord x = some v) (hd : decode v = .error e) :
    step s = illegalTurn v (takeTurn ⟨x, n⟩ ts s) := by
  rw [step, hh]
  simp only [hc, hd]

theorem present_entered (i : Instr) (s : State) :
    Entered s (present i i.firstStage (prepareFor i) (routineOf i) s) := by
  unfold present
  split_ifs with hb
  · exact .rejected hb
  · have hb' := Bool.eq_false_iff.2 hb
    unfold accept
    split
    case h_1 hg => exact .started i hb' ((lifecycleGate_runs_iff i s.life).1 hg)
    case h_2 => exact .atOnce _ _ hb' (by decide)
    case h_3 => exact .atOnce _ _ hb' (by decide)

theorem presentIllegal_entered (v : Word) (s : State) : Entered s (presentIllegal v s) := by
  unfold presentIllegal
  split_ifs with hb
  · exact .rejected hb
  · exact .atOnce _ _ (Bool.eq_false_iff.2 hb) (by decide)

/-- A well-formed read, and the steps of the window (R53). -/
theorem accessStep_read {width : Nat} {off : Offset} (ha : (HostAccess.read width off).wellFormed = true) (s : State) :
    accessStep (.read width off) s = runSeq s.window { s with rdata := hostRead off s } := by
  obtain ⟨hw, hl⟩ := Bool.and_eq_true_iff.1 ha
  rw [accessStep, if_neg (by simp [hw]), if_neg (by simp [hl])]

/-- A well-formed write away from CMD, and the steps of the window (R53). -/
theorem accessStep_write {width : Nat} {off : Offset} {v : Word}
    (ha : (HostAccess.write width off v).wellFormed = true) (s : State) :
    accessStep (.write width off v) s = runSeq s.window (hostWrite off v s) := by
  obtain ⟨hw, hl⟩ := Bool.and_eq_true_iff.1 ha
  rw [accessStep, if_neg (by simp [hw]), if_neg (by simp [hl])]

theorem accessStep_entered {a : HostAccess} (ha : a.wellFormed = true) (s : State) :
    ∃ u, Entered s u ∧ accessStep a s = runSeq s.window u := by
  cases a with
  | read width off => exact ⟨_, .read _, accessStep_read ha s⟩
  | write width off v => exact ⟨_, .write off v, accessStep_write ha s⟩

theorem accessStep_malformed {a : HostAccess} (ha : a.wellFormed = false) (s : State) :
    ∃ x, accessStep a s = .refused x := by
  unfold accessStep
  split_ifs with hw hl
  · exact ⟨_, rfl⟩
  · exact ⟨_, rfl⟩
  · simp [HostAccess.wellFormed, hw, hl] at ha

/-- Everything a step of the machine can do (R59, R174): hardware reset, the refusal of a malformed access (R49, R50), or a run of
the sequencer from what the input did. -/
theorem step_cases (s : State) :
    (∃ n ts, s.host = ⟨.rst, n⟩ :: ts ∧ step s = .next (hardReset (turnTaken s)))
      ∨ (∃ a n ts x, s.host = ⟨.access a, n⟩ :: ts ∧ a.wellFormed = false ∧ step s = guarded s fun _ => .refused x)
      ∨ StepRuns s := by
  rcases hh : s.host with _ | ⟨⟨x, n⟩, ts⟩
  · refine .inr (.inr ⟨1, turnTaken s, .quiet, ?_⟩)
    rw [step_idle hh, turnTaken, hh]
    rfl
  have ht := turnTaken_cons hh
  rcases hc : commandWord x with _ | v
  · rw [step_other hh hc]
    cases x with
    | rst => exact .inl ⟨n, ts, rfl, by rw [ht]; rfl⟩
    | quiet => exact .inr (.inr ⟨n, _, .quiet, by rw [step_other hh hc, ht]; rfl⟩)
    | access a =>
      by_cases ha : a.wellFormed = true
      · obtain ⟨u, hu, hs⟩ := accessStep_entered ha (turnTaken s)
        refine .inr (.inr ⟨n, u, hu, ?_⟩)
        rw [ht] at hs
        rw [step_other hh hc]
        exact congrArg (fun o => guarded s fun _ => o) hs
      · obtain ⟨y, hy⟩ := accessStep_malformed (Bool.eq_false_iff.2 ha) (takeTurn ⟨.access a, n⟩ ts s)
        exact .inr (.inl ⟨a, n, ts, y, rfl, Bool.eq_false_iff.2 ha, congrArg (fun o => guarded s fun _ => o) hy⟩)
  · refine .inr (.inr ?_)
    rw [StepRuns, ht]
    rcases hd : decode v with e | i
    · exact ⟨n, _, presentIllegal_entered v _, by rw [step_illegal hh hc hd]; rfl⟩
    · exact ⟨n, _, present_entered i _, by rw [step_command hh hc hd, exec_eq]; rfl⟩

/-- A step that answers a next state. -/
theorem step_next_cases {s t : State} (h : step s = .next t) :
    (∃ n ts, s.host = ⟨.rst, n⟩ :: ts ∧ t = hardReset (turnTaken s))
      ∨ ∃ n u, Entered (turnTaken s) u ∧ runSeq n u = .next t := by
  rcases step_cases s with ⟨n, ts, hh, hs⟩ | ⟨a, n, ts, x, -, -, hs⟩ | ⟨n, u, hu, hs⟩
  · rw [hs] at h
    cases h
    exact .inl ⟨n, ts, hh, rfl⟩
  · rw [hs] at h
    cases (guarded_next h).2.2
  · rw [hs] at h
    exact .inr ⟨n, u, hu, (guarded_next h).2.2⟩

end Sys2Proof.Machine
end

/-! The invariant: every sequencer step keeps it and reaches no model fault, every entry keeps it, so every step of the machine
does (R46, R97). -/

section
namespace Sys2Proof.Machine

/-! ## What is still to come stays safe -/

theorem cntAfter_mono (p : Post) {c d : Nat} (h : c ≤ d) : cntAfter p c ≤ cntAfter p d := by
  cases p with
  | countUp | takeMsb | takeLsb => exact Nat.add_le_add_right h 1
  | clearCnt | clearShift | poll => exact le_rfl
  | none | shiftBit | ack1 | ack2 | grantData | grantSck g | lifeReady | lifeClosed | enterStageH => exact h

theorem postSafe_antitone {p : Post} {l : LifeCode} {d k o : Bool} {c c' : Nat} (h : c ≤ c')
    (hs : postSafe p l d k o c' = true) : postSafe p l d k o c = true := by
  cases p with
  | poll =>
    simp only [postSafe, Bool.and_eq_true, decide_eq_true_eq] at hs ⊢
    exact ⟨hs.1, by omega⟩
  | _ => exact hs

/-- `safeFrom` asks for CNT at most its last argument, so a smaller one is as good. -/
theorem safeFrom_antitone {p : List MicroInstr} {l : LifeCode} {d k o : Bool} {c c' : Nat} (h : c ≤ c')
    (hs : safeFrom p l d k o c' = true) : safeFrom p l d k o c = true := by
  induction p generalizing l d k o c c' with
  | nil => exact hs
  | cons i p ih =>
    simp only [safeFrom, Bool.and_eq_true] at hs ⊢
    exact ⟨⟨hs.1.1, postSafe_antitone h hs.1.2⟩, ih (cntAfter_mono i.post h) hs.2⟩

/-- The micro-operations `q`, performed from `s`, are safe. -/
def State.safeOn (s : State) (q : List MicroInstr) : Bool := safeFrom q s.life s.ddir s.cdir s.cout s.cnt.toNat

/-- Where the post is safe, CNT stays under its bound. -/
theorem effect_cnt_le {i : MicroInstr} {s : State} {l : LifeCode} {d k o : Bool}
    (hp : postSafe i.post l d k o s.cnt.toNat = true) : (effect i s).cnt.toNat ≤ cntAfter i.post s.cnt.toNat := by
  have hup : (s.cnt + 1#7).toNat ≤ s.cnt.toNat + 1 := by
    rw [BitVec.toNat_add]
    exact Nat.mod_le _ _
  rw [effect_cnt]
  rcases i with ⟨op, post⟩
  cases post with
  | countUp | takeMsb | takeLsb => exact hup
  | poll =>
    have hc : s.cnt.toNat < 100 := by
      simp only [postSafe, Bool.and_eq_true, decide_eq_true_eq] at hp
      exact hp.2
    exact hup.trans (by simp only [cntAfter]; omega)
  | clearCnt | clearShift => exact Nat.le_refl 0
  | none | shiftBit | ack1 | ack2 | grantData | grantSck g | lifeReady | lifeClosed | enterStageH => exact le_rfl

/-- What `safeOn` says of the first micro-operation: its pins allow it, and its post is safe after it. -/
theorem safeOn_cons {i : MicroInstr} {r : List MicroInstr} {s : State} (h : s.safeOn (i :: r) = true) :
    opSafe i.op r s.ddir s.cdir s.cout = true
      ∧ postSafe i.post s.life (effect i s).ddir (effect i s).cdir (effect i s).cout s.cnt.toNat = true
      ∧ (∀ c ≤ cntAfter i.post s.cnt.toNat,
          safeFrom r (effect i s).life (effect i s).ddir (effect i s).cdir (effect i s).cout c = true) := by
  rw [effect_ddir, effect_cdir, effect_cout, (effect_control i s).1]
  simp only [State.safeOn, safeFrom, Bool.and_eq_true] at h
  exact ⟨h.1.1, h.1.2, fun c hc => safeFrom_antitone hc h.2⟩

/-- A safe micro-operation reaches no model fault (R86, R89). -/
theorem opFault_of_safe {op : MicroOp} {r : List MicroInstr} {s : State}
    (h : opSafe op r s.ddir s.cdir s.cout = true) : opFault op s = none := by
  cases op with
  | drv p v => cases p <;> simp_all [opSafe, opFault]
  | sample => simp_all [opSafe, opFault]
  | _ => rfl

/-- A post that can raise keeps LIFE and has the pins parked (R158). -/
theorem parked_of_abort {p : Post} {l : LifeCode} {d k o : Bool} {c : Nat}
    (ha : p = .ack2 ∨ p = .poll ∨ ∃ g, p = .grantSck g) (hp : postSafe p l d k o c = true) :
    parked (lifeAfter p l) d k o = true := by
  rcases ha with rfl | rfl | ⟨g, rfl⟩
  · exact hp
  · simp only [postSafe, Bool.and_eq_true] at hp
    exact hp.1.1
  · exact hp

/-- The polls to come after a high sample are safe where that sample's post was (R108). -/
theorem pollAgain_safe {r : List MicroInstr} {l : LifeCode} {d k o : Bool} {b c : Nat}
    (hp : postSafe .poll l d k o b = true) (hc : c < 100) (hr : safeFrom r l d k o 100 = true) :
    safeFrom (pollAgain r) l d k o c = true := by
  simp only [postSafe, Bool.and_eq_true] at hp
  simp only [pollAgain, safeFrom, Bool.and_eq_true]
  refine ⟨⟨rfl, rfl⟩, ⟨hp.1.2, ?_⟩, hr⟩
  simp only [postSafe, Bool.and_eq_true]
  exact ⟨hp.1, decide_eq_true hc⟩

/-- However the pseudocode goes on after a safe post, what is then to come is safe. -/
theorem continues_safe {p : Post} {r : List MicroInstr} {u : State} {l : LifeCode} {c : Nat} {f : Flow}
    (hp : postSafe p l u.ddir u.cdir u.cout c = true) (hl : u.life = lifeAfter p l)
    (hc : u.cnt.toNat ≤ cntAfter p c)
    (hr : ∀ b ≤ cntAfter p c, safeFrom r u.life u.ddir u.cdir u.cout b = true) (hf : Continues p r u f) :
    u.safeOn f.todo = true := by
  cases hf with
  | onward => exact hr _ hc
  | abort e he ha =>
    have hk := parked_of_abort ha hp
    rwa [← hl] at hk
  | pollAgain ha hne =>
    subst ha
    have hlt : u.cnt.toNat < 100 := lt_of_le_of_ne hc fun h => hne (BitVec.eq_of_toNat_eq h)
    have hl' : u.life = l := hl
    rw [← hl'] at hp
    exact pollAgain_safe hp hlt (hr 100 le_rfl)
  | askSck b ha =>
    subst ha
    rw [State.safeOn, Flow.todo, safeFrom, Bool.and_eq_true, Bool.and_eq_true]
    refine ⟨⟨rfl, ?_⟩, hr _ hc⟩
    rw [hl]
    exact hp

/-- Wherever a step goes on, what is then to come is safe; where it ends, the pins are parked. -/
theorem todo_safe {i : MicroInstr} {r : List MicroInstr} {s : State} (h : s.safeOn (i :: r) = true) :
    (effect i s).safeOn (flowOf i r s).todo = true := by
  obtain ⟨-, hp, hr⟩ := safeOn_cons h
  exact continues_safe hp (effect_control i s).1 (effect_cnt_le hp) hr (flowOf_continues i r s)

/-! ## The results keep their laws -/

/-- The law of the temperature group (R46 item 5). -/
def State.tempLaw (s : State) : Prop := s.tValid = true → s.tempC.toInt = s.rawT.toNat - 4010

/-- The law of the humidity group (R46 item 6). -/
def State.humLaw (s : State) : Prop := s.rhValid = true → s.rhC.toInt = (s.rhNum.toInt + 5 * 10 ^ 7).fdiv (10 ^ 8)

/-- The temperature of a raw word fits its register (R124). -/
theorem calTemp_toInt (r : Raw) : (calTemp r).toInt = r.toNat - 4010 := by
  have h := r.isLt
  rw [calTemp, BitVec.toInt_ofInt, Config.coeffD1, Config.coeffD2, Int.bmod_eq_of_le] <;> omega

/-- The numerator of every raw word at every temperature of 32 bits fits its register, with room to round (R128). -/
theorem humNum_bounds (r : Raw) (t : Word) :
    -2 ^ 62 ≤ humNum r t.toInt ∧ humNum r t.toInt ≤ 2 ^ 62 := by
  have hr : (r.toNat : Int) ≤ 65535 := by have := r.isLt; omega
  have h0 : (0 : Int) ≤ r.toNat := Int.natCast_nonneg _
  have ht := BitVec.le_toInt t
  have ht' := BitVec.toInt_lt (x := t)
  unfold humNum Config.coeffC1 Config.coeffC2 Config.coeffC3
  generalize (r.toNat : Int) = n at *
  generalize t.toInt = y at *
  have hsq : n * n ≤ 65535 * n := mul_le_mul_of_nonneg_right hr h0
  have hsq' : 0 ≤ n * n := mul_nonneg h0 h0
  have hlo : -2 ^ 31 * (1000 + 8 * n) ≤ y * (1000 + 8 * n) := mul_le_mul_of_nonneg_right ht (by omega)
  have hhi : y * (1000 + 8 * n) ≤ 2 ^ 31 * (1000 + 8 * n) := mul_le_mul_of_nonneg_right ht'.le (by omega)
  constructor <;> linarith

theorem toInt_ofInt_of_bounds {x : Int} (h : -2 ^ 62 ≤ x) (h' : x ≤ 2 ^ 62) : (BitVec.ofInt 64 x).toInt = x := by
  rw [BitVec.toInt_ofInt, Int.bmod_eq_of_le] <;> omega

theorem roundHum_bounds {n : Int} (h : -2 ^ 62 ≤ n) (h' : n ≤ 2 ^ 62) :
    -2 ^ 62 ≤ roundHum n ∧ roundHum n ≤ 2 ^ 62 := by
  rw [roundHum, Int.fdiv_eq_ediv_of_nonneg _ (by decide)]
  omega

theorem commitT_tempLaw (r : Raw) (s : State) : (commitT r s).tempLaw := fun _ => calTemp_toInt r

theorem commitRH_humLaw (r : Raw) (t : Word) (s : State) : (commitRH r t.toInt s).humLaw := by
  intro _
  obtain ⟨h, h'⟩ := humNum_bounds r t
  obtain ⟨g, g'⟩ := roundHum_bounds h h'
  change (BitVec.ofInt 64 _).toInt = ((BitVec.ofInt 64 _).toInt + 5 * 10 ^ 7).fdiv (10 ^ 8)
  rw [toInt_ofInt_of_bounds h h', toInt_ofInt_of_bounds g g']
  rfl

/-- The laws depend on their group only. -/
theorem tempLaw_of_view {s t : State} (h : Group.view .temp t = Group.view .temp s) (hs : s.tempLaw) : t.tempLaw := by
  obtain ⟨h1, h2, h3⟩ := view_temp_iff.1 h
  rwa [State.tempLaw, h1, h2, h3]

theorem humLaw_of_view {s t : State} (h : Group.view .hum t = Group.view .hum s) (hs : s.humLaw) : t.humLaw := by
  obtain ⟨-, h2, h3, h4⟩ := view_hum_iff.1 h
  rwa [State.humLaw, h2, h3, h4]

/-- The micro-operations that write the temperature group commit a raw word (R131, R143). -/
theorem applyOp_temp {op : MicroOp} (h : opGroup op = some .temp) (s : State) : ∃ r, applyOp op s = commitT r s := by
  cases op with
  | dir p m | drv p v | settle | pollDly | sample | grant p => cases h
  | _ =>
    rename_i k
    cases k with
    | calT | stageT => exact ⟨_, rfl⟩
    | calRH | stageH => cases h

/-- The micro-operations that write the humidity group commit a raw word at a temperature of 32 bits (R132, R143). -/
theorem applyOp_hum {op : MicroOp} (h : opGroup op = some .hum) (s : State) :
    ∃ r, ∃ t : Word, applyOp op s = commitRH r t.toInt s := by
  cases op with
  | dir p m | drv p v | settle | pollDly | sample | grant p => cases h
  | _ =>
    rename_i k
    cases k with
    | calRH => exact ⟨_, s.lb, rfl⟩
    | stageH => exact ⟨_, s.tempC, rfl⟩
    | calT | stageT => cases h

/-- A step commits a temperature that meets the law, or leaves the group alone. -/
theorem effect_tempLaw (i : MicroInstr) {s : State} (hs : s.tempLaw) : (effect i s).tempLaw := by
  refine tempLaw_of_view (effect_view_of_post (by cases i.post <;> simp [postGroup]) s) ?_
  by_cases hg : opGroup i.op = some .temp
  · obtain ⟨r, hr⟩ := applyOp_temp hg s
    exact hr ▸ commitT_tempLaw r s
  · exact tempLaw_of_view (applyOp_view hg s) hs

/-- A step commits a humidity that meets the law, or leaves the group alone. -/
theorem effect_humLaw (i : MicroInstr) {s : State} (hs : s.humLaw) : (effect i s).humLaw := by
  refine humLaw_of_view (effect_view_of_post (by cases i.post <;> simp [postGroup]) s) ?_
  by_cases hg : opGroup i.op = some .hum
  · obtain ⟨r, t, hr⟩ := applyOp_hum hg s
    exact hr ▸ commitRH_humLaw r t s
  · exact humLaw_of_view (applyOp_view hg s) hs

/-- LIFE after a safe post is legal, and no lower than before (R18). -/
theorem lifeAfter_of_safe {p : Post} {l : LifeCode} {d k o : Bool} {c : Nat} (hl : l ≠ 3#2)
    (hp : postSafe p l d k o c = true) : lifeAfter p l ≠ 3#2 ∧ l.toNat ≤ (lifeAfter p l).toNat := by
  cases p with
  | lifeReady =>
    rw [eq_of_beq hp]
    decide
  | lifeClosed =>
    rw [eq_of_beq hp]
    decide
  | _ => exact ⟨hl, le_rfl⟩

/-- A poll writes its count into POLLS; no other step writes POLLS (R108). -/
theorem effect_polls (i : MicroInstr) (s : State) :
    (i.post = .poll ∧ (effect i s).polls = (effect i s).cnt) ∨ (effect i s).polls = s.polls := by
  have ho : opGroup i.op ≠ some .polls := by
    rcases i.op with _ | _ | _ | _ | _ | _ | ⟨_ | _ | _ | _⟩ <;> simp [opGroup]
  by_cases hp : i.post = .poll
  · exact .inl ⟨hp, by rw [effect, hp]; rfl⟩
  · have hg : postGroup i.post ≠ some .polls := by
      revert hp
      cases i.post <;> simp [postGroup]
    exact .inr (effect_view (g := .polls) (by simp [MicroInstr.spares, ho, hg]) s)

/-- POLLS after a safe post is at most 100 (R24). -/
theorem effect_polls_le {i : MicroInstr} {s : State} {l : LifeCode} {d k o : Bool} (hs : s.polls.toNat ≤ 100)
    (hp : postSafe i.post l d k o s.cnt.toNat = true) : (effect i s).polls.toNat ≤ 100 := by
  rcases effect_polls i s with ⟨hi, he⟩ | he <;> rw [he]
  · have hc := effect_cnt_le hp
    rwa [hi] at hc
  · exact hs

/-! ## The invariant along the sequencer's steps -/

/-- The part of the invariant that does not speak of the running command. -/
structure DataInv (s : State) : Prop where
  life_legal : s.life ≠ 3#2
  polls_le : s.polls.toNat ≤ 100
  temp_law : s.tempLaw
  hum_law : s.humLaw

theorem MachineInv.data {s : State} (h : MachineInv s) : DataInv s :=
  ⟨h.life_legal, h.polls_le, h.t_valid, h.rh_valid⟩

theorem effect_dataInv {i : MicroInstr} {r : List MicroInstr} {s : State} (h : DataInv s)
    (hs : s.safeOn (i :: r) = true) : DataInv (effect i s) := by
  obtain ⟨-, hp, -⟩ := safeOn_cons hs
  refine ⟨?_, effect_polls_le h.polls_le hp, effect_tempLaw i h.temp_law, effect_humLaw i h.hum_law⟩
  rw [(effect_control i s).1]
  exact (lifeAfter_of_safe h.life_legal hp).1

/-- An idle state meets the invariant where its data do, its pins are parked and CUR names nothing. -/
theorem machineInv_idle {s : State} (h : DataInv s) (he : s.err.toNat ≤ 5) (hb : s.busy = false)
    (hk : parked s.life s.ddir s.cdir s.cout = true) (hc : s.cur = none) : MachineInv s where
  life_legal := h.life_legal
  err_legal := he
  polls_le := h.polls_le
  not_busy_done hbd := by rw [hb] at hbd; cases hbd.1
  idle_parked _ := hk
  idle_cur _ := hc
  t_valid := h.temp_law
  rh_valid := h.hum_law
  busy_cur hb' := by rw [hb] at hb'; cases hb'
  busy_err hb' := by rw [hb] at hb'; cases hb'
  busy_rest hb' := by rw [hb] at hb'; cases hb'
  busy_safe hb' := by rw [hb] at hb'; cases hb'

/-- A running state meets the invariant where its data do, what is still to come is safe, and CUR, ERR and DONE are those of a
running command. -/
theorem machineInv_busy {s : State} (h : DataInv s) (hb : s.busy = true) (hd : s.done = false) (he : s.err = errNone)
    (hc : s.cur.isSome = true) (hr : s.rest ≠ []) (hs : s.safeOn s.rest = true) : MachineInv s where
  life_legal := h.life_legal
  err_legal := by rw [he]; decide
  polls_le := h.polls_le
  not_busy_done hbd := by rw [hd] at hbd; cases hbd.2
  idle_parked hb' := by rw [hb] at hb'; cases hb'
  idle_cur hb' := by rw [hb] at hb'; cases hb'
  t_valid := h.temp_law
  rh_valid := h.hum_law
  busy_cur _ := hc
  busy_err _ := he
  busy_rest _ := hr
  busy_safe _ := hs

theorem MachineInv.done_of_busy {s : State} (h : MachineInv s) (hb : s.busy = true) : s.done = false :=
  Bool.eq_false_iff.2 fun hd => h.not_busy_done ⟨hb, hd⟩

/-- A running state that meets the invariant has a safe micro-operation to perform. -/
theorem MachineInv.next_safe {s : State} (h : MachineInv s) (hb : s.busy = true) :
    ∃ i r, s.rest = i :: r ∧ s.safeOn (i :: r) = true := by
  obtain ⟨i, r, hr⟩ := List.exists_cons_of_ne_nil (h.busy_rest hb)
  exact ⟨i, r, hr, hr ▸ h.busy_safe hb⟩

theorem advance_inv {i : MicroInstr} {r : List MicroInstr} {s : State} (h : MachineInv s) (hb : s.busy = true)
    (hs : s.safeOn (i :: r) = true) : MachineInv (advance i r s) := by
  have hdata := effect_dataInv h.data hs
  have htodo := todo_safe hs
  rcases advance_cases i r s with ⟨e, he, ht, ha⟩ | ⟨ht, ha⟩
  · rw [ht] at htodo
    rw [ha]
    exact machineInv_idle { hdata with } he rfl htodo rfl
  · rw [ha]
    obtain ⟨-, hd, he, hc, -⟩ := effect_control i s
    exact machineInv_busy { hdata with } ((effect_busy i s).trans hb) (hd.trans (h.done_of_busy hb)) (he.trans (h.busy_err hb))
      (hc.trans (h.busy_cur hb)) ht htodo

/-- From a running state that meets the invariant, the sequencer's step answers a next state that meets it, with LIFE no lower
(R18, R97). -/
theorem microStep_inv {s : State} (h : MachineInv s) (hb : s.busy = true) :
    ∃ t, microStep s = .next t ∧ MachineInv t ∧ s.life.toNat ≤ t.life.toNat := by
  obtain ⟨i, r, hr, hs⟩ := h.next_safe hb
  obtain ⟨ho, hp, -⟩ := safeOn_cons hs
  refine ⟨_, microStep_of_rest hr (opFault_of_safe ho), advance_inv h hb hs, ?_⟩
  have hl : (advance i r s).life = (effect i s).life := by
    rcases advance_cases i r s with ⟨e, -, -, ha⟩ | ⟨-, ha⟩ <;> rw [ha] <;> rfl
  rw [hl, (effect_control i s).1]
  exact (lifeAfter_of_safe h.life_legal hp).2

/-- So does any number of steps. -/
theorem runSeq_inv (n : Nat) {s : State} (h : MachineInv s) :
    ∃ t, runSeq n s = .next t ∧ MachineInv t ∧ s.life.toNat ≤ t.life.toNat := by
  induction n generalizing s with
  | zero => exact ⟨s, rfl, h, le_rfl⟩
  | succ n ih =>
    by_cases hb : s.busy = true
    · obtain ⟨u, hu, hinv, hlife⟩ := microStep_inv h hb
      obtain ⟨t, ht, hinv', hlife'⟩ := ih hinv
      exact ⟨t, by rw [runSeq_busy n hb, hu, andThen_next, ht], hinv', hlife.trans hlife'⟩
    · exact ⟨s, runSeq_idle _ (Bool.eq_false_iff.2 hb), h, le_rfl⟩

/-! ## The invariant along the machine's steps -/

section
variable {q : List MicroInstr} {d : Bool} {n : Nat}

/-! In READY with SCK driven low, a routine is safe where what follows it is safe from the pins it leaves. -/

theorem sendCmd_safe (c : Code) (h : safeFrom q lifeReady false true false 8 = true) :
    safeFrom (sendCmd c ++ q) lifeReady d true false n = true := h

theorem waitReady_safe (h : safeFrom q lifeReady false true false 100 = true) :
    safeFrom (waitReady ++ q) lifeReady d true false n = true := h

theorem getData16_safe (h : safeFrom q lifeReady false true false 8 = true) :
    safeFrom (getData16 ++ q) lifeReady d true false n = true := h

theorem skipCrc_safe (h : safeFrom q lifeReady true true false n = true) :
    safeFrom (skipCrc ++ q) lifeReady d true false n = true := h

theorem stageT_safe (h : safeFrom q lifeReady true true false n = true) :
    safeFrom ([⟨.calc .stageT, .enterStageH⟩] ++ q) lifeReady true true false n = true := h

theorem measureRoutine_safe (c : Code) (h : safeFrom q lifeReady true true false 8 = true) :
    safeFrom (measureRoutine c ++ q) lifeReady d true false n = true := by
  rw [measureRoutine, List.append_assoc, List.append_assoc, List.append_assoc]
  exact sendCmd_safe c (waitReady_safe (getData16_safe (skipCrc_safe h)))

end

/-- The pins of an idle controller in READY (R46). -/
theorem pins_of_parked_ready {d k o : Bool} (h : parked lifeReady d k o = true) : k = true ∧ o = false := by
  simpa [parked, and_comm] using h

/-- The pins of an idle controller in UNINIT (R46). -/
theorem pins_of_parked_uninit {d k o : Bool} (h : parked lifeUninit d k o = true) : d = false ∧ k = false ∧ o = false := by
  revert h
  revert d k o
  decide

/-- Every routine is safe from the pins and the LIFE its command starts in. -/
theorem routineOf_safe {i : Instr} {l : LifeCode} {d k o : Bool} (hr : i.runsIn l = true) (hk : parked l d k o = true)
    (c : Nat) (s : State) : safeFrom (routineOf i s) l d k o c = true := by
  cases i with
  | openCmd a =>
    obtain rfl : l = lifeUninit := eq_of_beq hr
    obtain ⟨rfl, rfl, rfl⟩ := pins_of_parked_uninit hk
    rfl
  | calT a | calRH a => exact hk
  | closeCmd a | resetCmd a | engSend a | engWait a | engGet16 a | engSkipCrc a =>
    obtain rfl : l = lifeReady := eq_of_beq hr
    obtain ⟨rfl, rfl⟩ := pins_of_parked_ready hk
    rfl
  | readT a =>
    obtain rfl : l = lifeReady := eq_of_beq hr
    obtain ⟨rfl, rfl⟩ := pins_of_parked_ready hk
    exact measureRoutine_safe _ rfl
  | readTRH a | readRH a =>
    obtain rfl : l = lifeReady := eq_of_beq hr
    obtain ⟨rfl, rfl⟩ := pins_of_parked_ready hk
    rw [routineOf, readTRHRoutine, List.append_assoc, List.append_assoc]
    exact measureRoutine_safe _ (stageT_safe (measureRoutine_safe _ rfl))

theorem startOf_inv {i : Instr} {s : State} (h : MachineInv s) (hb : s.busy = false) (hr : i.runsIn s.life = true) :
    MachineInv (startOf i s) := by
  rw [startOf_eq]
  have hdata : DataInv s := h.data
  exact machineInv_busy
    ⟨hdata.life_legal, hdata.polls_le, fun hv => hdata.temp_law (Bool.and_eq_true_iff.1 hv).1,
      fun hv => hdata.hum_law (Bool.and_eq_true_iff.1 hv).1⟩
    rfl rfl rfl rfl (routineOf_ne_nil i _) (routineOf_safe hr (h.idle_parked hb) _ _)

/-- Everything a write away from CMD can do (R51, R52). -/
theorem hostWrite_cases (off : Offset) (v : Word) (s : State) :
    hostWrite off v s = s ∨ hostWrite off v s = { s with opa := v } ∨ hostWrite off v s = { s with opb := v } := by
  unfold hostWrite
  split
  · exact .inr (.inl rfl)
  · exact .inr (.inr rfl)
  · exact .inl rfl

/-- Whatever an input does, it keeps the invariant and LIFE. -/
theorem entered_inv {s u : State} (h : MachineInv s) (hu : Entered s u) : MachineInv u ∧ u.life = s.life := by
  cases hu with
  | quiet => exact ⟨h, rfl⟩
  | read v => exact ⟨{ h with }, rfl⟩
  | write off v =>
    rcases hostWrite_cases off v s with hw | hw | hw <;> rw [hw]
    · exact ⟨h, rfl⟩
    · exact ⟨{ h with }, rfl⟩
    · exact ⟨{ h with }, rfl⟩
  | rejected hb => exact ⟨{ h with }, rfl⟩
  | atOnce v e hb he =>
    exact ⟨machineInv_idle { h.data with } he hb (h.idle_parked hb) (h.idle_cur hb), rfl⟩
  | started i hb hr => exact ⟨startOf_inv h hb hr, by rw [startOf_eq]⟩

theorem turnTaken_inv {s : State} (h : MachineInv s) : MachineInv (turnTaken s) ∧ (turnTaken s).life = s.life := by
  unfold turnTaken
  split
  · exact ⟨h, rfl⟩
  · exact ⟨{ h with }, rfl⟩

theorem machineInv_reset : MachineInv State.reset :=
  machineInv_idle ⟨by decide, by decide, fun h => (by cases h), fun h => (by cases h)⟩ (by decide) rfl rfl rfl

theorem hardReset_inv (s : State) : MachineInv (hardReset s) := { machineInv_reset with }

/-- From a state that meets the invariant, a step is hardware reset, or it answers a next state that meets the invariant with LIFE
no lower, or the access was malformed. -/
theorem step_inv_cases {s : State} (h : MachineInv s) :
    (∃ n ts, s.host = ⟨.rst, n⟩ :: ts ∧ step s = .next (hardReset (turnTaken s)))
      ∨ (∃ a n ts x, s.host = ⟨.access a, n⟩ :: ts ∧ a.wellFormed = false ∧ step s = .refused x)
      ∨ ∃ t, step s = .next t ∧ MachineInv t ∧ s.life.toNat ≤ t.life.toNat := by
  rcases step_cases s with hr | ⟨a, n, ts, x, hh, ha, hs⟩ | ⟨n, u, hu, hs⟩
  · exact .inl hr
  · rw [guarded_of_legal h.life_legal h.err_legal] at hs
    exact .inr (.inl ⟨a, n, ts, x, hh, ha, hs⟩)
  · rw [guarded_of_legal h.life_legal h.err_legal] at hs
    obtain ⟨htaken, hlife⟩ := turnTaken_inv h
    obtain ⟨hinv, hlife'⟩ := entered_inv htaken hu
    obtain ⟨t, ht, hinv', hle⟩ := runSeq_inv n hinv
    rw [hlife', hlife] at hle
    exact .inr (.inr ⟨t, hs.trans ht, hinv', hle⟩)

/-! ## The statements -/

/-- Settles O50: the reset state is idle, its pins are parked and no result is valid. -/
theorem invHoldsAtReset : Obligations.InvHoldsAtReset := machineInv_reset

/-- Settles O51: what an input does keeps the invariant, and so does every sequencer step after it. -/
theorem stepKeepsInv : Obligations.StepKeepsInv := by
  intro s t h ht
  rcases step_inv_cases h with ⟨n, ts, -, hs⟩ | ⟨a, n, ts, x, -, -, hs⟩ | ⟨u, hs, hinv, -⟩ <;>
    rw [hs] at ht <;> cases ht
  · exact hardReset_inv _
  · exact hinv

/-- Settles O52: the invariant makes every micro-operation still to come safe, so that only the refusals are left. -/
theorem noModelFaultIsReached : Obligations.NoModelFaultIsReached := by
  intro s h
  rcases step_inv_cases h with ⟨n, ts, -, hs⟩ | ⟨a, n, ts, x, hh, ha, -⟩ | ⟨t, hs, -, -⟩
  · exact .inl ⟨_, hs⟩
  · exact .inr ⟨a, n, ts, hh, ha⟩
  · exact .inl ⟨t, hs⟩

/-- CLOSED is the greatest legal LIFE. -/
theorem life_eq_closed {l : LifeCode} (hl : l ≠ 3#2) (h : lifeClosed.toNat ≤ l.toNat) : l = lifeClosed := by
  revert l
  decide

/-- Settles O21: every sequencer step of the invariant raises LIFE or keeps it, and no input but hardware reset moves it. -/
theorem lifecycleNeverGoesBack : Obligations.LifecycleNeverGoesBack := by
  intro s t h ht hrst
  rcases step_inv_cases h with ⟨n, ts, hh, -⟩ | ⟨a, n, ts, x, -, -, hs⟩ | ⟨u, hs, hinv, hle⟩
  · exact absurd hh (hrst n ts)
  · rw [hs] at ht
    cases ht
  · rw [hs] at ht
    cases ht
    exact ⟨hle, hinv.life_legal, fun hc => life_eq_closed hinv.life_legal (hc ▸ hle)⟩

end Sys2Proof.Machine
end

/-! What a command does whichever it is: its acceptance step, its frame, its completion, and the count of its micro-operations. -/

section
namespace Sys2Proof.Machine

/-! ## The acceptance step -/

/-- Settles O16: acceptance is `startOf`, and what that writes is `startOf_eq`. -/
theorem commandStartsInItsAcceptanceStep : Obligations.CommandStartsInItsAcceptanceStep := by
  intro i s ⟨h1, h2, hb, _⟩ hw hr
  exact ⟨startOf i s, by rw [exec_runs h1 h2 hb hr, hw, runSeq_zero], startOf_rest_ne_nil i s, startOf_eq i s⟩

/-! ## The frame -/

/-- What a command's rule lets it write (R44), by group. -/
def mayWrite (i : Instr) (g : Group) : Bool :=
  match g with
  | .temp => i.writesT
  | .hum => i.writesRH
  | .data16 => i.writesD16
  | .ack => i.writesAck
  | .polls => i.writesPolls
  | .life => i.writesLife
  | .dirs => i.writesDir
  | .latches => i.writesLatch
  | .fixed => false

/-- Every micro-operation of a routine leaves the group alone. -/
def sparesAll (p : List MicroInstr) (g : Group) : Bool := p.all fun j => j.spares g

theorem sparesAll_append (p q : List MicroInstr) (g : Group) :
    sparesAll (p ++ q) g = (sparesAll p g && sparesAll q g) := List.all_append

theorem sparesAll_fixed (p : List MicroInstr) : sparesAll p .fixed = true :=
  List.all_eq_true.2 fun j _ => spares_fixed j

/-- MEASURE writes no result but DATA16, and no LIFE (R142). -/
theorem measureRoutine_spares (c : Code) :
    sparesAll (measureRoutine c) .temp = true ∧ sparesAll (measureRoutine c) .hum = true
      ∧ sparesAll (measureRoutine c) .life = true := by
  simp only [measureRoutine, sparesAll_append]
  exact ⟨rfl, rfl, rfl⟩

/-- A routine writes no group that its command's rule does not list. -/
theorem routineOf_spares (i : Instr) (g : Group) (s : State) :
    (mayWrite i g || sparesAll (routineOf i s) g) = true := by
  cases i with
  | openCmd a | closeCmd a | resetCmd a | engSend a | engWait a | engGet16 a | engSkipCrc a | calT a | calRH a =>
    cases g <;> rfl
  | readT a =>
    obtain ⟨ht, hh, hl⟩ := measureRoutine_spares Config.cmdTemp
    cases g with
    | hum => rw [routineOf, readTRoutine, sparesAll_append, hh]; rfl
    | life => rw [routineOf, readTRoutine, sparesAll_append, hl]; rfl
    | fixed => rw [sparesAll_fixed, Bool.or_true]
    | temp | data16 | ack | polls | dirs | latches => rfl
  | readRH a | readTRH a =>
    obtain ⟨-, -, hl⟩ := measureRoutine_spares Config.cmdTemp
    obtain ⟨-, -, hl'⟩ := measureRoutine_spares Config.cmdHumi
    cases g with
    | life =>
      rw [routineOf, readTRHRoutine, sparesAll_append, sparesAll_append, sparesAll_append, hl, hl']
      rfl
    | fixed => rw [sparesAll_fixed, Bool.or_true]
    | temp | hum | data16 | ack | polls | dirs | latches => rfl

/-- Acceptance writes no group that the command's rule does not list (R67). -/
theorem startOf_view (i : Instr) {g : Group} (hg : g ≠ .fixed) (h : mayWrite i g = false) (s : State) :
    g.view (startOf i s) = g.view s := by
  have hkeep : ∀ {flag w : Bool}, w = false → (flag && !w) = flag := by simp
  rw [startOf_eq]
  cases g with
  | fixed => exact absurd rfl hg
  | temp => exact view_temp_iff.2 ⟨rfl, rfl, hkeep h⟩
  | hum => exact view_hum_iff.2 ⟨rfl, rfl, rfl, hkeep h⟩
  | data16 => exact view_data16_iff.2 ⟨rfl, hkeep h⟩
  | ack | polls | life | dirs | latches => rfl

/-- However far a command has run, a group its rule does not list is as it was. -/
theorem exec_view {i : Instr} {g : Group} {s t : State} (hg : g ≠ .fixed) (hb : s.busy = false)
    (h : mayWrite i g = false) (ht : exec i s = .next t) : g.view t = g.view s := by
  obtain ⟨h1, h2, -⟩ := command_next ((exec_eq i s).symm.trans ht)
  rcases hr : i.runsIn s.life with _ | _
  · obtain ⟨e, -, he⟩ := exec_atOnce h1 h2 hb hr
    rw [he] at ht
    cases ht
    cases g with
    | fixed => exact absurd rfl hg
    | _ => rfl
  · rw [exec_runs h1 h2 hb hr] at ht
    have hs := routineOf_spares i g (preparedFor i s)
    rw [h, Bool.false_or, sparesAll, List.all_eq_true] at hs
    exact (runSeq_view hs ht).trans (startOf_view i hg h s)

/-- What is fixed at acceptance, however far a command has run. -/
theorem exec_fixed {i : Instr} {s t : State} (hb : s.busy = false) (ht : exec i s = .next t) :
    t.cmdLast = encode i ∧ t.reject = false ∧ t.opa = s.opa ∧ t.opb = s.opb
      ∧ (i.opcode ∉ [0x8#4, 0xC#4, 0xD#4] → t.la = s.la) ∧ (i.opcode ≠ 0xD#4 → t.lb = s.lb)
      ∧ t.host = s.host ∧ t.window = s.window ∧ t.rdata = s.rdata := by
  obtain ⟨h1, h2, -⟩ := command_next ((exec_eq i s).symm.trans ht)
  rcases hr : i.runsIn s.life with _ | _
  · obtain ⟨e, -, he⟩ := exec_atOnce h1 h2 hb hr
    rw [he] at ht
    cases ht
    exact ⟨rfl, rfl, rfl, rfl, fun _ => rfl, fun _ => rfl, rfl, rfl, rfl⟩
  · rw [exec_runs h1 h2 hb hr] at ht
    obtain ⟨hc, hj, ha, hb', hla, hlb, hh, hw, hd⟩ :=
      view_fixed_iff.1 (runSeq_view (g := .fixed) (fun j _ => spares_fixed j) ht)
    rw [hc, hj, ha, hb', hla, hlb, hh, hw, hd, startOf_eq]
    refine ⟨rfl, rfl, rfl, rfl, fun h => ?_, fun h => ?_, rfl, rfl, rfl⟩
    · simp only [List.mem_cons, not_or] at h
      simp [Instr.latchedA, Instr.opIn, h]
    · simp [Instr.latchedB, Instr.opIn, h]

/-- Settles O57: each group by `exec_view`, and what acceptance fixes by `exec_fixed`. -/
theorem commandFrame : Obligations.CommandFrame := by
  intro i s t hb ht
  obtain ⟨hc, hj, ha, hb', hla, hlb, hh, hw, hd⟩ := exec_fixed hb ht
  exact ⟨ha, hb', hh, hw, hd, hc, hj,
    fun h => view_temp_iff.1 (exec_view (g := .temp) (by decide) hb h ht),
    fun h => view_hum_iff.1 (exec_view (g := .hum) (by decide) hb h ht),
    fun h => view_data16_iff.1 (exec_view (g := .data16) (by decide) hb h ht),
    fun h => view_ack_iff.1 (exec_view (g := .ack) (by decide) hb h ht),
    fun h => exec_view (g := .polls) (by decide) hb h ht,
    fun h => exec_view (g := .life) (by decide) hb h ht,
    fun h => view_dirs_iff.1 (exec_view (g := .dirs) (by decide) hb h ht),
    fun h => view_latches_iff.1 (exec_view (g := .latches) (by decide) hb h ht), hla, hlb⟩

/-! ## Completion -/

/-- Within `n` sequencer steps the command has ended. -/
def HaltsIn (n : Nat) (s : State) : Prop := ∃ t, runSeq n s = .next t ∧ t.busy = false

theorem haltsIn_mono {m n : Nat} {s : State} (h : m ≤ n) (hs : HaltsIn m s) : HaltsIn n s := by
  obtain ⟨t, ht, hb⟩ := hs
  obtain ⟨k, rfl⟩ := Nat.exists_eq_add_of_le h
  exact ⟨t, by rw [runSeq_add, ht, andThen_next, runSeq_idle k hb], hb⟩

theorem haltsIn_cons {n : Nat} {i : MicroInstr} {r : List MicroInstr} {s : State} (hb : s.busy = true)
    (hr : s.rest = i :: r) (hf : opFault i.op s = none) (h : HaltsIn n (advance i r s)) : HaltsIn (n + 1) s := by
  obtain ⟨t, ht, hbt⟩ := h
  exact ⟨t, by rw [runSeq_cons n hb hr hf, ht], hbt⟩

/-- A routine that decides nothing halts at its end. -/
theorem haltsIn_straight {s : State} (hb : s.busy = true) (hne : s.rest ≠ [])
    (hp : s.rest.all (fun i => i.post.straight) = true) (he : enabledFrom s.rest s.ddir s.cdir = true) :
    HaltsIn s.rest.length s :=
  ⟨_, by rw [← Nat.zero_add s.rest.length, run_straight_end 0 hne hb rfl hp he], rfl⟩

/-- A ready-poll either sees a low sample among its first hundred, or a hundred high ones (R109). -/
theorem readyAfter_or_neverReady (s : State) (n : Nat) : (∃ k, s.readyAfter n k) ∨ s.neverReady n := by
  by_cases h : ∃ j, j < 100 ∧ s.drawAt (n + j) = false
  · have hlow := Nat.find_spec h
    refine .inl ⟨Nat.find h + 1, Nat.le_add_left 1 _, hlow.1, fun j hj => ?_, hlow.2⟩
    have hmin := Nat.find_min h (m := j) (by omega)
    have := hlow.1
    by_contra hne
    exact hmin ⟨by omega, Bool.eq_false_iff.2 hne⟩
  · refine .inr fun j hj => ?_
    by_contra hne
    exact h ⟨j, hj, Bool.eq_false_iff.2 hne⟩

/-- OPEN (R138, R139). -/
theorem haltsIn_open {s : State} (hb : s.busy = true) (hr : s.rest = openRoutine) : HaltsIn 4 s := by
  have hask : ∀ r, advance ⟨.grant .data, .grantData⟩ r s
      = goOn (⟨.grant .sck, .grantSck (s.drawAt 0)⟩ :: r) (effect ⟨.grant .data, .grantData⟩ s) := fun _ => rfl
  have hflow : ∀ (g : Bool) (r : List MicroInstr) (u : State),
      flowOf ⟨.grant .sck, .grantSck g⟩ r u = if g && u.drawAt 0 then .go r else .raise errPinAcq := fun _ _ _ => rfl
  refine haltsIn_cons hb hr rfl ?_
  rw [hask]
  refine haltsIn_cons (by simpa using hb) rfl rfl ?_
  rw [advance_eq_conclude, hflow]
  split_ifs
  · exact haltsIn_straight (s := goOn [plain (.dir .data .out), ⟨.dir .sck .out, .lifeReady⟩] _) (by simpa using hb)
      (List.cons_ne_nil _ _) rfl rfl
  · exact ⟨_, runSeq_idle 2 rfl, rfl⟩

/-- ENG_SEND (R105, R107). -/
theorem haltsIn_sendCmd {c : Code} {s : State} (hb : s.busy = true) (hr : s.rest = sendCmd c) : HaltsIn 60 s := by
  have h := run_sendCmd (r := []) 0 hb (hr.trans (List.append_nil _).symm)
  refine ⟨_, h, ?_⟩
  split_ifs <;> rfl

/-- ENG_WAIT (R108, R109). -/
theorem haltsIn_waitReady {s : State} (hb : s.busy = true) (hr : s.rest = waitReady) : HaltsIn 201 s := by
  have hr' : s.rest = waitReady ++ [] := by rw [hr, List.append_nil]
  rcases readyAfter_or_neverReady s 0 with ⟨k, hk⟩ | hn
  · have h := run_waitReady 0 hb hr' hk
    have hle := hk.2.1
    exact haltsIn_mono (by omega) ⟨_, h, rfl⟩
  · exact ⟨_, run_waitReady_timeout 0 hb hr' hn, rfl⟩

/-- MEASURE, where what follows it halts (R142). -/
theorem haltsIn_measure {c : Code} {j : MicroInstr} {r : List MicroInstr} {n : Nat} {s : State} (hb : s.busy = true)
    (hr : s.rest = measureRoutine c ++ j :: r) (hnext : ∀ u : State, u.busy = true → HaltsIn n (goOn (j :: r) u)) :
    HaltsIn (n + 357) s := by
  by_cases ha : s.acked 0
  · rcases readyAfter_or_neverReady s 2 with ⟨k, hk⟩ | hn
    · obtain ⟨t, ht, hbt⟩ := hnext (afterMeasure c k s) hb
      have hle := hk.2.1
      exact haltsIn_mono (m := n + (157 + 2 * k)) (by omega) ⟨t, by rw [run_measure n hb hr ha hk, ht], hbt⟩
    · exact haltsIn_mono (m := 0 + 261) (by omega) ⟨_, run_measure_timeout 0 hb hr ha hn, rfl⟩
  · exact haltsIn_mono (m := 0 + 60) (by omega) ⟨_, run_measure_nack 0 hb hr ha, rfl⟩

/-- READ_T, and the humidity stage of READ_TRH (R144, R145). -/
theorem haltsIn_lastStage {c : Code} {k : CalcKind} {s : State} (hb : s.busy = true)
    (hr : s.rest = measureRoutine c ++ [plain (.calc k)]) : HaltsIn 358 s :=
  haltsIn_measure (n := 1) hb hr fun _ hu => ⟨_, run_calc_last k 0 hu, rfl⟩

/-- READ_TRH (R145). -/
theorem haltsIn_readTRH {s : State} (hb : s.busy = true) (hr : s.rest = readTRHRoutine) : HaltsIn 716 s := by
  rw [readTRHRoutine, List.append_assoc, List.append_assoc] at hr
  exact haltsIn_measure (n := 359) hb hr fun u hu => haltsIn_cons hu rfl rfl (haltsIn_lastStage hu rfl)

/-- From whatever pins, every routine halts within 716 micro-operations. -/
theorem haltsIn_startOf (i : Instr) (s : State) : HaltsIn 716 (startOf i s) := by
  cases i with
  | openCmd a => exact haltsIn_mono (by omega) (haltsIn_open rfl rfl)
  | engSend a => exact haltsIn_mono (by omega) (haltsIn_sendCmd rfl rfl)
  | engWait a => exact haltsIn_mono (by omega) (haltsIn_waitReady rfl rfl)
  | readT a => exact haltsIn_mono (by omega) (haltsIn_lastStage rfl rfl)
  | readRH a | readTRH a => exact haltsIn_readTRH rfl rfl
  | closeCmd a | resetCmd a | engGet16 a | engSkipCrc a | calT a | calRH a =>
    exact haltsIn_mono (Nat.le_of_ble_eq_true rfl) (haltsIn_straight rfl (startOf_rest_ne_nil _ s) rfl rfl)

/-- A command that has ended has DONE set and CUR empty (R83). -/
theorem runSeq_ended {n : Nat} {s t : State} (hs : s.busy = true) (ht : runSeq n s = .next t) (hb : t.busy = false) :
    t.done = true ∧ t.cur = none := by
  refine runSeq_induct (P := fun u => u.busy = false → u.done = true ∧ u.cur = none) (fun u v _ hbu hm hbv => ?_) n
    (fun hb' => by rw [hs] at hb'; cases hb') ht hb
  obtain ⟨i, r, -, -, rfl⟩ := (microStep_next_iff u v).1 hm
  rcases advance_cases i r u with ⟨e, -, -, ha⟩ | ⟨-, ha⟩
  · rw [ha]
    exact ⟨rfl, rfl⟩
  · rw [ha, goOn_busy, effect_busy, hbu] at hbv
    cases hbv

/-- Settles O53: a command that runs halts within 716 steps, and one that does not has completed in its acceptance step. -/
theorem everyCommandCompletes : Obligations.EveryCommandCompletes := by
  intro i s ⟨h1, h2, hb, hw⟩
  rcases hr : i.runsIn s.life with _ | _
  · obtain ⟨e, -, he⟩ := exec_atOnce h1 h2 hb hr
    exact ⟨_, he, hb, rfl, rfl, id⟩
  · obtain ⟨t, ht, hbt⟩ := haltsIn_mono hw (haltsIn_startOf i s)
    have hexec := (exec_runs h1 h2 hb hr).trans ht
    obtain ⟨hd, hc⟩ := runSeq_ended rfl ht hbt
    exact ⟨t, hexec, hbt, hd, (exec_fixed hb hexec).1, fun _ => hc⟩

end Sys2Proof.Machine
end

/-! How many micro-operations a command of fixed length takes (R118, R191), and the calibration commands as a whole. -/

section
namespace Sys2Proof.Machine

/-! ## Counting micro-operations -/

/-- The command runs for exactly `n` micro-operations, which UPC counts. -/
def Counted (n : Nat) (s : State) : Prop :=
  (∀ m < n, ∃ t, runSeq m s = .next t ∧ t.busy = true ∧ t.done = false ∧ t.upc = s.upc + BitVec.ofNat 10 m)
    ∧ ∃ t, runSeq n s = .next t ∧ t.busy = false ∧ t.done = true

/-- A straight step is one more micro-operation. -/
theorem counted_cons {n : Nat} {i j : MicroInstr} {r : List MicroInstr} {s : State} (hb : s.busy = true)
    (hd : s.done = false) (hr : s.rest = i :: j :: r) (hf : opFault i.op s = none) (hi : i.post.straight = true)
    (h : Counted n (goOn (j :: r) (effect i s))) : Counted (n + 1) s := by
  have hrun : ∀ m, runSeq (m + 1) s = runSeq m (goOn (j :: r) (effect i s)) := fun m => by
    rw [runSeq_cons m hb hr hf, advance_straight hi]
  refine ⟨fun m hm => ?_, by rw [hrun]; exact h.2⟩
  cases m with
  | zero => exact ⟨s, rfl, hb, hd, (BitVec.add_zero _).symm⟩
  | succ m =>
    obtain ⟨t, ht, htb, htd, htu⟩ := h.1 m (Nat.lt_of_succ_lt_succ hm)
    refine ⟨t, by rw [hrun, ht], htb, htd, ?_⟩
    obtain ⟨-, -, -, -, hu⟩ := effect_control i s
    rw [htu, goOn_upc, hu, bv_ofNat_shift, Nat.add_comm]

/-- A last step that asks for no more ends the command. -/
theorem counted_last {j : MicroInstr} {s : State} (hb : s.busy = true) (hd : s.done = false) (hr : s.rest = [j])
    (hf : opFault j.op s = none) (hj : (j.post.straight || j.post == .ack2) = true) : Counted 1 s := by
  have htodo : (flowOf j [] s).todo = [] := by
    have h := flowOf_continues j [] s
    generalize flowOf j [] s = f at h
    cases h with
    | onward => rfl
    | abort e => rfl
    | pollAgain hp | askSck b hp =>
      rw [hp] at hj
      cases hj
  refine ⟨fun m hm => ?_, ?_⟩
  · obtain rfl : m = 0 := by omega
    exact ⟨s, rfl, hb, hd, (BitVec.add_zero _).symm⟩
  · rcases advance_cases j [] s with ⟨e, -, -, ha⟩ | ⟨hne, -⟩
    · exact ⟨_, runSeq_cons 0 hb hr hf, by rw [ha]; rfl, by rw [ha]; rfl⟩
    · exact absurd htodo hne

/-- A routine that decides nothing before its last step, and asks for no more there, takes as many steps as it has. -/
theorem counted_routine {p : List MicroInstr} {s : State} (hb : s.busy = true) (hd : s.done = false) (hr : s.rest = p)
    (hne : p ≠ []) (hp : p.dropLast.all (fun i => i.post.straight) = true)
    (hlast : ((p.getLast hne).post.straight || (p.getLast hne).post == .ack2) = true)
    (he : enabledFrom p s.ddir s.cdir = true) : Counted p.length s := by
  induction p generalizing s with
  | nil => exact absurd rfl hne
  | cons i p ih =>
    have hf := opFault_of_enabled he
    rcases p with _ | ⟨j, r⟩
    · exact counted_last hb hd hr hf hlast
    · rw [List.dropLast_cons_cons, List.all_cons, Bool.and_eq_true] at hp
      rw [enabledFrom, Bool.and_eq_true] at he
      refine counted_cons hb hd hr hf hp.1 (ih ?_ ?_ rfl (List.cons_ne_nil j r) hp.2 hlast ?_)
      · exact (effect_busy i s).trans hb
      · exact (effect_control i s).2.1.trans hd
      · simpa [effect_ddir, effect_cdir] using he.2

/-- The routines of fixed length (R191): they decide nothing before their last step, and ask for no more there. -/
theorem routineOf_fixedLength {i : Instr} {n : Nat}
    (h : (i.opcode, n) ∈ [(0x2#4, 2), (0x3#4, 43), (0x8#4, 60), (0xA#4, 89), (0xB#4, 7), (0xC#4, 1), (0xD#4, 1)])
    (s : State) :
    (routineOf i s).length = n ∧ (routineOf i s).dropLast.all (fun j => j.post.straight) = true
      ∧ (((routineOf i s).getLast (routineOf_ne_nil i s)).post.straight
          || ((routineOf i s).getLast (routineOf_ne_nil i s)).post == .ack2) = true
      ∧ ∀ ddir cdir, enabledFrom (routineOf i s) ddir cdir = true := by
  cases i with
  | openCmd a | readT a | readRH a | readTRH a | engWait a => simp [Instr.opcode] at h
  | closeCmd a | resetCmd a | engSend a | engGet16 a | engSkipCrc a | calT a | calRH a =>
    obtain rfl : n = _ := by simpa [Instr.opcode] using h
    exact ⟨rfl, rfl, rfl, fun _ _ => rfl⟩

theorem startOf_counted {i : Instr} {n : Nat}
    (h : (i.opcode, n) ∈ [(0x2#4, 2), (0x3#4, 43), (0x8#4, 60), (0xA#4, 89), (0xB#4, 7), (0xC#4, 1), (0xD#4, 1)])
    (s : State) : Counted n (startOf i s) := by
  obtain ⟨rfl, hp, hlast, he⟩ := routineOf_fixedLength h (preparedFor i s)
  have hd : (startOf i s).done = false := by rw [startOf_eq]
  exact counted_routine rfl hd rfl _ hp hlast (he _ _)

/-- Settles O30: the routines of fixed length decide nothing before their last step, so each runs as many steps as it has. -/
theorem microOperationCounts : Obligations.MicroOperationCounts := by
  intro i n s h ⟨h1, h2, hb, _⟩ hr
  have hexec : ∀ m, exec i { s with window := m } = runSeq m (startOf i { s with window := m }) := fun m =>
    exec_runs h1 h2 hb hr
  refine ⟨fun m hm => ?_, ?_⟩
  · rw [hexec]
    obtain ⟨t, ht, htb, htd, htu⟩ := (startOf_counted h { s with window := m }).1 m hm
    exact ⟨t, ht, htb, htd, htu.trans (BitVec.zero_add _)⟩
  · rw [hexec]
    exact (startOf_counted h { s with window := n }).2

/-! ## The calibration commands -/

/-- A command that is one `CALC` completes with it (R130). -/
theorem exec_calc {i : Instr} {k : CalcKind} {s : State} (hi : s.idleFor 1) (hr : i.runsIn s.life = true)
    (hk : (startOf i s).rest = [plain (.calc k)]) :
    exec i s = .next (complete errNone (effect (plain (.calc k)) (startOf i s))) := by
  obtain ⟨h1, h2, hb, hw⟩ := hi
  rw [exec_runs h1 h2 hb hr, ← Nat.sub_add_cancel hw, runSeq_cons _ rfl hk rfl, advance_last rfl, runSeq_idle _ rfl]

/-- What that one `CALC` leaves: its commit, counted (R91, R99). -/
theorem effect_calc (k : CalcKind) (s : State) :
    effect (plain (.calc k)) s
      = { applyCalc k s with upc := s.upc + 1#10, trace := s.trace, cycles := s.cycles + Config.calCycles } := by
  cases k <;> rfl

theorem calTemp_eq (r : Raw) : calTemp r = BitVec.ofInt 32 ((r.toNat : Int) - 4010) := by
  rw [calTemp, Config.coeffD1, Config.coeffD2, one_mul]
  rfl

/-- Settles O31: acceptance, one `CALC`, completion. -/
theorem calTCommitsTheTemperature : Obligations.CalTCommitsTheTemperature := by
  intro a s hi
  refine ⟨_, exec_calc (k := .calT) hi rfl rfl, ?_⟩
  rw [← calTemp_eq, effect_calc, startOf_eq]
  simp [State.specified, State.ran, State.saw, complete, applyCalc, commitT, rawOperand, Instr.latchedA, Instr.latchedB,
    Instr.writesRH, Instr.writesD16, Instr.opIn, Instr.opcode]

/-- Settles O32: acceptance, one `CALC`, completion. -/
theorem calRHCommitsTheHumidity : Obligations.CalRHCommitsTheHumidity := by
  intro a s hi
  refine ⟨_, exec_calc (k := .calRH) hi rfl rfl, ?_⟩
  rw [effect_calc, startOf_eq]
  simp [State.specified, State.ran, State.saw, complete, applyCalc, commitRH, rawOperand, tempOperand, Instr.latchedA,
    Instr.latchedB, Instr.writesT, Instr.writesD16, Instr.opIn, Instr.opcode]

end Sys2Proof.Machine
end

/-! The host port: what a well-formed access does, the layout of STATUS and PINS, hardware reset, and what a host's writes during
a command leave alone. -/

section
namespace Sys2Proof.Machine

/-! ## One access -/

/-- A word-aligned read, and the sequencer steps of its window (R53). -/
theorem step_read {s : State} {off : Offset} {n : Nat} {ts : List Turn} (hl : s.legalCodes)
    (hh : s.host = ⟨.access (readAt off), n⟩ :: ts) (ha : off.extractLsb' 0 2 = 0#2) :
    step s = runSeq n { s with host := ts, window := n, rdata := hostRead off s } := by
  have hwf : (HostAccess.read 32 off).wellFormed = true := by
    simp [HostAccess.wellFormed, HostAccess.fullWord, HostAccess.aligned, HostAccess.off, ha]
  rw [step_other hh rfl, otherTurn, guarded_of_legal (s := takeTurn _ ts s) hl.1 hl.2, readAt, accessStep_read hwf]
  rfl

/-- A word-aligned write away from CMD, and the sequencer steps of its window (R53). -/
theorem step_write {s : State} {off : Offset} {v : Word} {n : Nat} {ts : List Turn} (hl : s.legalCodes)
    (hh : s.host = ⟨.access (writeAt off v), n⟩ :: ts) (ha : off.extractLsb' 0 2 = 0#2) (hc : off.extractLsb' 2 4 ≠ 0#4) :
    step s = runSeq n (hostWrite off v { s with host := ts, window := n }) := by
  have hwf : (HostAccess.write 32 off v).wellFormed = true := by
    simp [HostAccess.wellFormed, HostAccess.fullWord, HostAccess.aligned, HostAccess.off, ha]
  have hcmd : commandWord (.access (writeAt off v)) = none := by simp [commandWord, writeAt, hc]
  rw [step_other hh hcmd, otherTurn, guarded_of_legal (s := takeTurn _ ts s) hl.1 hl.2, writeAt, accessStep_write hwf]
  rfl

/-! ## The words the host reads -/

@[simp] theorem flagBit_getLsbD_zero (b : Bool) : (flagBit b).getLsbD 0 = b := by cases b <;> rfl

theorem getLsbD_append_high {n m i : Nat} {x : BitVec n} {y : BitVec m} (h : m ≤ i) :
    (x ++ y).getLsbD i = x.getLsbD (i - m) := by
  rw [BitVec.getLsbD_append, if_neg (Nat.not_lt.2 h)]

theorem getLsbD_append_low {n m i : Nat} {x : BitVec n} {y : BitVec m} (h : i < m) :
    (x ++ y).getLsbD i = y.getLsbD i := by
  rw [BitVec.getLsbD_append, if_pos h]

/-! A word of several fields, with its width written as the sum of theirs, so that a field is read off from the low end. -/

theorem pinsWord_getLsbD (s : State) (i : Nat) :
    (pinsWord s).getLsbD i = BitVec.getLsbD (w := 28 + 1 + 1 + 1 + 1)
      (0#28 ++ flagBit s.cout ++ flagBit s.cdir ++ flagBit s.dout ++ flagBit s.ddir) i := rfl

theorem pinsWord_extractLsb' (s : State) (i n : Nat) :
    (pinsWord s).extractLsb' i n = BitVec.extractLsb' (n := 28 + 1 + 1 + 1 + 1) i n
      (0#28 ++ flagBit s.cout ++ flagBit s.cdir ++ flagBit s.dout ++ flagBit s.ddir) := rfl

theorem statusWord_getLsbD (s : State) (i : Nat) :
    (statusWord s).getLsbD i = BitVec.getLsbD (w := 7 + 7 + 1 + 1 + 1 + 1 + 1 + 1 + 4 + 4 + 2 + 1 + 1)
      (0#7 ++ s.polls ++ flagBit s.reject ++ flagBit s.d16Valid ++ flagBit s.rhValid ++ flagBit s.tValid ++ flagBit s.ack2
        ++ flagBit s.ack1 ++ s.err ++ 0#4 ++ s.life ++ flagBit s.done ++ flagBit s.busy) i := rfl

theorem statusWord_extractLsb' (s : State) (i n : Nat) :
    (statusWord s).extractLsb' i n = BitVec.extractLsb' (n := 7 + 7 + 1 + 1 + 1 + 1 + 1 + 1 + 4 + 4 + 2 + 1 + 1) i n
      (0#7 ++ s.polls ++ flagBit s.reject ++ flagBit s.d16Valid ++ flagBit s.rhValid ++ flagBit s.tValid ++ flagBit s.ack2
        ++ flagBit s.ack1 ++ s.err ++ 0#4 ++ s.life ++ flagBit s.done ++ flagBit s.busy) := rfl

/-- Settles O8: each bit of PINS is read off the concatenation. -/
theorem pinsShowThePinState : Obligations.PinsShowThePinState := by
  refine ⟨fun s => ?_, by decide, fun s v ts hl hh => step_write hl hh (by decide) (by decide)⟩
  rw [show hostRead 0x30#6 s = pinsWord s from rfl]
  simp (disch := decide) only [pinsWord_getLsbD, pinsWord_extractLsb', getLsbD_append_high, getLsbD_append_low,
    BitVec.extractLsb'_append_eq_of_le, Nat.reduceSub, flagBit_getLsbD_zero, BitVec.extractLsb'_eq_self, portDataOe, portDataO,
    portSckOe, portSckO, true_and]

/-- Settles O7: each field of STATUS is read off the concatenation. -/
theorem statusLayout : Obligations.StatusLayout := by
  refine ⟨fun s => ?_, by decide, fun s ts hl hh => step_read hl hh (by decide),
    fun s v ts hl hh => step_write hl hh (by decide) (by decide)⟩
  simp (disch := decide) only [statusWord_getLsbD, statusWord_extractLsb', getLsbD_append_high, getLsbD_append_low,
    BitVec.extractLsb'_append_eq_of_le, BitVec.extractLsb'_append_eq_of_add_le, Nat.reduceSub, flagBit_getLsbD_zero,
    BitVec.extractLsb'_eq_self, true_and]

/-- Settles O9: `hostWrite` at each of the fifteen offsets. -/
theorem writesStoreOnlyOperands : Obligations.WritesStoreOnlyOperands := by
  intro s v ts hl
  refine ⟨fun hh => step_write hl hh (by decide) (by decide), fun hh => step_write hl hh (by decide) (by decide),
    fun off hoff hh => ?_⟩
  simp only [List.mem_cons, List.not_mem_nil, or_false] at hoff
  rcases hoff with rfl | rfl | rfl | rfl | rfl | rfl | rfl | rfl | rfl | rfl | rfl | rfl | rfl <;>
    exact step_write hl hh (by decide) (by decide)

/-- Settles O47: each value of the literal reset state. -/
theorem resetValues : Obligations.ResetValues := by
  unfold Obligations.ResetValues
  decide

/-- Settles O49: the step is `hardReset`, whatever the codes are. -/
theorem hardwareResetTakesOneStep : Obligations.HardwareResetTakesOneStep := by
  intro s n ts hh
  exact ⟨hardReset (takeTurn ⟨.rst, n⟩ ts s), step_other hh rfl, rfl⟩

/-! ## What a host writes while a command runs -/

section
variable (x y : Word) (r : Bool)

theorem opFault_withHostData (op : MicroOp) (s : State) : opFault op (s.withHostData x y r) = opFault op s := by
  rcases op with _ | ⟨_ | _, _⟩ | _ | _ | _ | _ | _ <;> rfl

theorem opBit_withHostData (op : MicroOp) (s : State) : opBit op (s.withHostData x y r) = opBit op s := by
  cases op <;> rfl

theorem applyOp_withHostData (op : MicroOp) (s : State) :
    applyOp op (s.withHostData x y r) = (applyOp op s).withHostData x y r := by
  rcases op with ⟨_ | _, _⟩ | ⟨_ | _, _⟩ | _ | _ | _ | _ | ⟨_ | _ | _ | _⟩ <;> rfl

theorem applyPost_withHostData (p : Post) (b : Bool) (rest : List MicroInstr) (s : State) :
    applyPost p b rest (s.withHostData x y r)
      = ((applyPost p b rest s).1.withHostData x y r, (applyPost p b rest s).2) := by
  cases p <;> rfl

theorem conclude_withHostData (s : State) (f : Flow) :
    conclude (s.withHostData x y r, f) = (conclude (s, f)).withHostData x y r := by
  rcases f with (_ | ⟨i, q⟩) | e <;> rfl

/-- A step neither reads nor writes OPA, OPB and REJECT. -/
theorem advance_withHostData (i : MicroInstr) (rest : List MicroInstr) (s : State) :
    advance i rest (s.withHostData x y r) = (advance i rest s).withHostData x y r := by
  have hcount : ∀ b (u : State), count i.op b (u.withHostData x y r) = (count i.op b u).withHostData x y r := fun _ _ => rfl
  rw [advance, opBit_withHostData, applyOp_withHostData, hcount, applyPost_withHostData, conclude_withHostData]
  rfl

theorem microStep_withHostData (s : State) :
    microStep (s.withHostData x y r) = mapNext (fun t => t.withHostData x y r) (microStep s) := by
  have hrest : (s.withHostData x y r).rest = s.rest := rfl
  unfold microStep
  rw [hrest]
  rcases s.rest with _ | ⟨i, rest⟩
  · rfl
  · dsimp only
    rw [opFault_withHostData, advance_withHostData]
    rcases opFault i.op s with _ | f <;> rfl

theorem runSeq_withHostData (n : Nat) (s : State) :
    runSeq n (s.withHostData x y r) = mapNext (fun t => t.withHostData x y r) (runSeq n s) := by
  induction n generalizing s with
  | zero => rfl
  | succ n ih =>
    by_cases hb : s.busy = true
    · rw [runSeq_busy n hb, runSeq_busy n (s := s.withHostData x y r) hb, microStep_withHostData]
      rcases microStep s with u | f | z
      · exact ih u
      · rfl
      · rfl
    · have hb' := Bool.eq_false_iff.2 hb
      rw [runSeq_idle _ hb', runSeq_idle (s := s.withHostData x y r) _ hb']
      rfl

end

theorem mapNext_guarded (f : State → State) (s : State) (k : State → Host.Outcome State Fault Refusal) :
    mapNext f (guarded s k) = guarded s fun u => mapNext f (k u) := by
  unfold guarded
  rcases codeFault s with _ | x <;> rfl

/-- Settles O58: the codes that `guarded` looks at are not the host's to write, and no sequencer step reads what is. -/
theorem runningCommandIgnoresHostWrites : Obligations.RunningCommandIgnoresHostWrites := by
  intro s n ts x y r _
  have hstep : ∀ u : State, u.host = ⟨.quiet, n⟩ :: ts →
      step u = guarded u fun _ => runSeq n { u with host := ts, window := n } := fun u hu => step_other hu rfl
  rw [hstep _ rfl, hstep _ rfl, mapNext_guarded]
  exact congrArg (fun o => guarded { s with host := ⟨.quiet, n⟩ :: ts } fun _ => o)
    (runSeq_withHostData x y r n { s with host := ts, window := n })

end Sys2Proof.Machine
end

/-! The host's turns: the command, the read or the refusal that a turn is, what no sequencer step reads (the schedule and the
last word read), and how a window is cut in two. -/

section
namespace Sys2Proof

/-- The input is no access that a model refuses (R49, R50). -/
def Input.wellFormed (x : Input) : Bool :=
  match x with
  | .access a => a.wellFormed
  | .rst => true
  | .quiet => true

end Sys2Proof

namespace Sys2Proof.Machine

/-! ## What no sequencer step reads -/

/-- The state with other values of the host's side: the turns still to come, the window, and the last word read (log entries 1
and 4). -/
def State.mapHostSide (turns : List Turn → List Turn) (win : Nat → Nat) (word : Word → Word) (s : State) : State :=
  { s with host := turns s.host, window := win s.window, rdata := word s.rdata }

section
variable (turns : List Turn → List Turn) (win : Nat → Nat) (word : Word → Word)

theorem opFault_mapHostSide (op : MicroOp) (s : State) : opFault op (s.mapHostSide turns win word) = opFault op s := by
  rcases op with _ | ⟨_ | _, _⟩ | _ | _ | _ | _ | _ <;> rfl

theorem opBit_mapHostSide (op : MicroOp) (s : State) : opBit op (s.mapHostSide turns win word) = opBit op s := by
  cases op <;> rfl

theorem applyOp_mapHostSide (op : MicroOp) (s : State) :
    applyOp op (s.mapHostSide turns win word) = (applyOp op s).mapHostSide turns win word := by
  rcases op with ⟨_ | _, _⟩ | ⟨_ | _, _⟩ | _ | _ | _ | _ | ⟨_ | _ | _ | _⟩ <;> rfl

theorem effect_mapHostSide (i : MicroInstr) (s : State) :
    effect i (s.mapHostSide turns win word) = (effect i s).mapHostSide turns win word := by
  have hpost : ∀ p b (u : State), (applyPost p b [] (u.mapHostSide turns win word)).1
      = (applyPost p b [] u).1.mapHostSide turns win word := fun p _ _ => by cases p <;> rfl
  rw [effect, opBit_mapHostSide, applyOp_mapHostSide]
  exact hpost i.post _ (count i.op _ (applyOp i.op s))

theorem flowOf_mapHostSide (i : MicroInstr) (r : List MicroInstr) (s : State) :
    flowOf i r (s.mapHostSide turns win word) = flowOf i r s := by
  have hpost : ∀ p b (u : State), (applyPost p b r (u.mapHostSide turns win word)).2
      = (applyPost p b r u).2 := fun p _ _ => by cases p <;> rfl
  rw [flowOf, opBit_mapHostSide, applyOp_mapHostSide]
  exact hpost i.post _ (count i.op _ (applyOp i.op s))

/-- A step neither reads nor writes the host's side. -/
theorem advance_mapHostSide (i : MicroInstr) (r : List MicroInstr) (s : State) :
    advance i r (s.mapHostSide turns win word) = (advance i r s).mapHostSide turns win word := by
  rw [advance_eq_conclude, advance_eq_conclude, effect_mapHostSide, flowOf_mapHostSide]
  rcases flowOf i r s with (_ | ⟨j, q⟩) | e <;> rfl

theorem microStep_mapHostSide (s : State) :
    microStep (s.mapHostSide turns win word) = mapNext (State.mapHostSide turns win word) (microStep s) := by
  have hrest : (s.mapHostSide turns win word).rest = s.rest := rfl
  unfold microStep
  rw [hrest]
  rcases s.rest with _ | ⟨i, r⟩
  · rfl
  · dsimp only
    rw [opFault_mapHostSide, advance_mapHostSide]
    rcases opFault i.op s with _ | f <;> rfl

theorem runSeq_mapHostSide (n : Nat) (s : State) :
    runSeq n (s.mapHostSide turns win word) = mapNext (State.mapHostSide turns win word) (runSeq n s) := by
  induction n generalizing s with
  | zero => rfl
  | succ n ih =>
    by_cases hb : s.busy = true
    · rw [runSeq_busy n hb, runSeq_busy n (s := s.mapHostSide turns win word) hb, microStep_mapHostSide]
      rcases microStep s with u | f | z
      · exact ih u
      · rfl
      · rfl
    · have hb' := Bool.eq_false_iff.2 hb
      rw [runSeq_idle _ hb', runSeq_idle (s := s.mapHostSide turns win word) _ hb']
      rfl

end

/-! ## Turns that nothing comes of -/

/-- A turn other than hardware reset stops on an illegal code (R97, log entry 14). -/
theorem step_of_codeFault {s : State} {f : Fault} {x : Input} {n : Nat} {ts : List Turn} (hf : codeFault s = some f)
    (hh : s.host = ⟨x, n⟩ :: ts) (hx : x ≠ .rst) : step s = .fault f := by
  rcases step_cases s with ⟨k, us, hr, -⟩ | ⟨a, k, us, y, -, -, hs⟩ | ⟨k, u, -, hs⟩
  · rw [hh] at hr
    cases hr
    exact absurd rfl hx
  · rw [hs, guarded, hf]
  · rw [hs, guarded, hf]

theorem codeFault_of_not_legalCodes {s : State} (h : ¬ s.legalCodes) : ∃ f, codeFault s = some f :=
  Option.ne_none_iff_exists'.1 fun hn => h ((codeFault_eq_none_iff s).1 hn)

theorem commandWord_malformed {a : HostAccess} (ha : a.wellFormed = false) : commandWord (.access a) = none := by
  cases a with
  | read width off => rfl
  | write width off v =>
    refine if_neg fun ⟨hw, hoff, _⟩ => ?_
    simp [HostAccess.wellFormed, HostAccess.fullWord, HostAccess.aligned, HostAccess.off, hw, hoff] at ha

/-- A malformed access is looked at for its width first (log entry 15). -/
theorem step_malformed {s : State} {a : HostAccess} {n : Nat} {ts : List Turn} (hl : s.legalCodes)
    (hh : s.host = ⟨.access a, n⟩ :: ts) (ha : a.wellFormed = false) :
    step s = .refused (if a.fullWord = false then .accessWidth else .misalignedAccess) := by
  rw [step_other hh (commandWord_malformed ha), otherTurn, guarded_of_legal (s := takeTurn _ ts s) hl.1 hl.2]
  unfold accessStep
  rcases hw : a.fullWord with _ | _
  · rfl
  · rw [HostAccess.wellFormed, hw, Bool.true_and] at ha
    rw [if_neg (by decide), if_pos ha, if_neg (by decide)]

/-- Settles O10: an access of a wrong width or off a word boundary is malformed. -/
theorem malformedAccessesAreRefused : Obligations.MalformedAccessesAreRefused := by
  intro s a n ts hl hh
  refine ⟨fun hw => ?_, fun hw hoff => ?_⟩
  · rw [step_malformed hl hh (by rw [HostAccess.wellFormed, hw, Bool.false_and]), if_pos hw]
  · have ha : a.aligned = false := beq_eq_false_iff_ne.2 hoff
    rw [step_malformed hl hh (by rw [HostAccess.wellFormed, ha, Bool.and_false]), hw]
    rfl

/-! ## Reads -/

/-- A turn in which the host does nothing. -/
theorem step_quiet {s : State} {n : Nat} {ts : List Turn} (hl : s.legalCodes) (hh : s.host = ⟨.quiet, n⟩ :: ts) :
    step s = runSeq n { s with host := ts, window := n } := by
  rw [step_other hh rfl, otherTurn, guarded_of_legal (s := takeTurn _ ts s) hl.1 hl.2]
  rfl

/-- Settles O6: `hostRead` at each offset; the two halves of a 64-bit result make it up again. -/
theorem readsReturnTheMappedRegisters : Obligations.ReadsReturnTheMappedRegisters := by
  have hhalves : ∀ x : Wide, x.extractLsb' 32 32 ++ x.extractLsb' 0 32 = x := fun x =>
    BitVec.extractLsb'_append_extractLsb' (w := 32) (len := 32)
  exact fun s => ⟨rfl, rfl, rfl, rfl, rfl, rfl, rfl, rfl, hhalves s.rhC, hhalves s.rhNum, rfl, rfl, rfl, rfl⟩

/-- Settles O11: the read sets the word read before the sequencer takes its steps, and no step reads or writes it. -/
theorem readsHaveNoSideEffect : Obligations.ReadsHaveNoSideEffect := by
  intro s off n ts ha
  by_cases hl : s.legalCodes
  · have hread := step_read (s := { s with host := ⟨.access (readAt off), n⟩ :: ts }) hl rfl ha
    have hquiet := step_quiet (s := { s with host := ⟨.quiet, n⟩ :: ts }) hl rfl
    rw [hread, hquiet]
    exact runSeq_mapHostSide id id (fun _ => hostRead off s) n { s with host := ts, window := n }
  · obtain ⟨f, hf⟩ := codeFault_of_not_legalCodes hl
    rw [step_of_codeFault (s := { s with host := ⟨.quiet, n⟩ :: ts }) hf rfl (by simp)]
    exact step_of_codeFault hf rfl (by simp)

/-! ## Commands -/

/-- Settles O4: the write presents the word to CMD. -/
theorem stepRunsTheDecodedCommand : Obligations.StepRunsTheDecodedCommand :=
  fun _ _ _ _ _ hh hd => step_command hh rfl hd

/-- A row of the opcode table decodes as its word does. -/
theorem decode_of_decodeTableWord {nbits w : Nat} {i : Instr} (h : decodeTableWord nbits w = some i) :
    decode (BitVec.ofNat 32 (w % 2 ^ nbits)) = .ok i := by
  unfold decodeTableWord at h
  split_ifs at h
  rcases hd : decode (BitVec.ofNat 32 (w % 2 ^ nbits)) with e | j
  · rw [hd] at h
    cases h
  · rw [hd] at h
    cases h
    rfl

/-- Settles O5: the turn that `withFetchWord` puts in front presents the word to CMD. -/
theorem fetchWordRunsNext : Obligations.FetchWordRunsNext :=
  fun _ _ _ _ h => step_command rfl rfl (decode_of_decodeTableWord h)

/-! ## Legal codes -/

theorem effect_legalCodes (i : MicroInstr) {s : State} (h : s.legalCodes) : (effect i s).legalCodes := by
  obtain ⟨hl, -, he, -, -⟩ := effect_control i s
  have hlife : ∀ (p : Post) (l : LifeCode), l ≠ 3#2 → lifeAfter p l ≠ 3#2 := fun p l hl => by
    cases p with
    | lifeReady | lifeClosed => simp [lifeAfter, lifeReady, lifeClosed]
    | _ => exact hl
  exact ⟨hl ▸ hlife i.post s.life h.1, he ▸ h.2⟩

/-- The sequencer writes no illegal code. -/
theorem runSeq_legalCodes {n : Nat} {s t : State} (h : s.legalCodes) (ht : runSeq n s = .next t) : t.legalCodes := by
  refine runSeq_induct (P := State.legalCodes) (fun u v hu _ hm => ?_) n h ht
  obtain ⟨i, r, -, -, rfl⟩ := (microStep_next_iff u v).1 hm
  have heff := effect_legalCodes i hu
  rcases advance_cases i r u with ⟨e, he, -, ha⟩ | ⟨-, ha⟩
  · rw [ha]
    exact ⟨heff.1, he⟩
  · rw [ha]
    exact heff

theorem entered_legalCodes {s u : State} (h : s.legalCodes) (hu : Entered s u) : u.legalCodes := by
  cases hu with
  | quiet | read v | rejected hb => exact h
  | write off v => rcases hostWrite_cases off v s with hw | hw | hw <;> rw [hw] <;> exact h
  | atOnce v e hb he => exact ⟨h.1, he⟩
  | started i hb hr =>
    rw [startOf_eq]
    exact ⟨h.1, Nat.zero_le 5⟩

/-! ## What a turn does before the sequencer takes its steps -/

/-- What a well-formed input does before the sequencer takes the steps of its window; `step_enter` ties it to `step`. -/
def enter (x : Input) (s : State) : State :=
  match commandWord x with
  | some v =>
    match decode v with
    | .ok i => present i i.firstStage (prepareFor i) (routineOf i) s
    | .error _ => presentIllegal v s
  | none =>
    match x with
    | .access (.read _ off) => { s with rdata := hostRead off s }
    | .access (.write _ off v) => hostWrite off v s
    | .rst => hardReset s
    | .quiet => s

theorem enter_command {x : Input} {v : Word} {i : Instr} (hc : commandWord x = some v) (hd : decode v = .ok i) (s : State) :
    enter x s = present i i.firstStage (prepareFor i) (routineOf i) s := by
  simp only [enter, hc, hd]

theorem enter_illegal {x : Input} {v : Word} {e : Illegal} (hc : commandWord x = some v) (hd : decode v = .error e)
    (s : State) : enter x s = presentIllegal v s := by
  simp only [enter, hc, hd]

theorem enter_write {width : Nat} {off : Offset} {v : Word} (hc : commandWord (.access (.write width off v)) = none)
    (s : State) : enter (.access (.write width off v)) s = hostWrite off v s := by
  simp only [enter, hc]

/-- A turn is what its input does, and then the sequencer steps of its window. Hardware reset looks at no code. -/
theorem step_enter {s : State} {x : Input} {n : Nat} {ts : List Turn} (hh : s.host = ⟨x, n⟩ :: ts)
    (hx : x.wellFormed = true) (hl : x = .rst ∨ s.legalCodes) :
    step s = runSeq n (enter x { s with host := ts, window := n }) := by
  rcases hl with rfl | ⟨h1, h2⟩
  · exact (step_other hh rfl).trans (runSeq_idle n rfl).symm
  have hg := fun k => guarded_of_legal (s := takeTurn ⟨x, n⟩ ts s) (k := k) h1 h2
  rcases hc : commandWord x with _ | v
  · rw [step_other hh hc]
    cases x with
    | rst => exact (runSeq_idle n rfl).symm
    | quiet => exact hg _
    | access a =>
      cases a with
      | read width off => exact (hg _).trans (accessStep_read hx _)
      | write width off v => exact (hg _).trans ((accessStep_write hx _).trans (congrArg (runSeq n) (enter_write hc _).symm))
  · rcases hd : decode v with e | i
    · rw [step_illegal hh hc hd, enter_illegal hc hd]
      exact hg _
    · rw [step_command hh hc hd, enter_command hc hd, exec_eq]
      exact hg _

theorem hardReset_legalCodes (s : State) : (hardReset s).legalCodes :=
  ⟨(by decide : lifeUninit ≠ 3#2), Nat.zero_le 5⟩

theorem enter_legalCodes {x : Input} {s : State} (hl : x = .rst ∨ s.legalCodes) : (enter x s).legalCodes := by
  rcases hl with rfl | hl
  · exact hardReset_legalCodes s
  rcases hc : commandWord x with _ | v
  · cases x with
    | rst => exact hardReset_legalCodes s
    | quiet => exact hl
    | access a =>
      cases a with
      | read width off => exact hl
      | write width off v => exact enter_write hc s ▸ entered_legalCodes hl (.write off v)
  · rcases hd : decode v with e | i
    · exact enter_illegal hc hd s ▸ entered_legalCodes hl (presentIllegal_entered v s)
    · exact enter_command hc hd s ▸ entered_legalCodes hl (present_entered i s)

/-! ## Windows -/

/-- The state with another schedule. -/
def State.withSchedule (s : State) (ts : List Turn) (n : Nat) : State := { s with host := ts, window := n }

section
variable (ts : List Turn) (n : Nat)

theorem runSeq_withSchedule (k : Nat) (s : State) :
    runSeq k (s.withSchedule ts n) = mapNext (fun t => t.withSchedule ts n) (runSeq k s) :=
  runSeq_mapHostSide (fun _ => ts) (fun _ => n) id k s

theorem startOf_withSchedule (i : Instr) (s : State) :
    startOf i (s.withSchedule ts n) = (startOf i s).withSchedule ts n := by
  cases i <;> rfl

theorem present_withSchedule (i : Instr) (s : State) :
    present i i.firstStage (prepareFor i) (routineOf i) (s.withSchedule ts n)
      = (present i i.firstStage (prepareFor i) (routineOf i) s).withSchedule ts n := by
  have hb : (s.withSchedule ts n).busy = s.busy := rfl
  have hl : (s.withSchedule ts n).life = s.life := rfl
  unfold present accept
  rw [hb, hl]
  split_ifs
  · rfl
  · rcases lifecycleGate i s.life
    · exact startOf_withSchedule ts n i s
    · rfl
    · rfl

theorem presentIllegal_withSchedule (v : Word) (s : State) :
    presentIllegal v (s.withSchedule ts n) = (presentIllegal v s).withSchedule ts n := by
  have hb : (s.withSchedule ts n).busy = s.busy := rfl
  unfold presentIllegal
  rw [hb]
  split_ifs <;> rfl

theorem hostWrite_withSchedule (off : Offset) (v : Word) (s : State) :
    hostWrite off v (s.withSchedule ts n) = (hostWrite off v s).withSchedule ts n := by
  unfold hostWrite
  split <;> rfl

/-- What an input does depends on no later turn. -/
theorem enter_withSchedule (x : Input) (s : State) : enter x (s.withSchedule ts n) = (enter x s).withSchedule ts n := by
  rcases hc : commandWord x with _ | v
  · cases x with
    | rst | quiet => rfl
    | access a =>
      cases a with
      | read width off => rfl
      | write width off v => rw [enter_write hc, enter_write hc, hostWrite_withSchedule]
  · rcases hd : decode v with e | i
    · rw [enter_illegal hc hd, enter_illegal hc hd, presentIllegal_withSchedule]
    · rw [enter_command hc hd, enter_command hc hd, present_withSchedule]

end

/-- A run of m + n steps is one of m, and then a quiet turn with n. -/
theorem runSeq_then_quietTurn {u : State} (hu : u.legalCodes) (m n : Nat) (ts : List Turn) :
    andThen (runSeq m (u.withSchedule (⟨.quiet, n⟩ :: ts) m)) step = runSeq (m + n) (u.withSchedule ts n) := by
  rw [runSeq_withSchedule, runSeq_withSchedule, runSeq_add]
  rcases hm : runSeq m u with t | f | y
  · have ht : t.legalCodes := runSeq_legalCodes hu hm
    exact (step_quiet (s := t.withSchedule (⟨.quiet, n⟩ :: ts) m) ht rfl).trans (runSeq_withSchedule ts n n t)
  · rfl
  · rfl

/-- A turn that stops, on an illegal code or as a malformed access, stops whatever its window is. -/
theorem step_stops {s : State} {x : Input} (h : ¬(x.wellFormed = true ∧ (x = .rst ∨ s.legalCodes))) :
    (∃ f, ∀ n ts, step { s with host := ⟨x, n⟩ :: ts } = .fault f)
      ∨ ∃ y, ∀ n ts, step { s with host := ⟨x, n⟩ :: ts } = .refused y := by
  cases x with
  | rst => exact absurd ⟨rfl, .inl rfl⟩ h
  | quiet =>
    obtain ⟨f, hf⟩ := codeFault_of_not_legalCodes fun hl => h ⟨rfl, .inr hl⟩
    exact .inl ⟨f, fun n ts => step_of_codeFault hf rfl (by simp)⟩
  | access a =>
    by_cases hl : s.legalCodes
    · have ha : a.wellFormed = false := Bool.eq_false_iff.2 fun ha => h ⟨ha, .inr hl⟩
      exact .inr ⟨_, fun n ts => step_malformed hl rfl ha⟩
    · obtain ⟨f, hf⟩ := codeFault_of_not_legalCodes hl
      exact .inl ⟨f, fun n ts => step_of_codeFault hf rfl (by simp)⟩

/-- Settles O55: a turn that stops does so whatever its window is, and the run of any other can be cut in two. -/
theorem windowsCompose : Obligations.WindowsCompose := by
  intro s x m n ts
  by_cases h : x.wellFormed = true ∧ (x = .rst ∨ s.legalCodes)
  · obtain ⟨hx, hl⟩ := h
    have hturn : ∀ k us, step { s with host := ⟨x, k⟩ :: us } = runSeq k ((enter x s).withSchedule us k) := fun k us => by
      rw [← enter_withSchedule]
      exact step_enter rfl hx hl
    rw [hturn, hturn, runSeq_then_quietTurn (enter_legalCodes hl), runSeq_withSchedule, runSeq_withSchedule]
    rcases runSeq (m + n) (enter x s) with t | f | y <;> rfl
  · rcases step_stops h with ⟨f, hf⟩ | ⟨y, hy⟩
    · rw [hf, hf]
      rfl
    · rw [hy, hy]
      rfl

end Sys2Proof.Machine
end

/-! What ENG_SEND puts on the wire. -/

section
namespace Sys2Proof.Machine

/-- ENG_SEND sends the code it has latched (R66, R107). -/
theorem wireCode_preparedFor_engSend (c : Code) (s : State) : wireCode (preparedFor (.engSend c) s) = c :=
  (BitVec.extractLsb'_setWidth_of_le (by decide)).trans BitVec.extractLsb'_eq_self

/-- ENG_SEND runs SEND_CMD, whose handshake decides the code it completes with (R105, R107). -/
theorem exec_engSend_ready (c : Code) {s : State} (hi : s.idleFor 60) (hl : s.life = lifeReady) :
    exec (.engSend c) s = .next (complete (if s.drawAt 0 || !s.drawAt 1 then errHandshake else errNone)
      (afterSend c (startOf (.engSend c) s))) := by
  obtain ⟨h1, h2, hb, hw⟩ := hi
  have hrest : (startOf (.engSend c) s).rest = sendCmd c ++ [] := by
    rw [List.append_nil]
    exact congrArg sendCmd (wireCode_preparedFor_engSend c s)
  have hdraw : ∀ k, (startOf (.engSend c) s).drawAt k = s.drawAt k := fun _ => rfl
  rw [exec_runs h1 h2 hb (by rw [hl]; rfl), ← Nat.sub_add_cancel hw, run_sendCmd _ rfl hrest, hdraw, hdraw]
  split_ifs <;> exact runSeq_idle _ rfl

/-- SEND_CMD's eleven rising edges (R106): two of the transmission start, one for each bit, and one that asks for the
acknowledgement. -/
theorem dataAtEdges_wireSend (d : Bool) (c : Code) (a1 a2 : Bool) :
    dataAtEdges d (wireSend c a1 a2)
      = [true, false, c.getLsbD 7, c.getLsbD 6, c.getLsbD 5, c.getLsbD 4, c.getLsbD 3, c.getLsbD 2, c.getLsbD 1, c.getLsbD 0,
          c.getLsbD 0] := rfl

/-- Settles O24: the wire trace of ENG_SEND is that of SEND_CMD, and its edges are `dataAtEdges_wireSend`. -/
theorem codeGoesOutMostSignificantBitFirst : Obligations.CodeGoesOutMostSignificantBitFirst := by
  intro c s hi hl
  refine ⟨_, exec_engSend_ready c hi hl, ?_⟩
  have htrace : (startOf (.engSend c) s).trace = [] := rfl
  rw [State.wireTrace, complete_trace, afterSend, htrace, List.append_nil, List.reverse_reverse]
  exact dataAtEdges_wireSend _ _ _ _

end Sys2Proof.Machine
end

/-! The command word: a command is its opcode and its ARG8, a word is its four fields, `decode` reads them and `encode` writes
them, so the two are inverse (R65, R68, R70). -/

section
namespace Sys2Proof

/-! ## A command is its opcode and its ARG8 -/

theorem decodeOp_opcode (i : Instr) : decodeOp i.opcode.toNat i.arg8 = .ok i := by
  cases i <;> rfl

theorem decodeOp_eq_ok {n : Nat} {a : Code} {i : Instr} (h : decodeOp n a = .ok i) :
    n = i.opcode.toNat ∧ a = i.arg8 := by
  unfold decodeOp at h
  split at h <;> cases h <;> exact ⟨rfl, rfl⟩

/-- Two commands of one opcode and one ARG8 are the same. -/
theorem Instr.eq_of_fields {i j : Instr} (ho : i.opcode = j.opcode) (ha : i.arg8 = j.arg8) : i = j := by
  have h := decodeOp_opcode i
  rw [ho, ha, decodeOp_opcode j] at h
  exact (Except.ok.inj h).symm

/-- The command with another ARG8. -/
def Instr.withArg8 (i : Instr) (a : Code) : Instr :=
  match i with
  | .openCmd _ => .openCmd a
  | .closeCmd _ => .closeCmd a
  | .resetCmd _ => .resetCmd a
  | .readT _ => .readT a
  | .readRH _ => .readRH a
  | .readTRH _ => .readTRH a
  | .engSend _ => .engSend a
  | .engWait _ => .engWait a
  | .engGet16 _ => .engGet16 a
  | .engSkipCrc _ => .engSkipCrc a
  | .calT _ => .calT a
  | .calRH _ => .calRH a

@[simp] theorem Instr.withArg8_opcode (i : Instr) (a : Code) : (i.withArg8 a).opcode = i.opcode := by
  cases i <;> rfl

@[simp] theorem Instr.withArg8_arg8 (i : Instr) (a : Code) : (i.withArg8 a).arg8 = a := by
  cases i <;> rfl

/-- Commands of one opcode differ in ARG8 only. -/
theorem Instr.eq_withArg8 {i j : Instr} (h : i.opcode = j.opcode) : j = i.withArg8 j.arg8 :=
  Instr.eq_of_fields (h.symm.trans (i.withArg8_opcode _).symm) (i.withArg8_arg8 _).symm

/-- The assigned opcodes (R67). -/
theorem exists_opcode_iff (o : BitVec 4) :
    (∃ i : Instr, i.opcode = o) ↔ o ∈ [1#4, 2#4, 3#4, 4#4, 5#4, 6#4, 8#4, 9#4, 10#4, 11#4, 12#4, 13#4] := by
  constructor
  · rintro ⟨i, rfl⟩
    cases i <;> simp [Instr.opcode]
  · intro h
    have hread : ∃ i, decodeOp o.toNat 0#8 = .ok i := by
      simp only [List.mem_cons, List.not_mem_nil, or_false] at h
      rcases h with rfl | rfl | rfl | rfl | rfl | rfl | rfl | rfl | rfl | rfl | rfl | rfl <;> exact ⟨_, rfl⟩
    obtain ⟨i, hi⟩ := hread
    exact ⟨i, (BitVec.eq_of_toNat_eq (decodeOp_eq_ok hi).1).symm⟩

/-! ## A word is its four fields -/

/-- From high to low: RSV1, ARG8, RSV0, OP (R65). -/
theorem word_eq_fields (v : Word) : v = fieldRsv1 v ++ fieldArg8 v ++ fieldRsv0 v ++ fieldOp v := by
  have hjoin : ∀ {lo len len' : Nat}, v.extractLsb' (lo + len) len' ++ v.extractLsb' lo len = v.extractLsb' lo (len' + len) :=
    BitVec.extractLsb'_append_extractLsb'_eq_extractLsb' rfl
  have hhigh : fieldRsv1 v ++ fieldArg8 v = v.extractLsb' 8 24 := hjoin
  have hmid : v.extractLsb' 8 24 ++ fieldRsv0 v = v.extractLsb' 4 28 := hjoin
  have hall : v.extractLsb' 4 28 ++ fieldOp v = v.extractLsb' 0 32 := hjoin
  rw [hhigh, hmid, hall]
  exact BitVec.extractLsb'_eq_self.symm

/-- The word of a command is legal (R68), whichever it is. -/
theorem encode_legal (i : Instr) : Laws.LegalWord.Statement i := Laws.LegalWord.fields i.opcode i.arg8

/-- A command's word is the one with the reserved fields zero and the command's OP and ARG8. -/
theorem encode_eq_iff {i : Instr} {v : Word} :
    encode i = v ↔ fieldRsv1 v = 0#16 ∧ fieldRsv0 v = 0#4 ∧ fieldOp v = i.opcode ∧ fieldArg8 v = i.arg8 := by
  constructor
  · rintro rfl
    obtain ⟨h0, h1, ho, ha, -⟩ := encode_legal i
    exact ⟨h1, h0, ho, ha⟩
  · rintro ⟨h1, h0, ho, ha⟩
    rw [word_eq_fields v, h1, h0, ho, ha]
    rfl

/-- `decode` answers the command whose fields the word has. -/
theorem decode_eq_ok_iff {v : Word} {i : Instr} :
    decode v = .ok i ↔ fieldRsv1 v = 0#16 ∧ fieldRsv0 v = 0#4 ∧ fieldOp v = i.opcode ∧ fieldArg8 v = i.arg8 := by
  unfold decode
  split_ifs with h
  · simp only [false_iff]
    exact fun ⟨h1, h0, _⟩ => h.elim (· h1) (· h0)
  · simp only [not_or, not_not] at h
    constructor
    · intro hd
      obtain ⟨ho, ha⟩ := decodeOp_eq_ok hd
      exact ⟨h.1, h.2, BitVec.eq_of_toNat_eq ho, ha⟩
    · rintro ⟨-, -, ho, ha⟩
      rw [ho, ha, decodeOp_opcode]

/-- A word decodes to a command exactly when it is the command's word. -/
theorem decode_eq_ok_iff_encode_eq {v : Word} {i : Instr} : decode v = .ok i ↔ encode i = v :=
  decode_eq_ok_iff.trans encode_eq_iff.symm

/-- Settles O2: both directions are `decode_eq_ok_iff_encode_eq`. -/
theorem decodeAndEncodeAgree : Obligations.DecodeAndEncodeAgree :=
  ⟨fun _ _ => decode_eq_ok_iff_encode_eq.2 rfl, fun _ _ => decode_eq_ok_iff_encode_eq.1⟩

/-- Settles O1: each word is the word of its command. -/
theorem writtenWordsDecode : Obligations.WrittenWordsDecode := by
  unfold Obligations.WrittenWordsDecode
  simp only [decode_eq_ok_iff_encode_eq]
  decide

/-! ## Which words are legal -/

/-- A word decodes to a command of i's opcode exactly when its reserved fields are zero and its OP is that opcode. -/
theorem exists_decode_opcode_iff (i : Instr) (v : Word) :
    (∃ j, decode v = .ok j ∧ j.opcode = i.opcode) ↔ fieldRsv1 v = 0#16 ∧ fieldRsv0 v = 0#4 ∧ fieldOp v = i.opcode := by
  simp only [decode_eq_ok_iff]
  constructor
  · rintro ⟨j, ⟨h1, h0, ho, -⟩, hj⟩
    exact ⟨h1, h0, ho.trans hj⟩
  · rintro ⟨h1, h0, ho⟩
    exact ⟨i.withArg8 (fieldArg8 v), ⟨h1, h0, ho.trans (i.withArg8_opcode _).symm, (i.withArg8_arg8 _).symm⟩,
      i.withArg8_opcode _⟩

/-- A word decodes exactly when its reserved fields are zero and its OP is assigned (R68). -/
theorem exists_decode_iff (v : Word) :
    (∃ i, decode v = .ok i) ↔ fieldRsv1 v = 0#16 ∧ fieldRsv0 v = 0#4 ∧ ∃ i : Instr, i.opcode = fieldOp v := by
  constructor
  · rintro ⟨i, hi⟩
    obtain ⟨h1, h0, ho⟩ := (exists_decode_opcode_iff i v).1 ⟨i, hi, rfl⟩
    exact ⟨h1, h0, i, ho.symm⟩
  · rintro ⟨h1, h0, i, ho⟩
    obtain ⟨j, hj, -⟩ := (exists_decode_opcode_iff i v).2 ⟨h1, h0, ho.symm⟩
    exact ⟨j, hj⟩

/-- The mask of R68 keeps every field but ARG8. -/
theorem fields_masked (v : Word) :
    fieldRsv1 (v &&& 0xFFFF00FF#32) = fieldRsv1 v ∧ fieldRsv0 (v &&& 0xFFFF00FF#32) = fieldRsv0 v
      ∧ fieldOp (v &&& 0xFFFF00FF#32) = fieldOp v := by
  have hkeep : ∀ lo len, (0xFFFF00FF#32).extractLsb' lo len = BitVec.allOnes len →
      (v &&& 0xFFFF00FF#32).extractLsb' lo len = v.extractLsb' lo len := fun lo len h => by
    rw [BitVec.extractLsb'_and, h, BitVec.and_allOnes]
  exact ⟨hkeep 16 16 (by decide), hkeep 4 4 (by decide), hkeep 0 4 (by decide)⟩

theorem fields_opcode (o : BitVec 4) :
    fieldRsv1 (o.setWidth 32) = 0#16 ∧ fieldRsv0 (o.setWidth 32) = 0#4 ∧ fieldOp (o.setWidth 32) = o := by
  revert o
  decide

/-- The match of R68: what the mask keeps is an opcode alone. -/
theorem masked_eq_opcode_iff (v : Word) (o : BitVec 4) :
    v &&& 0xFFFF00FF#32 = o.setWidth 32 ↔ fieldRsv1 v = 0#16 ∧ fieldRsv0 v = 0#4 ∧ fieldOp v = o := by
  constructor
  · intro h
    obtain ⟨h1, h0, ho⟩ := fields_masked v
    rw [← h1, ← h0, ← ho, h]
    exact fields_opcode o
  · rintro ⟨h1, h0, ho⟩
    obtain ⟨-, -, -, -, hmask⟩ := Laws.LegalWord.fields o (fieldArg8 v)
    rw [word_eq_fields v, h1, h0, ho]
    exact hmask

theorem encode_engSend (c : Code) : encode (.engSend c) = 0x00000008#32 ||| c.setWidth 32 <<< 8 := by
  revert c
  decide

/-- Settles O3: legality and the mask by the fields, and the one command of an opcode and an ARG8 is `Instr.withArg8`. -/
theorem legalWordsAreExactlyThose : Obligations.LegalWordsAreExactlyThose := by
  refine ⟨fun v => ?_, fun _ => rfl, fun i v => (masked_eq_opcode_iff v _).trans (exists_decode_opcode_iff i v).symm,
    fun i a => ⟨i.withArg8 a, i.withArg8_opcode a, i.withArg8_arg8 a, fun k ho ha => ?_⟩, encode_engSend⟩
  · rw [exists_decode_iff, exists_opcode_iff]
    rfl
  · rw [Instr.eq_withArg8 ho.symm, ha]

end Sys2Proof
end

/-! The command's own word, which the sequencer never reads: two words of one opcode run alike, unless it is ENG_SEND's (R66,
R68). -/

section
namespace Sys2Proof.Machine

/-! ## Changes that no sequencer step sees -/

/-- The change `f` of the state leaves what a sequencer step reads as it is, and every step keeps the change. -/
structure SequencerBlind (f : State → State) : Prop where
  busy (s : State) : (f s).busy = s.busy
  rest (s : State) : (f s).rest = s.rest
  fault (op : MicroOp) (s : State) : opFault op (f s) = opFault op s
  advance (i : MicroInstr) (r : List MicroInstr) (s : State) : advance i r (f s) = f (advance i r s)

theorem SequencerBlind.microStep_comm {f : State → State} (h : SequencerBlind f) (s : State) :
    microStep (f s) = mapNext f (microStep s) := by
  unfold microStep
  rw [h.rest]
  rcases s.rest with _ | ⟨i, r⟩
  · rfl
  · dsimp only
    rw [h.fault, h.advance]
    rcases opFault i.op s with _ | x <;> rfl

/-- Any number of steps keeps the change. -/
theorem SequencerBlind.runSeq_comm {f : State → State} (h : SequencerBlind f) (n : Nat) (s : State) :
    runSeq n (f s) = mapNext f (runSeq n s) := by
  induction n generalizing s with
  | zero => rfl
  | succ n ih =>
    by_cases hb : s.busy = true
    · rw [runSeq_busy n hb, runSeq_busy n ((h.busy s).trans hb), h.microStep_comm]
      rcases microStep s with u | x | y
      · exact ih u
      · rfl
      · rfl
    · have hb' := Bool.eq_false_iff.2 hb
      rw [runSeq_idle _ hb', runSeq_idle _ ((h.busy s).trans hb')]
      rfl

/-! ## No sequencer step reads CMD_LAST or CUR -/

theorem opFault_forgetWord (op : MicroOp) (s : State) : opFault op s.forgetWord = opFault op s := by
  rcases op with _ | ⟨_ | _, _⟩ | _ | _ | _ | _ | _ <;> rfl

theorem opBit_forgetWord (op : MicroOp) (s : State) : opBit op s.forgetWord = opBit op s := by
  cases op <;> rfl

theorem applyOp_forgetWord (op : MicroOp) (s : State) : applyOp op s.forgetWord = (applyOp op s).forgetWord := by
  rcases op with ⟨_ | _, _⟩ | ⟨_ | _, _⟩ | _ | _ | _ | _ | ⟨_ | _ | _ | _⟩ <;> rfl

theorem applyPost_forgetWord (p : Post) (b : Bool) (r : List MicroInstr) (s : State) :
    applyPost p b r s.forgetWord = ((applyPost p b r s).1.forgetWord, (applyPost p b r s).2) := by
  cases p <;> rfl

theorem conclude_forgetWord (s : State) (f : Flow) : conclude (s.forgetWord, f) = (conclude (s, f)).forgetWord := by
  rcases f with (_ | ⟨i, q⟩) | e <;> rfl

theorem advance_forgetWord (i : MicroInstr) (r : List MicroInstr) (s : State) :
    advance i r s.forgetWord = (advance i r s).forgetWord := by
  have hcount : ∀ b (u : State), count i.op b u.forgetWord = (count i.op b u).forgetWord := fun _ _ => rfl
  rw [advance, opBit_forgetWord, applyOp_forgetWord, hcount, applyPost_forgetWord, conclude_forgetWord]
  rfl

theorem blind_forgetWord : SequencerBlind State.forgetWord where
  busy _ := rfl
  rest _ := rfl
  fault := opFault_forgetWord
  advance := advance_forgetWord

/-! ## Two commands that start alike end alike -/

/-- Presented to one state, commands with one gate that start alike but for their words leave the same but for them. -/
theorem present_forgetWord {i j : Instr} {s : State} (hg : lifecycleGate i s.life = lifecycleGate j s.life)
    (hs : (startOf i s).forgetWord = (startOf j s).forgetWord) :
    (present i i.firstStage (prepareFor i) (routineOf i) s).forgetWord
      = (present j j.firstStage (prepareFor j) (routineOf j) s).forgetWord := by
  unfold present accept
  rw [hg]
  split_ifs
  · rfl
  · rcases lifecycleGate j s.life
    · exact hs
    · rfl
    · rfl

/-- Then so do their runs, since no step reads the word. -/
theorem exec_forgetWord {i j : Instr} {s : State} (hg : lifecycleGate i s.life = lifecycleGate j s.life)
    (hs : (startOf i s).forgetWord = (startOf j s).forgetWord) :
    mapNext State.forgetWord (exec i s) = mapNext State.forgetWord (exec j s) := by
  rw [exec_eq, exec_eq, command, command, mapNext_guarded, mapNext_guarded]
  simp only [← blind_forgetWord.runSeq_comm]
  exact congrArg (fun u => guarded s fun _ => runSeq s.window u) (present_forgetWord hg hs)

theorem lifecycleGate_withArg8 (i : Instr) (a : Code) (l : LifeCode) :
    lifecycleGate (i.withArg8 a) l = lifecycleGate i l := by
  cases i <;> rfl

/-- Acceptance of a command other than ENG_SEND reads no ARG8, but to keep the word (R66, R81). -/
theorem startOf_withArg8 {i : Instr} (h : i.opcode ≠ 0x8#4) (a : Code) (s : State) :
    (startOf (i.withArg8 a) s).forgetWord = (startOf i s).forgetWord := by
  cases i with
  | engSend c => exact absurd rfl h
  | _ => rfl

/-- Settles O46: two commands of one opcode differ in ARG8 only. -/
theorem onlyEngSendReadsArg8 : Obligations.OnlyEngSendReadsArg8 := by
  intro i j s ho h
  rw [Instr.eq_withArg8 ho]
  exact exec_forgetWord (lifecycleGate_withArg8 i _ _).symm (startOf_withArg8 h _ s).symm

end Sys2Proof.Machine
end

/-! The engine commands one after the other, against READ_T (R74, R120, R142). -/

section
namespace Sys2Proof.Machine

/-! ## The engine commands from READY, each with its whole next state -/

/-- A command whose routine decides nothing runs through (R83). -/
theorem exec_straight {i : Instr} {s : State} (hi : s.idleFor (startOf i s).rest.length) (hr : i.runsIn s.life = true)
    (hp : (startOf i s).rest.all (fun j => j.post.straight) = true)
    (he : enabledFrom (startOf i s).rest s.ddir s.cdir = true) :
    exec i s = .next (complete errNone (effects (startOf i s).rest (startOf i s))) := by
  obtain ⟨h1, h2, hb, hw⟩ := hi
  rw [exec_runs h1 h2 hb hr, ← Nat.sub_add_cancel hw]
  exact run_straight_end _ (startOf_rest_ne_nil i s) rfl rfl hp (by rw [startOf_eq]; exact he)

section
variable {s : State} (a : Code)

/-- ENG_WAIT whose k-th sample is the first low one (R109, R110). -/
theorem exec_engWait_readyAfter {k : Nat} (hi : s.idleFor (1 + 2 * k)) (hl : s.life = lifeReady) (h : s.readyAfter 0 k) :
    exec (.engWait a) s = .next (complete errNone (afterWait (s.drawList 0 k) (startOf (.engWait a) s))) := by
  obtain ⟨h1, h2, hb, hw⟩ := hi
  have hrun := run_waitReady (r := []) (s.window - (1 + 2 * k)) (s := startOf (.engWait a) s) rfl rfl h
  rw [exec_runs h1 h2 hb (by rw [hl]; rfl), ← Nat.sub_add_cancel hw, hrun, readyAfter_drawList h]
  exact runSeq_idle _ rfl

/-- ENG_GET16 (R115). -/
theorem exec_engGet16_ready (hi : s.idleFor 89) (hl : s.life = lifeReady) :
    exec (.engGet16 a) s = .next (complete errNone (effects getData16 (startOf (.engGet16 a) s))) :=
  exec_straight (i := .engGet16 a) hi (by rw [hl]; rfl) rfl rfl

/-- ENG_SKIPCRC (R117). -/
theorem exec_engSkipCrc_ready (hi : s.idleFor 7) (hl : s.life = lifeReady) :
    exec (.engSkipCrc a) s = .next (complete errNone (effects skipCrc (startOf (.engSkipCrc a) s))) :=
  exec_straight (i := .engSkipCrc a) hi (by rw [hl]; rfl) rfl rfl

/-! ## What the next command and an observer see of each -/

/-- `t` is what a command that completed with NONE left of `s`, as far as the next command and an observer see it: the lifecycle
and the window are as they were, it took `n` draws, its wire trace is `events`, and it cost `clk` cycles. -/
structure Performed (s t : State) (n : Nat) (events : List WireEvent) (clk : Nat) : Prop where
  life : t.life = s.life
  err : t.err = errNone
  busy : t.busy = false
  window : t.window = s.window
  draws : t.draws = s.draws.drop n
  drawCount : t.drawCount = s.drawCount + n
  wireTrace : t.wireTrace = events
  cycles : t.cycles = clk

theorem Performed.idleFor {t : State} {n m : Nat} {events : List WireEvent} {clk : Nat} (h : Performed s t n events clk)
    (hi : s.idleFor m) : t.idleFor m := by
  obtain ⟨h1, -, -, hw⟩ := hi
  exact ⟨h.life ▸ h1, by rw [h.err]; decide, h.busy, h.window ▸ hw⟩

theorem idleFor_mono {m n : Nat} (h : m ≤ n) (hi : s.idleFor n) : s.idleFor m := by
  obtain ⟨h1, h2, hb, hw⟩ := hi
  exact ⟨h1, h2, hb, h.trans hw⟩

/-- The trace is listed newest event first, and a command starts with none. -/
theorem wireTrace_of_trace {t : State} {events : List WireEvent} (h : t.trace = events.reverse ++ []) :
    t.wireTrace = events := by
  rw [State.wireTrace, h, List.append_nil, List.reverse_reverse]

theorem engSend_performed (c : Code) (hi : s.idleFor 60) (hl : s.life = lifeReady) (ha : s.acked 0) :
    ∃ t, exec (.engSend c) s = .next t
      ∧ Performed s t 2 (wireSend c (s.drawAt 0) (s.drawAt 1)) (38 + 22 * Config.settleCycles) := by
  have herr : (if s.drawAt 0 || !s.drawAt 1 then errHandshake else errNone) = errNone := by
    rw [ha.1, ha.2]
    rfl
  exact ⟨_, exec_engSend_ready c hi hl, rfl, herr, rfl, rfl, rfl, rfl, wireTrace_of_trace rfl, Nat.zero_add _⟩

theorem engWait_performed {k : Nat} (hi : s.idleFor (1 + 2 * k)) (hl : s.life = lifeReady) (h : s.readyAfter 0 k) :
    ∃ t, exec (.engWait a) s = .next t
      ∧ Performed s t k (wireWait (s.drawList 0 k)) (1 + k * (Config.pollCycles + 1)) := by
  refine ⟨_, exec_engWait_readyAfter a hi hl h, ?_⟩
  have hk := drawList_length s 0 k
  exact ⟨rfl, rfl, rfl, rfl, congrArg s.draws.drop hk, congrArg (s.drawCount + ·) hk, wireTrace_of_trace rfl,
    (Nat.zero_add _).trans (by rw [hk])⟩

theorem engGet16_performed (hi : s.idleFor 89) (hl : s.life = lifeReady) :
    ∃ t, exec (.engGet16 a) s = .next t ∧ t.data16 = s.drawnWord 0
      ∧ Performed s t 16 (wireGet (s.drawList 0 8) (s.drawList 8 8)) (55 + 34 * Config.settleCycles) := by
  refine ⟨_, exec_engGet16_ready a hi hl, ?_⟩
  rw [effects_getData16]
  exact ⟨rfl, rfl, rfl, rfl, rfl, rfl, rfl, wireTrace_of_trace rfl, Nat.zero_add _⟩

theorem engSkipCrc_performed (hi : s.idleFor 7) (hl : s.life = lifeReady) :
    ∃ t, exec (.engSkipCrc a) s = .next t ∧ t.data16 = s.data16
      ∧ Performed s t 0 wireSkip (5 + 2 * Config.settleCycles) := by
  refine ⟨_, exec_engSkipCrc_ready a hi hl, ?_⟩
  rw [effects_skipCrc]
  exact ⟨rfl, rfl, rfl, rfl, rfl, rfl, rfl, wireTrace_of_trace rfl, Nat.zero_add _⟩

theorem readT_performed {k : Nat} (hi : s.idleFor (158 + 2 * k)) (hl : s.life = lifeReady) (ha : s.acked 0)
    (h : s.readyAfter 2 k) :
    ∃ t, exec (.readT a) s = .next t ∧ t.data16 = s.drawnWord (k + 2)
      ∧ Performed s t (k + 18) (s.wireMeasure Config.cmdTemp 0 k) (cyclesMeasure k + Config.calCycles) := by
  refine ⟨_, exec_readT_succeeds a hi hl ha h, rfl, rfl, rfl, rfl, rfl, rfl, rfl, wireTrace_of_trace rfl, ?_⟩
  rw [complete_cycles, afterReadT_cycles]
  exact congrArg (· + Config.calCycles) (Nat.zero_add _)

end

/-- Settles O45: each command takes up the draws where the one before it left them, as the parts of MEASURE do. -/
theorem engineSequenceIsOneReadStage : Obligations.EngineSequenceIsOneReadStage := by
  intro a b c d s k hi hl ha h
  obtain ⟨t₁, he₁, h₁⟩ := engSend_performed 0x03#8 (idleFor_mono (by omega) hi) hl ha
  have hi₁ := h₁.idleFor hi
  have hl₁ := h₁.life.trans hl
  obtain ⟨t₂, he₂, h₂⟩ := engWait_performed a (idleFor_mono (by omega) hi₁) hl₁
    ((readyAfter_drop h₁.draws h₁.drawCount 0 k).2 h)
  have hi₂ := h₂.idleFor hi₁
  have hl₂ := h₂.life.trans hl₁
  have hd₂ : t₂.draws = s.draws.drop (2 + k) := by rw [h₂.draws, h₁.draws, List.drop_drop]
  have hc₂ : t₂.drawCount = s.drawCount + (2 + k) := by rw [h₂.drawCount, h₁.drawCount, Nat.add_assoc]
  obtain ⟨t₃, he₃, hw₃, h₃⟩ := engGet16_performed b (idleFor_mono (by omega) hi₂) hl₂
  obtain ⟨t₄, he₄, hw₄, h₄⟩ := engSkipCrc_performed c (idleFor_mono (by omega) (h₃.idleFor hi₂)) (h₃.life.trans hl₂)
  obtain ⟨u, he, hw, hu⟩ := readT_performed d hi hl ha h
  refine ⟨t₁, t₂, t₃, t₄, u, he₁, he₂, he₃, he₄, he, h₁.err, h₂.err, h₃.err, h₄.err, ?_, ?_, ?_⟩
  · rw [h₁.wireTrace, h₂.wireTrace, h₃.wireTrace, h₄.wireTrace, hu.wireTrace, drawList_drop h₁.draws h₁.drawCount,
      drawList_drop hd₂ hc₂, drawList_drop hd₂ hc₂, State.wireMeasure, Nat.add_right_comm 2 k 8, Nat.zero_add]
    rfl
  · rw [hw₄, hw₃, hw, drawnWord_drop hd₂ hc₂, Nat.add_comm k 2]
    rfl
  · rw [h₁.cycles, h₂.cycles, h₃.cycles, h₄.cycles, hu.cycles, cyclesMeasure]
    omega

end Sys2Proof.Machine
end

/-! The timing contract (R93, R119): along the run of a command the wire trace so far keeps it, and where the trace ends on an SCK
transition the next micro-operation is the settle delay. -/

section
namespace Sys2Proof.Machine

/-! ## The contract of a trace with one event more -/

/-- SCK's latch after a wire trace, oldest event first, where it was `cout` before it; `levelAfter_wireEvent` ties it to
`coutAfter`. -/
def levelAfter : Bool → List WireEvent → Bool
  | cout, [] => cout
  | _, .drv .sck v :: es => levelAfter v es
  | cout, _ :: es => levelAfter cout es

/-- A transition first: it changes the level, and the next event, if there is one yet, is a settle delay. -/
theorem timingKept_edge_iff {cout v : Bool} {es : List WireEvent} :
    timingKept cout (.drv .sck v :: es) = true
      ↔ v ≠ cout ∧ (∀ e, es.head? = some e → e = .settle) ∧ timingKept v es = true := by
  rcases es with _ | ⟨e, es⟩
  · simp [timingKept]
  · cases e <;> simp [timingKept]

theorem timingKept_other {cout : Bool} {e : WireEvent} (he : ∀ v, e ≠ .drv .sck v) (es : List WireEvent) :
    timingKept cout (e :: es) = timingKept cout es ∧ levelAfter cout (e :: es) = levelAfter cout es := by
  rcases e with _ | ⟨_ | _, v⟩ | _ | _ | _ | _
  case drv.sck => exact absurd rfl (he v)
  all_goals exact ⟨rfl, rfl⟩

/-- The contract of a trace is kept by one event more that settles a transition before it and, if it is one itself, changes the
level. -/
theorem timingKept_snoc {cout : Bool} {es : List WireEvent} {e : WireEvent} (h : timingKept cout es = true)
    (hlast : ∀ v, es.getLast? = some (.drv .sck v) → e = .settle)
    (hlevel : ∀ v, e = .drv .sck v → v ≠ levelAfter cout es) : timingKept cout (es ++ [e]) = true := by
  induction es generalizing cout with
  | nil =>
    by_cases he : ∃ v, e = .drv .sck v
    · obtain ⟨v, rfl⟩ := he
      exact timingKept_edge_iff.2 ⟨hlevel v rfl, by simp, rfl⟩
    · exact (timingKept_other (not_exists.1 he) []).1
  | cons x es ih =>
    have hlast' : ∀ v, es.getLast? = some (.drv .sck v) → e = .settle := fun v hv =>
      hlast v (by rw [List.getLast?_cons, hv]; rfl)
    by_cases hx : ∃ v, x = .drv .sck v
    · obtain ⟨v, rfl⟩ := hx
      obtain ⟨hv, hnext, hes⟩ := timingKept_edge_iff.1 h
      refine timingKept_edge_iff.2 ⟨hv, fun y hy => ?_, ih hes hlast' hlevel⟩
      rcases es with _ | ⟨z, es⟩
      · cases hy
        exact hlast v rfl
      · exact hnext y hy
    · obtain ⟨hk, hl⟩ := timingKept_other (cout := cout) (not_exists.1 hx) es
      rw [hl] at hlevel
      rw [List.cons_append, (timingKept_other (not_exists.1 hx) _).1]
      exact ih (hk ▸ h) hlast' hlevel

theorem levelAfter_snoc (cout : Bool) (es : List WireEvent) (e : WireEvent) :
    levelAfter cout (es ++ [e]) = levelAfter (levelAfter cout es) [e] := by
  induction es generalizing cout with
  | nil => rfl
  | cons x es ih => rcases x with _ | ⟨_ | _, v⟩ | _ | _ | _ | _ <;> exact ih _

/-! ## What one step adds to the trace -/

/-- A micro-operation adds no event, if it is a `CALC`, or one, which is a settle delay or a transition as the micro-operation
is (R98). -/
theorem wireEvent_cases (op : MicroOp) (b : Bool) :
    (wireEvent op b = [] ∧ op ≠ .settle ∧ ∀ v, op ≠ .drv .sck v)
      ∨ ∃ e, wireEvent op b = [e] ∧ (op = .settle → e = .settle) ∧ ∀ v, e = .drv .sck v → op = .drv .sck v := by
  cases op with
  | dir p m | drv p v | settle | pollDly | sample | grant p => exact .inr ⟨_, rfl, by simp, by simp⟩
  | _ => exact .inl ⟨rfl, by simp, by simp⟩

theorem levelAfter_wireEvent (cout : Bool) (es : List WireEvent) (op : MicroOp) (b : Bool) :
    levelAfter cout (es ++ wireEvent op b) = coutAfter op (levelAfter cout es) := by
  cases op with
  | dir p m | settle | pollDly | sample | grant p => exact levelAfter_snoc cout es _
  | drv p v => cases p <;> exact levelAfter_snoc cout es _
  | _ => exact congrArg (levelAfter cout) (List.append_nil es)

theorem effect_trace (i : MicroInstr) (s : State) : (effect i s).trace = wireEvent i.op (opBit i.op s) ++ s.trace := by
  have hpost : ∀ p b (u : State), (applyPost p b [] u).1.trace = u.trace := fun p _ _ => by cases p <;> rfl
  have hop : ∀ op : MicroOp, (applyOp op s).trace = s.trace := fun op => by
    rcases op with ⟨_ | _, _⟩ | ⟨_ | _, _⟩ | _ | _ | _ | _ | ⟨_ | _ | _ | _⟩ <;> rfl
  rw [effect, hpost, count_trace, hop]

theorem advance_wireTrace (i : MicroInstr) (r : List MicroInstr) (s : State) :
    (advance i r s).wireTrace = s.wireTrace ++ wireEvent i.op (opBit i.op s) := by
  have htrace : (advance i r s).trace = (effect i s).trace := by
    rcases advance_cases i r s with ⟨e, -, -, ha⟩ | ⟨-, ha⟩ <;> rw [ha] <;> rfl
  have hone : (wireEvent i.op (opBit i.op s)).reverse = wireEvent i.op (opBit i.op s) := by
    cases i.op <;> rfl
  rw [State.wireTrace, htrace, effect_trace, List.reverse_append, hone]
  rfl

theorem advance_cout (i : MicroInstr) (r : List MicroInstr) (s : State) :
    (advance i r s).cout = coutAfter i.op s.cout := by
  rw [← effect_cout]
  rcases advance_cases i r s with ⟨e, -, -, ha⟩ | ⟨-, ha⟩ <;> rw [ha] <;> rfl

/-! ## No routine decides in the step of a transition -/

/-- An SCK transition is followed by what stands behind it, whatever is drawn. -/
def MicroInstr.edgeStraight (i : MicroInstr) : Bool :=
  match i.op with
  | .drv .sck _ => i.post.straight
  | .drv .data _ => true
  | .dir _ _ => true
  | .settle => true
  | .pollDly => true
  | .sample => true
  | .grant _ => true
  | .calc _ => true

theorem measureRoutine_edgeStraight (c : Code) : (measureRoutine c).all MicroInstr.edgeStraight = true := by
  simp only [measureRoutine, List.all_append]
  rfl

theorem routineOf_edgeStraight (i : Instr) (s : State) : (routineOf i s).all MicroInstr.edgeStraight = true := by
  cases i with
  | openCmd a | closeCmd a | resetCmd a | engSend a | engWait a | engGet16 a | engSkipCrc a | calT a | calRH a => rfl
  | readT a =>
    rw [routineOf, readTRoutine, List.all_append, measureRoutine_edgeStraight]
    rfl
  | readRH a | readTRH a =>
    rw [routineOf, readTRHRoutine, List.all_append, List.all_append, List.all_append, measureRoutine_edgeStraight,
      measureRoutine_edgeStraight]
    rfl

/-- What a post adds to the micro-operations still to come holds no transition. -/
theorem todo_edgeStraight {i : MicroInstr} {r : List MicroInstr} (hr : r.all MicroInstr.edgeStraight = true) (s : State) :
    (flowOf i r s).todo.all MicroInstr.edgeStraight = true := by
  have h := flowOf_continues i r s
  generalize flowOf i r s = f at h
  cases h with
  | abort e => rfl
  | onward | pollAgain hp | askSck b => exact hr

/-! ## The contract along the run of a command -/

/-- Along the run of a command that began with SCK's latch at `cout`: the trace so far keeps the contract, and where it ends on a
transition, the command runs and its next micro-operation is the settle delay. -/
structure TimingInv (cout : Bool) (s : State) : Prop where
  inv : MachineInv s
  straight : s.rest.all MicroInstr.edgeStraight = true
  kept : timingKept cout s.wireTrace = true
  level : levelAfter cout s.wireTrace = s.cout
  settles : ∀ v, s.wireTrace.getLast? = some (.drv .sck v) → s.busy = true ∧ settleNext s.rest = true

theorem startOf_timingInv {i : Instr} {s : State} (h : MachineInv s) (hb : s.busy = false) (hr : i.runsIn s.life = true) :
    TimingInv s.cout (startOf i s) where
  inv := startOf_inv h hb hr
  straight := routineOf_edgeStraight i _
  kept := rfl
  level := by rw [startOf_eq]; rfl
  settles v hv := by cases hv

/-- A transition that is safe changes the level, and the command goes on with the settle delay behind it. -/
theorem advance_edge {i : MicroInstr} {r : List MicroInstr} {s : State} {v : Bool} (hop : i.op = .drv .sck v)
    (hi : i.edgeStraight = true) (hb : s.busy = true) (hs : opSafe i.op r s.ddir s.cdir s.cout = true) :
    v ≠ s.cout ∧ (advance i r s).busy = true ∧ settleNext (advance i r s).rest = true := by
  rw [hop] at hs
  simp only [opSafe, Bool.and_eq_true, bne_iff_ne] at hs
  obtain ⟨⟨-, hv⟩, hnext⟩ := hs
  rw [MicroInstr.edgeStraight, hop] at hi
  rcases r with _ | ⟨j, q⟩
  · cases hnext
  · rw [advance_straight hi]
    exact ⟨hv, (effect_busy i s).trans hb, hnext⟩

theorem advance_timingInv {cout : Bool} {i : MicroInstr} {r : List MicroInstr} {s : State} (h : TimingInv cout s)
    (hb : s.busy = true) (hr : s.rest = i :: r) : TimingInv cout (advance i r s) := by
  have hsafe : s.safeOn (i :: r) = true := hr ▸ h.inv.busy_safe hb
  obtain ⟨hop, -, -⟩ := safeOn_cons hsafe
  have hstraight := h.straight
  rw [hr, List.all_cons, Bool.and_eq_true] at hstraight
  have hedge := fun v (hv : i.op = .drv .sck v) => advance_edge hv hstraight.1 hb hop
  have hsettle : ∀ v, s.wireTrace.getLast? = some (.drv .sck v) → i.op = .settle := fun v hv => by
    have hn := (h.settles v hv).2
    rw [hr] at hn
    exact eq_of_beq hn
  refine ⟨advance_inv h.inv hb hsafe, ?_, ?_, ?_, ?_⟩
  · rcases advance_cases i r s with ⟨e, -, -, ha⟩ | ⟨-, ha⟩ <;> rw [ha]
    · rfl
    · exact todo_edgeStraight hstraight.2 s
  · rw [advance_wireTrace]
    rcases wireEvent_cases i.op (opBit i.op s) with ⟨he, -, -⟩ | ⟨e, he, hes, hev⟩ <;> rw [he]
    · rw [List.append_nil]
      exact h.kept
    · refine timingKept_snoc h.kept (fun v hv => hes (hsettle v hv)) fun v hv => ?_
      rw [h.level]
      exact (hedge v (hev v hv)).1
  · rw [advance_wireTrace, levelAfter_wireEvent, h.level, advance_cout]
  · intro v hv
    rw [advance_wireTrace] at hv
    rcases wireEvent_cases i.op (opBit i.op s) with ⟨he, hne, -⟩ | ⟨e, he, -, hev⟩ <;> rw [he] at hv
    · rw [List.append_nil] at hv
      exact absurd (hsettle v hv) hne
    · rw [List.getLast?_concat] at hv
      exact (hedge v (hev v (Option.some.inj hv))).2

/-- Settles O54: the run of a command keeps `TimingInv`, which holds where it starts. -/
theorem timingContractIsKept : Obligations.TimingContractIsKept := by
  intro i s t h hb hr ht
  rw [exec_runs h.life_legal h.err_legal hb hr] at ht
  have hstep : ∀ u v, TimingInv s.cout u → u.busy = true → microStep u = .next v → TimingInv s.cout v := by
    intro u v hu hbu hm
    obtain ⟨j, q, hj, -, rfl⟩ := (microStep_next_iff u v).1 hm
    exact advance_timingInv hu hbu hj
  have hinv := runSeq_induct hstep s.window (startOf_timingInv h hb hr) ht
  refine ⟨hinv.kept, fun hbt v hv => ?_⟩
  rw [(hinv.settles v hv).1] at hbt
  cases hbt

end Sys2Proof.Machine
end

/-! The sequencer between commands: what an idle and a running controller do in one step, a word that is written to CMD while
BUSY or starts no command, the running command beside a rejected one, and RESET from its start to its end. -/

section
namespace Sys2Proof.Machine

/-! ## One step of an idle or a running controller -/

theorem advance_upc (i : MicroInstr) (r : List MicroInstr) (s : State) : (advance i r s).upc = s.upc + 1#10 := by
  obtain ⟨-, -, -, -, hu⟩ := effect_control i s
  rcases advance_cases i r s with ⟨e, -, -, ha⟩ | ⟨-, ha⟩ <;> rw [ha] <;> exact hu

/-- A window of one micro-operation (R82). -/
theorem runSeq_one {s : State} (hb : s.busy = true) : runSeq 1 s = microStep s := by
  rw [runSeq_busy 0 hb]
  rcases microStep s with t | f | x <;> rfl

/-- Settles O56: with no turn left the step is a window of one. -/
theorem idleTakesNoStep : Obligations.IdleTakesNoStep := by
  intro s hl hh
  have hstep : step s = runSeq 1 s := (step_idle hh).trans (guarded_of_legal hl.1 hl.2)
  rw [hstep]
  refine ⟨runSeq_idle 1, fun hb => ⟨runSeq_one hb, fun t ht => ?_⟩⟩
  obtain ⟨i, r, -, -, rfl⟩ := (microStep_next_iff s t).1 ht
  exact advance_upc i r s

/-! ## A word at CMD that starts no command -/

/-- Whatever word is written to CMD while BUSY, it is rejected (R77). -/
theorem enter_busy {x : Input} {v : Word} {s : State} (hc : commandWord x = some v) (hb : s.busy = true) :
    enter x s = markReject s := by
  rcases hd : decode v with e | i
  · rw [enter_illegal hc hd, presentIllegal, if_pos hb]
  · rw [enter_command hc hd, present, if_pos hb]

/-- Settles O12: both ways of presenting a command are `markReject`, and the window is empty. -/
theorem busyWriteIsRejected : Obligations.BusyWriteIsRejected := by
  refine ⟨fun i s hl hb hw => ?_, fun s v ts hl hb hh => ?_⟩
  · rw [exec_busy i hl.1 hl.2 hb]
    exact congrArg (runSeq · (markReject s)) hw
  · rw [step_enter hh rfl (.inr hl)]
    exact congrArg Host.Outcome.next (enter_busy (s := { s with host := ts, window := 0 }) rfl hb)

/-- Settles O14: the word is accepted and completed at once, and an idle sequencer takes no step of the window. -/
theorem illegalWordCompletesAtOnce : Obligations.IllegalWordCompletesAtOnce := by
  intro s v x n ts ⟨h1, h2, hb, _⟩ hd hh
  rw [step_enter hh rfl (.inr ⟨h1, h2⟩), enter_illegal rfl hd, presentIllegal, if_neg (by simp [hb])]
  exact runSeq_idle n hb

theorem exec_lifecycle {i : Instr} {s : State} (hi : s.idleFor 0) (hg : lifecycleGate i s.life = .lifecycle) :
    exec i s = .next (s.completedAtOnce (encode i) errLifecycle) := by
  obtain ⟨h1, h2, hb, -⟩ := hi
  rw [exec_eq, command_lifecycle h1 h2 hb hg]
  rfl

theorem exec_noOp {i : Instr} {s : State} (hi : s.idleFor 0) (hg : lifecycleGate i s.life = .noOp) :
    exec i s = .next (s.completedAtOnce (encode i) errNone) := by
  obtain ⟨h1, h2, hb, -⟩ := hi
  rw [exec_eq, command_noOp h1 h2 hb hg]
  rfl

/-- R137's table asks for the opcode only. -/
theorem lifecycleGate_of_opcode {i j : Instr} (h : i.opcode = j.opcode) (l : LifeCode) :
    lifecycleGate i l = lifecycleGate j l := by
  rw [Instr.eq_withArg8 h, lifecycleGate_withArg8]

/-- The commands that need READY (R137). -/
theorem lifecycleGate_not_ready {i : Instr} {l : LifeCode}
    (ho : i.opcode ∈ [0x3#4, 0x4#4, 0x5#4, 0x6#4, 0x8#4, 0x9#4, 0xA#4, 0xB#4]) (hl : l ≠ lifeReady) :
    lifecycleGate i l = .lifecycle := by
  cases i with
  | openCmd a | closeCmd a | calT a | calRH a => simp [Instr.opcode] at ho
  | resetCmd a | readT a | readRH a | readTRH a | engSend a | engWait a | engGet16 a | engSkipCrc a => exact if_neg hl

/-- Settles O15: each case is a cell of R137's table. -/
theorem lifecycleViolationCompletesAtOnce : Obligations.LifecycleViolationCompletesAtOnce := by
  intro i s hi
  refine ⟨fun ho hl => exec_lifecycle hi ?_, fun ho hl => exec_lifecycle hi ?_, fun ho hl => exec_noOp hi ?_,
    fun ho hl => exec_lifecycle hi (lifecycleGate_not_ready ho hl)⟩
  · exact (lifecycleGate_of_opcode (j := .openCmd 0#8) ho _).trans (if_neg hl)
  · rw [hl]
    exact lifecycleGate_of_opcode (j := .closeCmd 0#8) ho lifeUninit
  · rw [hl]
    exact lifecycleGate_of_opcode (j := .closeCmd 0#8) ho lifeClosed

/-! ## A rejected command and the running one -/

/-- No step writes what is fixed at acceptance. -/
theorem advance_view_fixed (i : MicroInstr) (r : List MicroInstr) (s : State) :
    Group.view .fixed (advance i r s) = Group.view .fixed s := by
  rw [advance_eq_conclude, conclude_view, effect_view (spares_fixed i)]

/-- No step reads or writes REJECT. -/
theorem advance_markReject (i : MicroInstr) (r : List MicroInstr) (s : State) :
    advance i r (markReject s) = markReject (advance i r s) := by
  obtain ⟨-, -, ha, hb, -⟩ := view_fixed_iff.1 (advance_view_fixed i r s)
  calc
    advance i r (markReject s) = (advance i r s).withHostData s.opa s.opb true := advance_withHostData s.opa s.opb true i r s
    _ = (advance i r s).withHostData (advance i r s).opa (advance i r s).opb true := by rw [ha, hb]
    _ = markReject (advance i r s) := rfl

theorem blind_markReject : SequencerBlind markReject where
  busy _ := rfl
  rest _ := rfl
  fault op s := opFault_withHostData s.opa s.opb true op s
  advance := advance_markReject

/-- Settles O13: the rejected presentation sets REJECT, which no step of the running command reads or writes. -/
theorem rejectedCommandDisturbsNothing : Obligations.RejectedCommandDisturbsNothing := by
  intro i s hb
  by_cases hl : s.legalCodes
  · rw [exec_busy i hl.1 hl.2 hb, blind_markReject.runSeq_comm]
    exact congrArg (mapNext markReject) (step_quiet (s := { s with host := ⟨.quiet, s.window⟩ :: s.host }) hl rfl).symm
  · obtain ⟨f, hf⟩ := codeFault_of_not_legalCodes hl
    rw [step_of_codeFault (s := { s with host := ⟨.quiet, s.window⟩ :: s.host }) hf rfl (by simp), exec_eq, command, guarded,
      hf]
    rfl

/-! ## RESET -/

/-- Settles O22: the closed form of CONN_RESET's 43 micro-operations, from the state RESET starts in. -/
theorem resetPulsesTheClockTenTimes : Obligations.ResetPulsesTheClockTenTimes := by
  intro a s hi hl
  refine ⟨_, exec_resetCmd_ready a hi hl, ?_⟩
  rw [effects_connReset]
  simp [State.specified, State.ran, State.withPins, State.saw, complete, start, acceptCommon]

end Sys2Proof.Machine
end

/-! The engine commands and the failures of READ_T, each with its whole next state (R102 to R118, R144), and the law of the word
that sixteen samples give (R113). -/

section
namespace Sys2Proof.Machine

/-! ## A command's whole next state -/

/-- The specified part of a state without the observer's records, the wire trace and the cycle count (R98, R99). -/
def State.unobserved (s : State) : State := { s.specified with trace := [], cycles := 0 }

/-- A command starts with no trace and no cycles (R81): what it leaves has the specified part of `u.saw` when it agrees with it
beside the observer's records and adds `events` and `clk` to these. -/
theorem specified_eq_saw {t u : State} {n clk : Nat} {events : List WireEvent}
    (h : t.unobserved = (u.saw n events clk).unobserved) (htrace : t.trace = events.reverse ++ [])
    (hcycles : t.cycles = 0 + clk) : t.specified = (u.saw n events clk).specified := by
  rw [List.append_nil] at htrace
  rw [Nat.zero_add] at hcycles
  calc
    t.specified = { t.unobserved with trace := t.trace, cycles := t.cycles } := rfl
    _ = { (u.saw n events clk).unobserved with trace := events.reverse, cycles := clk } := by rw [h, htrace, hcycles]
    _ = (u.saw n events clk).specified := rfl

/-! ## The engine commands -/

/-- Settles O23: what SEND_CMD writes, from the state ENG_SEND starts in, and the code its handshake decides. -/
theorem engSendSendsItsCode : Obligations.EngSendSendsItsCode := by
  intro c s hi hl
  have herr : (if s.drawAt 0 || !s.drawAt 1 then errHandshake else errNone)
      = if s.drawAt 0 = false ∧ s.drawAt 1 = true then errNone else errHandshake := by
    cases s.drawAt 0 <;> cases s.drawAt 1 <;> rfl
  refine ⟨_, exec_engSend_ready c hi hl, ?_⟩
  rw [herr]
  exact specified_eq_saw rfl rfl rfl

/-- What ENG_WAIT leaves after k samples, however it completes (R108, R110). -/
theorem engWait_specified (a : Code) (e : ErrCode) (k : Nat) (s : State) :
    (complete e (afterWait (s.drawList 0 k) (startOf (.engWait a) s))).specified
      = ({ s.ran (.engWait a) e with ddir := false, polls := BitVec.ofNat 7 k }.saw k
          (wireWait (s.drawList 0 k)) (1 + k * (Config.pollCycles + 1))).specified := by
  rw [afterWait, drawList_length]
  exact specified_eq_saw rfl rfl rfl

/-- Settles O25: WAIT_READY returns with its k-th sample. -/
theorem engWaitReturnsAtTheFirstLowSample : Obligations.EngWaitReturnsAtTheFirstLowSample :=
  fun a s k hi hl h => ⟨_, exec_engWait_readyAfter a hi hl h, engWait_specified a errNone k s⟩

/-- Settles O26: WAIT_READY raises with its hundredth sample. -/
theorem engWaitTimesOutAfterAHundredSamples : Obligations.EngWaitTimesOutAfterAHundredSamples := by
  intro a s hi hl h
  refine ⟨_, exec_engWait_neverReady a hi hl h, ?_⟩
  rw [neverReady_drawList h]
  exact engWait_specified a errReadyTimeout 100 s

/-- Settles O27: the closed form of GET_DATA16's 89 micro-operations, from the state ENG_GET16 starts in. -/
theorem engGet16CommitsItsWord : Obligations.EngGet16CommitsItsWord := by
  intro a s hi hl
  refine ⟨_, exec_engGet16_ready a hi hl, ?_⟩
  rw [effects_getData16]
  exact specified_eq_saw rfl rfl rfl

/-- Settles O29: the closed form of SKIP_CRC's 7 micro-operations, from the state ENG_SKIPCRC starts in. -/
theorem engSkipCrcPulsesOnce : Obligations.EngSkipCrcPulsesOnce := by
  intro a s hi hl
  refine ⟨_, exec_engSkipCrc_ready a hi hl, ?_⟩
  rw [effects_skipCrc]
  exact specified_eq_saw rfl rfl rfl

/-! ## The shift-in law -/

/-- The number that bits write, the least significant first, as a sum. -/
theorem ofBits_eq_sum {n : Nat} (f : Fin n → Bool) : Nat.ofBits f = ∑ i, (f i).toNat * 2 ^ i.val := by
  induction n with
  | zero => rfl
  | succ n ih =>
    have hstep : ∀ i : Fin n, (f i.succ).toNat * 2 ^ i.succ.val = 2 * ((f i.succ).toNat * 2 ^ i.val) := fun i => by
      rw [Fin.val_succ, Nat.pow_succ, ← Nat.mul_assoc, Nat.mul_comm]
    rw [Nat.ofBits_succ, ih, Fin.sum_univ_succ, Fin.val_zero, Nat.pow_zero, Nat.mul_one, Nat.add_comm, Finset.mul_sum]
    simp only [hstep, Function.comp_apply]

/-- The number that bits write, the most significant first, as the sum of R113. -/
theorem toNat_ofFnBE_eq_sum (b : Nat → Bool) (n : Nat) :
    (BitVec.ofFnBE fun j : Fin n => b j).toNat = (Finset.range n).sum fun j => (b j).toNat * 2 ^ (n - 1 - j) := by
  have hrev : ∀ i : Fin n, i.rev.val = n - 1 - i := fun i => by rw [Fin.val_rev]; omega
  rw [BitVec.toNat_ofFnBE, ofBits_eq_sum, Finset.sum_range, ← Equiv.sum_comp Fin.revPerm]
  simp only [Function.comp_apply, Fin.revPerm_apply, Fin.rev_rev, hrev]

/-- The word of R113 has the sixteen samples for its bits, the first the most significant. -/
theorem drawnWord_eq_ofFnBE (s : State) (n : Nat) :
    s.drawnWord n = BitVec.ofFnBE fun j : Fin 16 => s.drawAt (n + j) := by
  rw [State.drawnWord, ← toNat_ofFnBE_eq_sum fun j => s.drawAt (n + j)]
  exact (BitVec.ofNat_toNat ..).trans (BitVec.setWidth_eq _)

theorem drawnWord_toNat (s : State) (n : Nat) :
    (s.drawnWord n).toNat = (Finset.range 16).sum fun j => (s.drawAt (n + j)).toNat * 2 ^ (15 - j) := by
  rw [drawnWord_eq_ofFnBE]
  exact toNat_ofFnBE_eq_sum (fun j => s.drawAt (n + j)) 16

theorem drawnWord_getLsbD (s : State) (n : Nat) {j : Nat} (hj : j < 16) :
    (s.drawnWord n).getLsbD (15 - j) = s.drawAt (n + j) := by
  have hrev : 16 - (15 - j + 1) = j := by omega
  rw [drawnWord_eq_ofFnBE, BitVec.getLsbD_ofFnBE, dif_pos (by omega), Fin.val_rev, hrev]

/-- Settles O28: the word that ENG_GET16 commits is that of its samples, and a word is its bits. -/
theorem shiftInLaw : Obligations.ShiftInLaw := by
  intro a s hi hl
  obtain ⟨t, he, hw, -⟩ := engGet16_performed a hi hl
  have hbit : ∀ j, j < 16 → t.data16.getLsbD (15 - j) = s.drawAt j := fun j hj => by
    rw [hw, drawnWord_getLsbD s 0 hj, Nat.zero_add]
  refine ⟨t, he, ?_, hbit, fun v hv => ?_⟩
  · rw [hw, drawnWord_toNat]
    simp only [Nat.zero_add]
  · refine BitVec.eq_of_getLsbD_eq fun i hi => ?_
    have h := (hbit (15 - i) (by omega)).trans (hv (15 - i) (by omega))
    rwa [Nat.sub_sub_self (by omega)] at h

/-! ## READ_T that fails -/

/-- READ_T whose handshake fails (R105, R144). -/
theorem exec_readT_nack (a : Code) {s : State} (hi : s.idleFor 60) (hl : s.life = lifeReady) (ha : ¬ s.acked 0) :
    exec (.readT a) s = .next (complete errHandshake (afterSend Config.cmdTemp (startOf (.readT a) s))) := by
  obtain ⟨h1, h2, hb, hw⟩ := hi
  rw [exec_runs h1 h2 hb (by rw [hl]; rfl), ← Nat.sub_add_cancel hw]
  exact run_measure_nack _ rfl rfl ha

/-- READ_T whose poll times out (R109, R144). -/
theorem exec_readT_timeout (a : Code) {s : State} (hi : s.idleFor 261) (hl : s.life = lifeReady) (ha : s.acked 0)
    (hn : s.neverReady 2) :
    exec (.readT a) s = .next (complete errReadyTimeout
      (afterWait (s.drawList 2 100) (afterSend Config.cmdTemp (startOf (.readT a) s)))) := by
  obtain ⟨h1, h2, hb, hw⟩ := hi
  rw [exec_runs h1 h2 hb (by rw [hl]; rfl), ← Nat.sub_add_cancel hw, ← neverReady_drawList hn]
  exact run_measure_timeout _ rfl rfl ha hn

/-- What SEND_CMD and then k polls write (R102 to R105, R108). -/
theorem afterWait_afterSend (c : Code) (k : Nat) (s : State) :
    afterWait (s.drawList 2 k) (afterSend c s) = { s with
      ddir := false, dout := c.getLsbD 0, cdir := true, cout := false, tmr := 0, upc := s.upc + BitVec.ofNat 10 (61 + 2 * k)
      cnt := BitVec.ofNat 7 k, a1 := s.drawAt 0, ack1 := s.drawAt 0, a2 := s.drawAt 1, ack2 := s.drawAt 1
      polls := BitVec.ofNat 7 k, draws := s.draws.drop (2 + k), drawCount := s.drawCount + (2 + k)
      trace := (wireSend c (s.drawAt 0) (s.drawAt 1) ++ wireWait (s.drawList 2 k)).reverse ++ s.trace
      cycles := s.cycles + (39 + 22 * Config.settleCycles + k * (Config.pollCycles + 1)) } := by
  have hupc : s.upc + 60#10 + BitVec.ofNat 10 (1 + 2 * k) = s.upc + BitVec.ofNat 10 (61 + 2 * k) := by
    rw [bv_ofNat_shift]
    congr 2
    omega
  simp only [afterWait, afterSend, drawList_length, hupc, List.drop_drop, List.reverse_append, List.append_assoc, State.mk.injEq,
    true_and]
  exact ⟨Nat.add_assoc .., by ring⟩

/-- Settles O39: SEND_CMD raises, or WAIT_READY does after it, from the state READ_T starts in. -/
theorem readTFails : Obligations.ReadTFails := by
  refine ⟨fun a s hi hl ha => ⟨_, exec_readT_nack a hi hl ha, ?_⟩,
    fun a s hi hl ha hn => ⟨_, exec_readT_timeout a hi hl ha hn, ?_⟩⟩
  · exact specified_eq_saw rfl rfl rfl
  · obtain ⟨h0, h1⟩ := ha
    have hdraw : ∀ n, (startOf (.readT a) s).drawAt n = s.drawAt n := fun _ => rfl
    have hlist : (startOf (.readT a) s).drawList 2 100 = s.drawList 2 100 := rfl
    rw [← hlist, afterWait_afterSend, hdraw, hdraw, h0, h1]
    exact specified_eq_saw rfl rfl rfl

end Sys2Proof.Machine
end

/-! The calibration unit (R121 to R135): the temperature is exact, the numerator is the ideal humidity at 10^-10 %RH, the humidity
is its nearest hundredth, both fit their registers, and a composite read is exact from its raw words on. -/

section
namespace Sys2Proof.Machine

/-! ## The temperature (R124) -/

/-- The temperature of a raw word is the ideal one, in hundredths. -/
theorem calTemp_eq_ideal (r : Raw) : ((calTemp r).toInt : ℚ) = 100 * idealTemperature r.toNat := by
  rw [calTemp_toInt, idealTemperature]
  push_cast
  ring

/-- The temperatures the controller itself commits. -/
theorem calTemp_bounds (r : Raw) : -4010 ≤ (calTemp r).toInt ∧ (calTemp r).toInt ≤ 61525 := by
  have hr := r.isLt
  rw [calTemp_toInt]
  omega

/-- Settles O33: nothing wraps, by `calTemp_toInt`, and the ideal function is that integer over 100. -/
theorem temperatureIsExact : Obligations.TemperatureIsExact := by
  intro r
  obtain ⟨hlo, hhi⟩ := calTemp_bounds r
  exact ⟨calTemp_toInt r, hlo, hhi, calTemp_eq r, calTemp_eq_ideal r⟩

/-! ## The humidity numerator (R125) -/

theorem humNum_eq (r : Raw) (t : Int) :
    humNum r t = -20468000000 + 367000000 * (r.toNat : Int) - 15955 * (r.toNat : Int) ^ 2
      + 1000 * (t - 2500) * (1000 + 8 * (r.toNat : Int)) := by
  rw [humNum, Config.coeffC1, Config.coeffC2, Config.coeffC3]
  ring

/-- The ideal humidity with its decimals as fractions: `ring` fails on the decimal literal `25.0`. -/
theorem idealHumidity_eq (r t : ℚ) :
    idealHumidity r t = (t - 25) * (1 / 100 + r / 12500) - 5117 / 2500 + 367 / 10000 * r - 3191 / 2000000000 * r ^ 2 := by
  have h25 : (25.0 : ℚ) = 25 := by norm_num
  have hT1 : (0.01 : ℚ) = 1 / 100 := by norm_num
  have hT2 : (0.00008 : ℚ) = 1 / 12500 := by norm_num
  have hC1 : (2.0468 : ℚ) = 5117 / 2500 := by norm_num
  have hC2 : (0.0367 : ℚ) = 367 / 10000 := by norm_num
  have hC3 : (1.5955 : ℚ) * 10 ^ (-6 : ℤ) = 3191 / 2000000000 := by norm_num
  rw [idealHumidity, idealLinearHumidity, neg_mul, h25, hT1, hT2, hC1, hC2, hC3]
  ring

/-- The numerator is the ideal humidity at 10^-10 %RH. -/
theorem humNum_eq_ideal (r : Raw) (t : Int) : (humNum r t : ℚ) = 10 ^ 10 * idealHumidity r.toNat ((t : ℚ) / 100) := by
  rw [humNum_eq, idealHumidity_eq]
  push_cast
  ring

/-- Settles O34: over the rationals the polynomial of R125 is 10^10 times the ideal function. -/
theorem humidityNumeratorIsExact : Obligations.HumidityNumeratorIsExact :=
  fun r t => ⟨humNum_eq r t, humNum_eq_ideal r t⟩

/-! ## Rounding (R127) -/

/-- The divisor is positive, so that the floor division is Lean's `/`, which `omega` knows. -/
theorem roundHum_eq (n : Int) : roundHum n = (n + 50000000) / 100000000 :=
  Int.fdiv_eq_ediv_of_nonneg _ (by decide)

/-- What determines a floor division: the quotient's product brackets the dividend. -/
theorem roundHum_brackets (n : Int) :
    roundHum n * 100000000 ≤ n + 50000000 ∧ n + 50000000 < (roundHum n + 1) * 100000000 := by
  rw [roundHum_eq]
  omega

/-- The rounded humidity is within half a hundredth of the numerator. -/
theorem abs_roundHum_sub_le (n : Int) : |(roundHum n : ℚ) - (n : ℚ) / 10 ^ 8| ≤ 1 / 2 := by
  obtain ⟨hlo, hhi⟩ := roundHum_brackets n
  have hlo' : (roundHum n : ℚ) * 100000000 ≤ n + 50000000 := by exact_mod_cast hlo
  have hhi' : (n : ℚ) + 50000000 < (roundHum n + 1) * 100000000 := by exact_mod_cast hhi
  rw [abs_le]
  constructor <;> linarith

/-- A tie goes up. -/
theorem roundHum_of_tie {n : Int} (h : n % 100000000 = 50000000) : (roundHum n : ℚ) = (n : ℚ) / 10 ^ 8 + 1 / 2 := by
  have hn : roundHum n * 100000000 = n + 50000000 := by
    rw [roundHum_eq]
    omega
  have hn' : (roundHum n : ℚ) * 100000000 = n + 50000000 := by exact_mod_cast hn
  linarith

/-- Settles O35: the bracket of the floor division, read over the rationals. -/
theorem humidityRoundsToNearest : Obligations.HumidityRoundsToNearest := by
  refine ⟨fun n => ?_, by decide, by decide, by decide⟩
  obtain ⟨hlo, hhi⟩ := roundHum_brackets n
  exact ⟨hlo, hhi, abs_roundHum_sub_le n, roundHum_of_tie⟩

/-! ## What a change of the operands does (R134) -/

theorem roundHum_mono {n m : Int} (h : n ≤ m) : roundHum n ≤ roundHum m := by
  rw [roundHum_eq, roundHum_eq]
  exact Int.ediv_le_ediv (by decide) (by omega)

/-- Two roundings differ by no more than the numerators do, in whole hundredths, and one more. -/
theorem abs_roundHum_sub_roundHum_le (n m : Int) :
    |roundHum m - roundHum n| ≤ |m - n|.fdiv 100000000 + 1 := by
  rw [roundHum_eq, roundHum_eq, Int.fdiv_eq_ediv_of_nonneg _ (by decide)]
  rcases le_total n m with h | h
  · rw [abs_of_nonneg (sub_nonneg.2 h), abs_le]
    omega
  · rw [abs_of_nonpos (sub_nonpos.2 h), abs_le]
    omega

/-- What a change of the raw word does, for any two words. -/
theorem humNum_sub_raw (r q : Raw) (t : Int) :
    humNum q t - humNum r t = ((q.toNat : Int) - r.toNat)
      * (367000000 - 15955 * ((q.toNat : Int) + r.toNat) + 8000 * (t - 2500)) := by
  rw [humNum_eq, humNum_eq]
  ring

theorem humNum_succ_raw_sub {r q : Raw} (h : q.toNat = r.toNat + 1) (t : Int) :
    humNum q t - humNum r t = 367000000 - 15955 * (2 * (r.toNat : Int) + 1) + 8000 * (t - 2500) := by
  rw [humNum_sub_raw, h]
  push_cast
  ring

theorem humNum_succ_temp_sub (r : Raw) (t : Int) :
    humNum r (t + 1) - humNum r t = 1000 * (1000 + 8 * (r.toNat : Int)) := by
  rw [humNum_eq, humNum_eq]
  ring

/-- Settles O36: the two differences are those of the polynomial, and the second is positive. -/
theorem calibrationHasNoBranchDiscontinuity : Obligations.CalibrationHasNoBranchDiscontinuity := by
  refine ⟨fun n m => roundHum_mono, abs_roundHum_sub_roundHum_le, fun r q t h => ?_, fun r t => ?_⟩
  · rw [humNum_succ_raw_sub h]
  · have hr := r.isLt
    rw [humNum_succ_temp_sub, abs_of_nonneg (by omega)]
    exact ⟨rfl, by omega⟩

/-! ## The ranges (R128) -/

/-- The numerator grows with the temperature: the factor of R125's compensation is positive. -/
theorem humNum_mono_temp (r : Raw) {t u : Int} (h : t ≤ u) : humNum r t ≤ humNum r u := by
  rw [humNum_eq, humNum_eq]
  have hc : 1000 * (t - 2500) * (1000 + 8 * (r.toNat : Int)) ≤ 1000 * (u - 2500) * (1000 + 8 * (r.toNat : Int)) :=
    mul_le_mul_of_nonneg_right (by omega) (by omega)
  exact Int.add_le_add_left hc _

/-- Over the raw words the numerator is concave: it lies above the chord through its two ends. -/
theorem humNum_above_chord (r : Raw) (t : Int) :
    65535 * humNum r t = (65535 - (r.toNat : Int)) * humNum 0#16 t + r.toNat * humNum 65535#16 t
      + 65535 * 15955 * (r.toNat * (65535 - r.toNat)) := by
  have h0 : ((0#16 : Raw).toNat : Int) = 0 := rfl
  have h1 : ((65535#16 : Raw).toNat : Int) = 65535 := rfl
  rw [humNum_eq, humNum_eq, humNum_eq, h0, h1]
  ring

/-- So what bounds both ends from below bounds the numerator of every raw word. -/
theorem le_humNum_of_ends {b t : Int} (h0 : b ≤ humNum 0#16 t) (h1 : b ≤ humNum 65535#16 t) (r : Raw) :
    b ≤ humNum r t := by
  have hn : (0 : Int) ≤ r.toNat := Int.natCast_nonneg _
  have hn' : 0 ≤ 65535 - (r.toNat : Int) := by have := r.isLt; omega
  have hchord := humNum_above_chord r t
  have hlow := mul_le_mul_of_nonneg_left h0 hn'
  have hhigh := mul_le_mul_of_nonneg_left h1 hn
  have hbend := mul_nonneg hn hn'
  linarith

/-- At the hottest temperature of 32 bits the numerator grows with the raw word. -/
theorem humNum_le_hottest (r : Raw) : humNum r (2 ^ 31 - 1) ≤ 1127984403661190125 := by
  have hr := r.isLt
  have hd := humNum_sub_raw r 65535#16 (2 ^ 31 - 1)
  have htop : humNum 65535#16 (2 ^ 31 - 1) = 1127984403661190125 := by decide
  have h1 : ((65535#16 : Raw).toNat : Int) = 65535 := rfl
  rw [h1, htop] at hd
  exact sub_nonneg.1 (hd ▸ mul_nonneg (by omega) (by omega))

/-- At the hottest temperature the controller itself commits the numerator is greatest at the raw word 26299. -/
theorem humNum_le_peak (r : Raw) : humNum r 61525 ≤ 11073603067045 := by
  have hd := humNum_sub_raw r 26299#16 61525
  have htop : humNum 26299#16 61525 = 11073603067045 := by decide
  have h1 : ((26299#16 : Raw).toNat : Int) = 26299 := rfl
  rw [h1, htop] at hd
  refine sub_nonneg.1 (hd ▸ ?_)
  rcases lt_or_ge r.toNat 26299 with h | h
  · exact mul_nonneg (by omega) (by omega)
  · exact mul_nonneg_of_nonpos_of_nonpos (by omega) (by omega)

/-- The range of the numerator over every temperature of 32 bits, by its coldest and its hottest. -/
theorem humNum_word_range (r : Raw) (t : Word) :
    -1128076017056409875 ≤ humNum r t.toInt ∧ humNum r t.toInt ≤ 1127984403661190125 := by
  have hcold : (-1128076017056409875 : Int) ≤ humNum r (-2 ^ 31) := le_humNum_of_ends (by decide) (by decide) r
  have ht := t.le_toInt
  have ht' := t.toInt_lt
  exact ⟨hcold.trans (humNum_mono_temp r ht), (humNum_mono_temp r (by omega)).trans (humNum_le_hottest r)⟩

/-- The range of the numerator over the temperatures that the controller itself commits. -/
theorem humNum_calTemp_range (r q : Raw) :
    -47912807769875 ≤ humNum r (calTemp q).toInt ∧ humNum r (calTemp q).toInt ≤ 11073603067045 := by
  have hcold : (-47912807769875 : Int) ≤ humNum r (-4010) := le_humNum_of_ends (by decide) (by decide) r
  obtain ⟨ht, ht'⟩ := calTemp_bounds q
  exact ⟨hcold.trans (humNum_mono_temp r ht), (humNum_mono_temp r ht').trans (humNum_le_peak r)⟩

/-- A value of 32 bits is its own low word, sign-extended (R185). -/
theorem signExtend_low_word {x : Int} (h : -2 ^ 31 ≤ x) (h' : x < 2 ^ 31) :
    ((BitVec.ofInt 64 x).extractLsb' 0 32).signExtend 64 = BitVec.ofInt 64 x := by
  have hlow : ((x % 2 ^ 64).toNat : Int).bmod (2 ^ 32) = x := by
    rw [Int.bmod_def]
    omega
  refine BitVec.eq_of_toInt_eq ?_
  rw [BitVec.toInt_signExtend_of_le (by decide), ← BitVec.setWidth_eq_extractLsb' (by decide), BitVec.toInt_setWidth,
    BitVec.toNat_ofInt, toInt_ofInt_of_bounds (by omega) (by omega)]
  exact hlow

/-- Settles O37: the ranges of the numerator, their rounding, and registers that are wide enough for both. -/
theorem humidityFitsItsRegisters : Obligations.HumidityFitsItsRegisters := by
  refine ⟨fun r t => ?_, fun r q => ?_⟩
  · obtain ⟨hlo, hhi⟩ := humNum_word_range r t
    have hlo' : -11280760171 ≤ roundHum (humNum r t.toInt) := roundHum_mono hlo
    have hhi' : roundHum (humNum r t.toInt) ≤ 11279844037 := roundHum_mono hhi
    exact ⟨hlo, hhi, hlo', hhi', toInt_ofInt_of_bounds (by omega) (by omega), toInt_ofInt_of_bounds (by omega) (by omega)⟩
  · obtain ⟨hlo, hhi⟩ := humNum_calTemp_range r q
    have hlo' : -479128 ≤ roundHum (humNum r (calTemp q).toInt) := roundHum_mono hlo
    have hhi' : roundHum (humNum r (calTemp q).toInt) ≤ 110736 := roundHum_mono hhi
    exact ⟨hlo, hhi, hlo', hhi', signExtend_low_word (by omega) (by omega)⟩

/-! ## The composite reads (R135) -/

/-- What READ_TRH and READ_RH commit where both stages succeed: the humidity is that of the second word at the temperature of the
first (R143, R145). -/
theorem readTRH_commits (a : Code) {i : Instr} {s : State} {k m : Nat} (hk : i = .readTRH a ∨ i = .readRH a)
    (hi : s.idleFor (316 + 2 * (k + m))) (hl : s.life = lifeReady) (ha : s.acked 0) (h : s.readyAfter 2 k)
    (ha' : s.acked (k + 18)) (h' : s.readyAfter (k + 20) m) :
    ∃ t, exec i s = .next t ∧ t.rawT = s.drawnWord (k + 2) ∧ t.rawH = s.drawnWord (k + m + 20)
      ∧ t.tempC = calTemp t.rawT ∧ t.rhNum = BitVec.ofInt 64 (humNum t.rawH (calTemp t.rawT).toInt)
      ∧ t.rhC = BitVec.ofInt 64 (roundHum (humNum t.rawH (calTemp t.rawT).toInt)) := by
  refine ⟨_, exec_readTRH_succeeds a hk hi hl ha h ha' h', rfl, ?_, rfl, rfl, rfl⟩
  have hw : s.drawnWord (k + 18 + (m + 2)) = s.drawnWord (k + m + 20) := by congr 1; omega
  rw [← hw]
  exact drawnWord_drop (afterStageT_draws k s) (afterStageT_drawCount k s) (m + 2)

/-- The numerator at a temperature the controller commits is the ideal humidity of the two raw words. -/
theorem humNum_calTemp_eq_ideal (r q : Raw) :
    (humNum r (calTemp q).toInt : ℚ) = 10 ^ 10 * idealHumidity r.toNat (idealTemperature q.toNat) := by
  rw [humNum_eq_ideal, calTemp_eq_ideal, mul_div_cancel_left₀ _ (by norm_num)]

/-- Rounded to hundredths, it is within half a hundredth of that humidity. -/
theorem abs_roundHum_sub_ideal_le (r q : Raw) :
    |(roundHum (humNum r (calTemp q).toInt) : ℚ) / 100 - idealHumidity r.toNat (idealTemperature q.toNat)| ≤ 1 / 200 := by
  have h := abs_roundHum_sub_le (humNum r (calTemp q).toInt)
  rw [humNum_calTemp_eq_ideal, abs_le] at h
  obtain ⟨hlo, hhi⟩ := h
  rw [abs_le]
  constructor <;> linarith

/-- Settles O44: no register wraps, and each stage of the calculation is exact. -/
theorem compositeReadIsExact : Obligations.CompositeReadIsExact := by
  intro a i s k m hk hi hl ha h ha' h'
  obtain ⟨t, he, hT, hH, htemp, hnum, hrh⟩ := readTRH_commits a hk hi hl ha h ha' h'
  obtain ⟨hlo, hhi⟩ := humNum_bounds t.rawH (calTemp t.rawT)
  obtain ⟨hlo', hhi'⟩ := roundHum_bounds hlo hhi
  refine ⟨t, he, hT, hH, ?_, ?_, ?_⟩
  · rw [htemp, calTemp_eq_ideal, mul_div_cancel_left₀ _ (by norm_num)]
  · rw [hnum, toInt_ofInt_of_bounds hlo hhi, humNum_calTemp_eq_ideal]
  · rw [hrh, toInt_ofInt_of_bounds hlo' hhi']
    exact abs_roundHum_sub_ideal_le t.rawH t.rawT

end Sys2Proof.Machine
end

/-! The lifecycle commands, each with its whole next state (R137 to R141): OPEN asks for both grants and then decides, CLOSE in
READY decides nothing, and in the other states it completes in its acceptance step. -/

section
namespace Sys2Proof.Machine

/-! ## OPEN -/

/-- What OPEN's two requests for a grant write (R138). -/
def afterGrants (s : State) : State :=
  { s with
    upc := s.upc + 2#10, draws := s.draws.drop 2, drawCount := s.drawCount + 2
    trace := [.grant .sck (s.drawAt 1), .grant .data (s.drawAt 0)] ++ s.trace, cycles := s.cycles + 2 }

/-- What a request for a grant writes, whatever it decides (R90, R99). -/
theorem effect_grant {p : Pin} {q : Post} (hq : q = .grantData ∨ ∃ b, q = .grantSck b) (s : State) :
    effect ⟨.grant p, q⟩ s = { s with
      upc := s.upc + 1#10, draws := s.draws.drop 1, drawCount := s.drawCount + 1
      trace := .grant p (s.drawAt 0) :: s.trace, cycles := s.cycles + 1 } := by
  rcases hq with rfl | ⟨b, rfl⟩ <;> rfl

/-- The second request takes the draw behind the first one's. -/
theorem drawAt_grantData (s : State) : (effect ⟨.grant .data, .grantData⟩ s).drawAt 0 = s.drawAt 1 :=
  drawAt_drop (s := s) (m := 1) rfl rfl 0

/-- The two requests write the same whatever the first one's answer `b`, of which the second is told. -/
theorem effect_grants (b : Bool) (s : State) :
    effect ⟨.grant .sck, .grantSck b⟩ (effect ⟨.grant .data, .grantData⟩ s) = afterGrants s := by
  rw [effect_grant (.inr ⟨b, rfl⟩), drawAt_grantData, effect_grant (.inl rfl), afterGrants, List.drop_drop, BitVec.add_assoc]
  rfl

/-- The second request decides (R138). -/
theorem flowOf_grantSck (b : Bool) (r : List MicroInstr) (s : State) :
    flowOf ⟨.grant .sck, .grantSck b⟩ r s = if b && s.drawAt 0 then .go r else .raise errPinAcq := rfl

/-- OPEN asks for both grants, and then goes on or raises PIN_ACQ (R138). -/
theorem run_grants {r : List MicroInstr} (n : Nat) {s : State} (hb : s.busy = true)
    (hr : s.rest = ⟨.grant .data, .grantData⟩ :: r) :
    runSeq (n + 2) s
      = runSeq n (conclude (afterGrants s, if s.drawAt 0 && s.drawAt 1 then .go r else .raise errPinAcq)) := by
  have hask : advance ⟨.grant .data, .grantData⟩ r s
      = goOn (⟨.grant .sck, .grantSck (s.drawAt 0)⟩ :: r) (effect ⟨.grant .data, .grantData⟩ s) := rfl
  rw [runSeq_cons (n + 1) hb hr rfl, hask, runSeq_cons n (by simpa using hb) rfl rfl, advance_eq_conclude, effect_rest,
    effect_grants, conclude_goOn, flowOf_grantSck, goOn_drawAt, drawAt_grantData]

/-- What OPEN does with both grants (R138). -/
def openDirs : List MicroInstr := [plain (.dir .data .out), ⟨.dir .sck .out, .lifeReady⟩]

theorem effects_openDirs (s : State) :
    effects openDirs s = { s with
      life := lifeReady, ddir := true, cdir := true, upc := s.upc + 2#10
      trace := [.dir .sck .out, .dir .data .out] ++ s.trace, cycles := s.cycles + 2 } := by
  simp [openDirs, effect, plain, applyPost, applyOp, count, wireEvent, opCycles, PinDir.bit, BitVec.add_assoc]

/-- OPEN with both grants goes on to its two directions (R138). -/
theorem exec_openCmd_granted (a : Code) {s : State} (hi : s.idleFor 4) (hl : s.life = lifeUninit) (h0 : s.drawAt 0 = true)
    (h1 : s.drawAt 1 = true) :
    exec (.openCmd a) s = .next (complete errNone (effects openDirs (afterGrants (startOf (.openCmd a) s)))) := by
  obtain ⟨hlife, herr, hb, hw⟩ := hi
  have hdraws : ((startOf (.openCmd a) s).drawAt 0 && (startOf (.openCmd a) s).drawAt 1) = true :=
    Bool.and_eq_true_iff.2 ⟨h0, h1⟩
  have hrun := run_straight_end (p := openDirs) (s.window - 4) (s := goOn openDirs (afterGrants (startOf (.openCmd a) s)))
    (List.cons_ne_nil _ _) rfl rfl rfl rfl
  rw [effects_rest, complete_goOn] at hrun
  rw [exec_runs hlife herr hb (by rw [hl]; rfl), ← Nat.sub_add_cancel hw, run_grants (s.window - 4 + 2) rfl rfl, hdraws]
  exact hrun

/-- OPEN with a grant refused raises PIN_ACQ (R138, R139). -/
theorem exec_openCmd_refused (a : Code) {s : State} (hi : s.idleFor 2) (hl : s.life = lifeUninit)
    (h : ¬(s.drawAt 0 = true ∧ s.drawAt 1 = true)) :
    exec (.openCmd a) s = .next (complete errPinAcq (afterGrants (startOf (.openCmd a) s))) := by
  obtain ⟨hlife, herr, hb, hw⟩ := hi
  have hdraws : ((startOf (.openCmd a) s).drawAt 0 && (startOf (.openCmd a) s).drawAt 1) = false :=
    Bool.eq_false_iff.2 (mt Bool.and_eq_true_iff.1 h)
  rw [exec_runs hlife herr hb (by rw [hl]; rfl), ← Nat.sub_add_cancel hw, run_grants _ rfl rfl, hdraws]
  exact runSeq_idle _ rfl

/-- Settles O17: the trace's two grants are the answers drawn. -/
theorem openWithBothGrants : Obligations.OpenWithBothGrants := by
  intro a s hi hl h0 h1
  have htrace : [WireEvent.dir .sck .out, .dir .data .out, .grant .sck (s.drawAt 1), .grant .data (s.drawAt 0)]
      = [.dir .sck .out, .dir .data .out, .grant .sck true, .grant .data true] := by rw [h0, h1]
  refine ⟨_, exec_openCmd_granted a hi hl h0 h1, ?_⟩
  rw [effects_openDirs]
  exact specified_eq_saw rfl htrace rfl

/-- Settles O18: the two requests are all that OPEN performs before it raises. -/
theorem openWithAGrantRefused : Obligations.OpenWithAGrantRefused :=
  fun a _ hi hl h => ⟨_, exec_openCmd_refused a hi hl h, specified_eq_saw rfl rfl rfl⟩

/-! ## CLOSE -/

theorem effects_closeRoutine (s : State) :
    effects closeRoutine s = { s with
      life := lifeClosed, ddir := false, cdir := false, upc := s.upc + 2#10
      trace := [.dir .sck .inp, .dir .data .inp] ++ s.trace, cycles := s.cycles + 2 } := by
  simp [closeRoutine, effect, plain, applyPost, applyOp, count, wireEvent, opCycles, PinDir.bit, BitVec.add_assoc]

/-- CLOSE in READY (R140). -/
theorem exec_closeCmd_ready (a : Code) {s : State} (hi : s.idleFor 2) (hl : s.life = lifeReady) :
    exec (.closeCmd a) s = .next (complete errNone (effects closeRoutine (startOf (.closeCmd a) s))) :=
  exec_straight (i := .closeCmd a) hi (by rw [hl]; rfl) rfl rfl

/-- Settles O19: CLOSE's two directions, from the state it starts in. -/
theorem closeReleasesThePins : Obligations.CloseReleasesThePins := by
  intro a s hi hl
  refine ⟨_, exec_closeCmd_ready a hi hl, ?_⟩
  rw [effects_closeRoutine]
  exact specified_eq_saw rfl rfl rfl

/-- CLOSE in CLOSED changes nothing but the record of the command (R141). -/
theorem exec_closeCmd_closed (a : Code) {s : State} (hi : s.idleFor 0) (hl : s.life = lifeClosed) :
    exec (.closeCmd a) s = .next (s.completedAtOnce (encode (.closeCmd a)) errNone) :=
  exec_noOp hi (by rw [hl]; rfl)

/-- Settles O20: what CLOSE from READY leaves is CLOSED, with the record that CLOSE in CLOSED writes. -/
theorem closeIsIdempotent : Obligations.CloseIsIdempotent := by
  refine ⟨fun a s => exec_closeCmd_closed a, fun a b s hi hl => ⟨_, exec_closeCmd_ready a hi hl, ?_⟩,
    fun a s hi hl => exec_lifecycle hi (by rw [hl]; rfl)⟩
  exact exec_closeCmd_closed b ⟨(by decide : lifeClosed ≠ 3#2), (by decide : errNone.toNat ≤ 5), rfl, Nat.zero_le _⟩ rfl

end Sys2Proof.Machine
end

/-! The composite reads, each with its whole next state (R142 to R146): READ_T and both stages of READ_TRH and READ_RH where
they succeed, and what a failure in either stage leaves. -/

section
namespace Sys2Proof.Machine

/-- Settles O43: the two commands have one gate, one preparation and one routine. -/
theorem readRHIsReadTRH : Obligations.ReadRHIsReadTRH :=
  fun a b _ => exec_forgetWord (i := .readRH a) (j := .readTRH b) rfl rfl

/-! ## READ_T that succeeds -/

/-- Settles O38: MEASURE's writes and the commit of its word, from the state READ_T starts in. -/
theorem readTSucceeds : Obligations.ReadTSucceeds := by
  intro a s k hi hl ha h
  have he := exec_readT_succeeds a hi hl ha h
  have hcycles := exec_readT_succeeds_cycles a hi hl ha h he
  have hdraw : ∀ n, (start (.readT a) (some .temperature) readTRoutine
      (clearTD16 (acceptCommon (encode (.readT a)) s))).drawAt n = s.drawAt n := fun _ => rfl
  refine ⟨_, he, ?_⟩
  rw [afterReadT, afterMeasure, hdraw, hdraw, ha.1, ha.2]
  exact specified_eq_saw rfl rfl (hcycles.trans (Nat.zero_add _).symm)

/-! ## READ_TRH and READ_RH: their temperature stage -/

/-- The state in which READ_TRH or READ_RH has just started (R81, R146). -/
def startTRH (i : Instr) (s : State) : State :=
  start i (some .temperature) readTRHRoutine (clearAllValid (acceptCommon (encode i) s))

/-- READ_TRH's routine begins with MEASURE(0x03) (R145). -/
theorem startTRH_rest (i : Instr) (s : State) :
    (startTRH i s).rest = measureRoutine Config.cmdTemp
      ++ ([⟨.calc .stageT, .enterStageH⟩] ++ (measureRoutine Config.cmdHumi ++ [plain (.calc .stageH)])) := by
  rw [startTRH, start_rest, readTRHRoutine, List.append_assoc, List.append_assoc]

/-- READ_TRH and READ_RH run in READY (R137, R146). -/
theorem exec_readTRH_ready {a : Code} {i : Instr} {s : State} {n : Nat} (hk : i = .readTRH a ∨ i = .readRH a)
    (hi : s.idleFor n) (hl : s.life = lifeReady) : exec i s = runSeq (s.window - n + n) (startTRH i s) := by
  obtain ⟨h1, h2, hb, hw⟩ := hi
  have hg : lifecycleGate i s.life = .runs := by rcases hk with rfl | rfl <;> rw [hl] <;> rfl
  rw [exec_readTRH_or_readRH a hk, command_runs h1 h2 hb hg, Nat.sub_add_cancel hw]
  rfl

/-- The handshake of the temperature stage fails (R105, R145). -/
theorem exec_readTRH_nackT {a : Code} {i : Instr} {s : State} (hk : i = .readTRH a ∨ i = .readRH a) (hi : s.idleFor 60)
    (hl : s.life = lifeReady) (ha : ¬ s.acked 0) :
    exec i s = .next (complete errHandshake (afterSend Config.cmdTemp (startTRH i s))) := by
  rw [exec_readTRH_ready hk hi hl]
  exact run_measure_nack _ rfl (startTRH_rest i s) ha

/-- The poll of the temperature stage times out (R109, R145). -/
theorem exec_readTRH_timeoutT {a : Code} {i : Instr} {s : State} (hk : i = .readTRH a ∨ i = .readRH a) (hi : s.idleFor 261)
    (hl : s.life = lifeReady) (ha : s.acked 0) (hn : s.neverReady 2) :
    exec i s = .next (complete errReadyTimeout
      (afterWait (s.drawList 2 100) (afterSend Config.cmdTemp (startTRH i s)))) := by
  rw [exec_readTRH_ready hk hi hl, ← neverReady_drawList hn]
  exact run_measure_timeout _ rfl (startTRH_rest i s) ha hn

/-- Settles O41: SEND_CMD raises, or WAIT_READY does after it, from the state the command starts in. -/
theorem readTRHFailsInItsTemperatureStage : Obligations.ReadTRHFailsInItsTemperatureStage := by
  refine fun a i s hk hl => ⟨fun hi ha => ⟨_, exec_readTRH_nackT hk hi hl ha, ?_⟩,
    fun hi ha hn => ⟨_, exec_readTRH_timeoutT hk hi hl ha hn, ?_⟩⟩
  · exact specified_eq_saw rfl rfl rfl
  · obtain ⟨h0, h1⟩ := ha
    have hdraw : ∀ n, (startTRH i s).drawAt n = s.drawAt n := fun _ => rfl
    have hlist : (startTRH i s).drawList 2 100 = s.drawList 2 100 := rfl
    rw [← hlist, afterWait_afterSend, hdraw, hdraw, h0, h1]
    exact specified_eq_saw rfl rfl rfl

/-! ## A routine that begins later in the draws -/

section
variable {s u : State} {j : Nat} (hd : u.draws = s.draws.drop j) (hc : u.drawCount = s.drawCount + j)
include hd hc

theorem wireMeasure_drop (c : Code) (n k : Nat) : u.wireMeasure c n k = s.wireMeasure c (j + n) k := by
  simp only [State.wireMeasure, drawAt_drop hd hc, drawList_drop hd hc, Nat.add_assoc]

/-- What SEND_CMD(c) writes, its draws beginning with number j (R102 to R105). -/
theorem afterSend_drop (c : Code) :
    afterSend c u = { u with
      ddir := false, dout := c.getLsbD 0, cdir := true, cout := false, tmr := 0, upc := u.upc + 60#10, cnt := 8#7
      a1 := s.drawAt j, ack1 := s.drawAt j, a2 := s.drawAt (j + 1), ack2 := s.drawAt (j + 1)
      draws := s.draws.drop (j + 2), drawCount := s.drawCount + (j + 2)
      trace := (wireSend c (s.drawAt j) (s.drawAt (j + 1))).reverse ++ u.trace
      cycles := u.cycles + (38 + 22 * Config.settleCycles) } := by
  rw [afterSend, drawAt_drop hd hc, drawAt_drop hd hc, hd, hc, List.drop_drop, Nat.add_assoc, Nat.add_zero]

/-- What SEND_CMD(c) and then k polls write, their draws beginning with number j (R102 to R105, R108). -/
theorem afterWait_afterSend_drop (c : Code) (k : Nat) :
    afterWait (s.drawList (j + 2) k) (afterSend c u) = { u with
      ddir := false, dout := c.getLsbD 0, cdir := true, cout := false, tmr := 0, upc := u.upc + BitVec.ofNat 10 (61 + 2 * k)
      cnt := BitVec.ofNat 7 k, a1 := s.drawAt j, ack1 := s.drawAt j, a2 := s.drawAt (j + 1), ack2 := s.drawAt (j + 1)
      polls := BitVec.ofNat 7 k, draws := s.draws.drop (j + (2 + k)), drawCount := s.drawCount + (j + (2 + k))
      trace := (wireSend c (s.drawAt j) (s.drawAt (j + 1)) ++ wireWait (s.drawList (j + 2) k)).reverse ++ u.trace
      cycles := u.cycles + (39 + 22 * Config.settleCycles + k * (Config.pollCycles + 1)) } := by
  rw [← drawList_drop hd hc, afterWait_afterSend, drawAt_drop hd hc, drawAt_drop hd hc, hd, hc, List.drop_drop,
    Nat.add_assoc, Nat.add_zero]

/-- What MEASURE(c) writes where it succeeds, its draws beginning with number j (R142). -/
theorem afterMeasure_drop (c : Code) (k : Nat) :
    afterMeasure c k u = { u with
      ddir := true, dout := true, cdir := true, cout := false, tmr := 0, upc := u.upc + BitVec.ofNat 10 (157 + 2 * k)
      cnt := 8#7, a1 := s.drawAt j, ack1 := s.drawAt j, a2 := s.drawAt (j + 1), ack2 := s.drawAt (j + 1)
      polls := BitVec.ofNat 7 k, sh := shiftedByte (s.drawList (j + (k + 10)) 8), w := s.drawnWord (j + (k + 2))
      data16 := s.drawnWord (j + (k + 2)), d16Valid := true
      draws := s.draws.drop (j + (k + 18)), drawCount := s.drawCount + (j + (k + 18))
      trace := (s.wireMeasure c j k).reverse ++ u.trace, cycles := u.cycles + cyclesMeasure k } := by
  rw [afterMeasure, drawAt_drop hd hc, drawAt_drop hd hc, drawList_drop hd hc, drawnWord_drop hd hc, wireMeasure_drop hd hc,
    hd, hc, List.drop_drop, Nat.add_assoc, Nat.add_zero]

end

/-! ## READ_TRH and READ_RH: their humidity stage -/

/-- A command's wire trace in two parts, where the second begins in the state `u`. -/
theorem trace_append {t u : State} {first second : List WireEvent} (ht : t.trace = second.reverse ++ u.trace)
    (hu : u.trace = first.reverse ++ []) : t.trace = (first ++ second).reverse ++ [] := by
  rw [ht, hu, List.reverse_append, List.append_assoc]

/-- Settles O40: the temperature stage, and then MEASURE(0x05) and the commit of its word from draw k + 18 on. -/
theorem readTRHSucceeds : Obligations.ReadTRHSucceeds := by
  intro a i s k m hk hi hl ha h ha' h'
  have he : exec i s = .next (complete errNone (afterReadTRH k m (startTRH i s))) :=
    exec_readTRH_succeeds a hk hi hl ha h ha' h'
  have hcycles := (exec_readTRH_succeeds_cycles a hk hi hl ha h ha' h' he).trans (Nat.zero_add _).symm
  have hw : k + m + 20 = k + 18 + (m + 2) := by omega
  have hn : k + m + 36 = k + 18 + (m + 18) := by omega
  have hd : (afterStageT k (startTRH i s)).draws = s.draws.drop (k + 18) := afterStageT_draws k _
  have hc : (afterStageT k (startTRH i s)).drawCount = s.drawCount + (k + 18) := afterStageT_drawCount k _
  refine ⟨_, he, ?_⟩
  rw [afterReadTRH, afterMeasure_drop hd hc, ha'.1, ha'.2] at hcycles ⊢
  rw [hw, hn]
  exact specified_eq_saw (by unfold State.unobserved State.specified; rfl)
    (trace_append (u := afterStageT k (startTRH i s)) rfl rfl) hcycles

/-- READ_TRH or READ_RH where its humidity stage begins (R145). -/
def atStageH (k : Nat) (i : Instr) (s : State) : State :=
  goOn (measureRoutine Config.cmdHumi ++ [plain (.calc .stageH)]) (afterStageT k (startTRH i s))

theorem atStageH_busy (k : Nat) (i : Instr) (s : State) : (atStageH k i s).busy = true := effect_busy _ _

/-- The temperature stage took k + 18 draws. -/
theorem atStageH_draws (k : Nat) (i : Instr) (s : State) : (atStageH k i s).draws = s.draws.drop (k + 18) :=
  afterStageT_draws k (startTRH i s)

theorem atStageH_drawCount (k : Nat) (i : Instr) (s : State) : (atStageH k i s).drawCount = s.drawCount + (k + 18) :=
  afterStageT_drawCount k (startTRH i s)

theorem atStageH_cycles (k : Nat) (i : Instr) (s : State) :
    (atStageH k i s).cycles = 0 + (cyclesMeasure k + Config.calCycles) :=
  (afterStageT_cycles k (startTRH i s)).trans (Nat.add_assoc ..)

section
variable {a : Code} {i : Instr} {s : State} {k n : Nat} (hk : i = .readTRH a ∨ i = .readRH a) (hl : s.life = lifeReady)
  (ha : s.acked 0) (h : s.readyAfter 2 k)
include hk hl ha h

/-- The temperature stage succeeds, and `n` steps of the window are left for the humidity stage (R145). -/
theorem exec_readTRH_stageH (hi : s.idleFor (n + (158 + 2 * k))) :
    exec i s = runSeq (s.window - (n + (158 + 2 * k)) + n) (atStageH k i s) := by
  rw [exec_readTRH_ready hk hi hl, ← Nat.add_assoc (s.window - _)]
  exact run_stageT _ rfl rfl ha h

/-- The handshake of the humidity stage fails (R105, R145). -/
theorem exec_readTRH_nackH (hi : s.idleFor (60 + (158 + 2 * k))) (ha' : ¬ s.acked (k + 18)) :
    exec i s = .next (complete errHandshake (afterSend Config.cmdHumi (atStageH k i s))) := by
  have hnack : ¬ (atStageH k i s).acked 0 := mt (acked_drop (atStageH_draws k i s) (atStageH_drawCount k i s) 0).1 ha'
  rw [exec_readTRH_stageH hk hl ha h hi]
  exact run_measure_nack _ (atStageH_busy k i s) rfl hnack

/-- The poll of the humidity stage times out (R109, R145). -/
theorem exec_readTRH_timeoutH (hi : s.idleFor (261 + (158 + 2 * k))) (ha' : s.acked (k + 18)) (hn : s.neverReady (k + 20)) :
    exec i s = .next (complete errReadyTimeout (afterWait (s.drawList (k + 20) 100)
      (afterSend Config.cmdHumi (atStageH k i s)))) := by
  have hack : (atStageH k i s).acked 0 := (acked_drop (atStageH_draws k i s) (atStageH_drawCount k i s) 0).2 ha'
  have hnever : (atStageH k i s).neverReady 2 := (neverReady_drop (atStageH_draws k i s) (atStageH_drawCount k i s) 2).2 hn
  rw [exec_readTRH_stageH hk hl ha h hi, ← neverReady_drawList hn]
  exact run_measure_timeout _ (atStageH_busy k i s) rfl hack hnever

end

/-- Settles O42: SEND_CMD or WAIT_READY raises from the state that the temperature stage has left. -/
theorem readTRHFailsInItsHumidityStage : Obligations.ReadTRHFailsInItsHumidityStage := by
  intro a i s k hk hl ha h
  have hd := atStageH_draws k i s
  have hc := atStageH_drawCount k i s
  have hcycles : ∀ clk, (atStageH k i s).cycles + clk = 0 + (cyclesMeasure k + Config.calCycles + clk) := fun clk => by
    rw [atStageH_cycles, Nat.add_assoc]
  refine ⟨fun hi ha' => ⟨_, exec_readTRH_nackH hk hl ha h (idleFor_mono (by omega) hi) ha', ?_⟩,
    fun hi ha' hn => ⟨_, exec_readTRH_timeoutH hk hl ha h (idleFor_mono (by omega) hi) ha' hn, ?_⟩⟩
  · rw [afterSend_drop hd hc]
    exact specified_eq_saw (by unfold State.unobserved State.specified; rfl) (trace_append (u := atStageH k i s) rfl rfl)
      (hcycles _)
  · rw [afterWait_afterSend_drop hd hc, ha'.1, ha'.2]
    exact specified_eq_saw (by unfold State.unobserved State.specified; rfl) (trace_append (u := atStageH k i s) rfl rfl)
      (hcycles _)

end Sys2Proof.Machine
end

/-! What a host reads right after hardware reset (R177). -/

section
namespace Sys2Proof.Machine

/-- Settles O48: each offset gives its register (O6), and the register's reset value is 0 but for DOUT's in PINS. The halves of
RH_C and RH_NUM are those of a zero. -/
theorem hostReadsAfterReset : Obligations.HostReadsAfterReset := by
  obtain ⟨hcmd, hstatus, hopa, hopb, hrawT, hrawH, hdata16, htempC, -, -, -, h34, h38, h3C⟩ :=
    readsReturnTheMappedRegisters State.reset
  have hstatus0 : statusWord State.reset = 0x00000000#32 := statusLayout.2.1
  have hpins : hostRead 0x30#6 State.reset = 0x00000002#32 := pinsShowThePinState.2.1
  refine ⟨?_, hpins⟩
  simp only [List.forall_mem_cons]
  exact ⟨hcmd, hstatus.trans hstatus0, hopa, hopb, hrawT, hrawH, hdata16, htempC, rfl, rfl, rfl, rfl, h34, h38, h3C,
    List.forall_mem_nil _⟩

end Sys2Proof.Machine
end
